-- ==== Sys2Proof/Word.lean ====
section
/-! DEFINITION. The bit-vector types of the register window: 32-bit words (rule R10) and bytes (rule R11). -/

namespace Sys2Proof

/-- A 32-bit word of the register window, and a random word (rules R10, R47, R90). -/
abbrev Word := BitVec 32

/-- A byte of a byte string (rule R11). -/
abbrev Byte := BitVec 8

end Sys2Proof
end

