-- ==== Sys2Proof/Syntax.lean ====
section
/-! DEFINITION. The commands of the engine: one constructor per row of the opcode map (rule R95). -/

namespace Sys2Proof

/-- The index of a big register Z0 to Z7. A field is 3 bits, so every value names a register (rule R91). -/
abbrev ZReg := Fin 8

/-- The 14 commands (rule R95), each with the register fields it uses, in the order RD, RS1, RS2, RS3 (rule R98). -/
inductive Instr where
  | nop
  | zeroize
  | montmul (rd rs1 rs2 rs3 : ZReg)
  | modmul (rd rs1 rs2 rs3 : ZReg)
  | rsq (rd rs3 : ZReg)
  | modexp (rd rs1 rs2 rs3 : ZReg)
  | gcd (rd rs1 rs2 : ZReg)
  | modinv (rd rs1 rs3 : ZReg)
  | isprime (rs1 : ZReg)
  | keygen
  | xor (rd rs1 rs2 : ZReg)
  | mgf1 (rd rs1 : ZReg)
  | oaepEnc (rd rs1 : ZReg)
  | oaepDec (rd rs1 : ZReg)
deriving DecidableEq, Repr

end Sys2Proof
end

