-- ==== Sys2Proof/WellFormed.lean ====
section
/-! DEFINITION. When a command word is well formed (rules R93, R94, R96). Every term of `Instr` is well formed by its type
(a field is a `Fin 8`, rule R91), so the checks stand on words; `decode` is written from the match and mask columns of
rule R95 instead, and a statement says that the two agree. -/

namespace Sys2Proof

/-- Which of the fields RD, RS1, RS2, RS3 a command uses (rule R95: a field marked "0" is not used). -/
structure FieldUse where
  rd : Bool
  rs1 : Bool
  rs2 : Bool
  rs3 : Bool
deriving DecidableEq, Repr

/-- The register fields of each opcode of rule R95; `none` for the 242 opcodes that are no command (rule R96). -/
def fieldUse (opc : Nat) : Option FieldUse :=
  match opc with
  | 0x00 => some ⟨false, false, false, false⟩
  | 0x01 => some ⟨false, false, false, false⟩
  | 0x10 => some ⟨true, true, true, true⟩
  | 0x11 => some ⟨true, true, true, true⟩
  | 0x12 => some ⟨true, false, false, true⟩
  | 0x13 => some ⟨true, true, true, true⟩
  | 0x20 => some ⟨true, true, true, false⟩
  | 0x21 => some ⟨true, true, false, true⟩
  | 0x22 => some ⟨false, true, false, false⟩
  | 0x30 => some ⟨false, false, false, false⟩
  | 0x40 => some ⟨true, true, true, false⟩
  | 0x41 => some ⟨true, true, false, false⟩
  | 0x42 => some ⟨true, true, false, false⟩
  | 0x43 => some ⟨true, true, false, false⟩
  | _ => none

/-- Rule R96: the opcode field names a command. -/
def CommandWord.opcodeKnown (w : Word) : Bool := (fieldUse (w.toNat % 256)).isSome

/-- Rule R93: bits 11, 15, 19 and 31 to 23 are 0. -/
def CommandWord.reservedClear (w : Word) : Bool :=
  !w.getLsbD 11 && !w.getLsbD 15 && !w.getLsbD 19 && decide (w.toNat / 2 ^ 23 = 0)

/-- Rule R94: every register field the command does not use is 0. -/
def CommandWord.unusedClear (w : Word) : Bool :=
  match fieldUse (w.toNat % 256) with
  | none => true
  | some u =>
    (u.rd || decide (w.toNat / 2 ^ 8 % 8 = 0)) && (u.rs1 || decide (w.toNat / 2 ^ 12 % 8 = 0))
      && (u.rs2 || decide (w.toNat / 2 ^ 16 % 8 = 0)) && (u.rs3 || decide (w.toNat / 2 ^ 20 % 8 = 0))

/-- A word is the encoding of a command exactly when it passes the three checks (rules R93, R94, R96). -/
def CommandWord.wf (w : Word) : Bool :=
  CommandWord.opcodeKnown w && CommandWord.reservedClear w && CommandWord.unusedClear w

end Sys2Proof
end

