-- ==== Sys2Proof/Decode.lean ====
section
/-! DEFINITION. Decoding a command word (rules R90 to R97) by the match and mask columns of rule R95, and the encoder
(rule R98). Decoding is total: every word is a command or rejected by name. -/

namespace Sys2Proof

/-- Why a word is no command. The engine reports each of them as IllegalCommand (rules R93, R94, R96, R243); the names are
the model's. -/
inductive DecodeReject where
  /-- Rule R96: the opcode is in no row of rule R95. -/
  | unknownOpcode
  /-- Rule R93: a reserved bit is set. -/
  | reservedBitSet
  /-- Rule R94: a field the command does not use is not 0. -/
  | unusedFieldSet
  /-- Rule R90: a command is one 32-bit word written in one access; fewer bytes are no command. -/
  | notOneWord
deriving DecidableEq, Repr

/-- The three bits of a register field whose lowest bit is `lo` (rules R90, R91). -/
def regField (w : Word) (lo : Nat) : ZReg := ⟨(w >>> lo).toNat % 8, Nat.mod_lt _ (by decide)⟩

/-- RD, bits [10:8] (rule R90). -/
def fieldRD (w : Word) : ZReg := regField w 8
/-- RS1, bits [14:12] (rule R90). -/
def fieldRS1 (w : Word) : ZReg := regField w 12
/-- RS2, bits [18:16] (rule R90). -/
def fieldRS2 (w : Word) : ZReg := regField w 16
/-- RS3, bits [22:20] (rule R90). -/
def fieldRS3 (w : Word) : ZReg := regField w 20

/-- One row of the opcode map of rule R95: a word `w` is the command exactly when `w AND mask = match`. -/
structure OpcodeRow where
  mnemonic : String
  matchWord : Word
  mask : Word
  build : Word → Instr

/-- The opcode map of rule R95. -/
def opcodeRows : List OpcodeRow := [
  ⟨"NOP", 0x00000000, 0xFFFFFFFF, fun _ => .nop⟩,
  ⟨"ZEROIZE", 0x00000001, 0xFFFFFFFF, fun _ => .zeroize⟩,
  ⟨"MONTMUL", 0x00000010, 0xFF8888FF, fun w => .montmul (fieldRD w) (fieldRS1 w) (fieldRS2 w) (fieldRS3 w)⟩,
  ⟨"MODMUL", 0x00000011, 0xFF8888FF, fun w => .modmul (fieldRD w) (fieldRS1 w) (fieldRS2 w) (fieldRS3 w)⟩,
  ⟨"RSQ", 0x00000012, 0xFF8FF8FF, fun w => .rsq (fieldRD w) (fieldRS3 w)⟩,
  ⟨"MODEXP", 0x00000013, 0xFF8888FF, fun w => .modexp (fieldRD w) (fieldRS1 w) (fieldRS2 w) (fieldRS3 w)⟩,
  ⟨"GCD", 0x00000020, 0xFFF888FF, fun w => .gcd (fieldRD w) (fieldRS1 w) (fieldRS2 w)⟩,
  ⟨"MODINV", 0x00000021, 0xFF8F88FF, fun w => .modinv (fieldRD w) (fieldRS1 w) (fieldRS3 w)⟩,
  ⟨"ISPRIME", 0x00000022, 0xFFFF8FFF, fun w => .isprime (fieldRS1 w)⟩,
  ⟨"KEYGEN", 0x00000030, 0xFFFFFFFF, fun _ => .keygen⟩,
  ⟨"XOR", 0x00000040, 0xFFF888FF, fun w => .xor (fieldRD w) (fieldRS1 w) (fieldRS2 w)⟩,
  ⟨"MGF1", 0x00000041, 0xFFFF88FF, fun w => .mgf1 (fieldRD w) (fieldRS1 w)⟩,
  ⟨"OAEP_ENC", 0x00000042, 0xFFFF88FF, fun w => .oaepEnc (fieldRD w) (fieldRS1 w)⟩,
  ⟨"OAEP_DEC", 0x00000043, 0xFFFF88FF, fun w => .oaepDec (fieldRD w) (fieldRS1 w)⟩]

/-- Rule R95: the word is the row's command. -/
def OpcodeRow.matches (r : OpcodeRow) (w : Word) : Bool := w &&& r.mask == r.matchWord

/-- The name of a rejection; which of several reasons is named first is the model's and shows nowhere in the machine. -/
def rejectReason (w : Word) : DecodeReject :=
  if CommandWord.opcodeKnown w = false then .unknownOpcode
  else if CommandWord.reservedClear w = false then .reservedBitSet
  else .unusedFieldSet

/-- The command a word encodes, or why it is none (rules R95 to R97). -/
def decode (w : Word) : Except DecodeReject Instr :=
  match opcodeRows.find? (fun r => r.matches w) with
  | some r => .ok (r.build w)
  | none => .error (rejectReason w)

/-- The word on the bus from its four byte lanes, lane 0 (bits [7:0]) at the lowest address (rule R65). -/
def wordOfLanes (b0 b1 b2 b3 : Byte) : Word := b3 ++ b2 ++ b1 ++ b0

/-- Decoding on any bytes: one command is four bytes, as the bus lays them out (rules R65, R90); the rest is handed back. -/
def decodeBytes : List Byte → Except DecodeReject (Instr × List Byte)
  | b0 :: b1 :: b2 :: b3 :: rest =>
    match decode (wordOfLanes b0 b1 b2 b3) with
    | .ok i => .ok (i, rest)
    | .error e => .error e
  | _ => .error .notOneWord

/-- The four byte lanes of a word, lowest address first (rule R65). -/
def lanesOfWord (w : Word) : List Byte :=
  [w.extractLsb' 0 8, w.extractLsb' 8 8, w.extractLsb' 16 8, w.extractLsb' 24 8]

/-- The instruction the decoder reads from a table row's word, numbered as the opcode table numbers it; bits above `nbits` are 0. -/
def decodeTableWord (nbits w : Nat) : Option Instr :=
  if 32 < nbits then none
  else
    match decodeBytes (lanesOfWord (BitVec.ofNat 32 (w % 2 ^ nbits))) with
    | .ok (i, _) => some i
    | .error _ => none

/-- A command word from its opcode and its four register fields (rules R90, R98). -/
def formatC (opc : Nat) (rd rs1 rs2 rs3 : ZReg) : Word :=
  BitVec.ofNat 32 opc ||| BitVec.ofNat 32 rd.val <<< 8 ||| BitVec.ofNat 32 rs1.val <<< 12
    ||| BitVec.ofNat 32 rs2.val <<< 16 ||| BitVec.ofNat 32 rs3.val <<< 20

/-- The word of a command (rule R98). -/
def encode : Instr → Word
  | .nop => formatC 0x00 0 0 0 0
  | .zeroize => formatC 0x01 0 0 0 0
  | .montmul rd rs1 rs2 rs3 => formatC 0x10 rd rs1 rs2 rs3
  | .modmul rd rs1 rs2 rs3 => formatC 0x11 rd rs1 rs2 rs3
  | .rsq rd rs3 => formatC 0x12 rd 0 0 rs3
  | .modexp rd rs1 rs2 rs3 => formatC 0x13 rd rs1 rs2 rs3
  | .gcd rd rs1 rs2 => formatC 0x20 rd rs1 rs2 0
  | .modinv rd rs1 rs3 => formatC 0x21 rd rs1 0 rs3
  | .isprime rs1 => formatC 0x22 0 rs1 0 0
  | .keygen => formatC 0x30 0 0 0 0
  | .xor rd rs1 rs2 => formatC 0x40 rd rs1 rs2 0
  | .mgf1 rd rs1 => formatC 0x41 rd rs1 0 0
  | .oaepEnc rd rs1 => formatC 0x42 rd rs1 0 0
  | .oaepDec rd rs1 => formatC 0x43 rd rs1 0 0

end Sys2Proof
end

