-- ==== Sys2Proof/Config.lean ====
section
/-! DEFINITION. What an implementation fixes (rule R6) and the free values the spec leaves open (rules R48, R61). -/

namespace Sys2Proof

/-- The implementation parameters of rule R6. `IRQ_LINE` is the platform's and no rule of the engine reads it (log 17). -/
structure Params where
  /-- `MAXW`: the width of each big register in 32-bit words. -/
  maxw : Nat
  /-- `FIFO_DEPTH`: the depth of the random-word FIFO in words. -/
  fifoDepth : Nat
  /-- `BASE`: the byte address of offset 0 of the register window. -/
  base : Nat
deriving DecidableEq, Repr

/-- The legal values of rule R6. -/
def Params.wf (p : Params) : Bool :=
  decide (16 ≤ p.maxw) && decide (p.maxw ≤ 64) && decide (1 ≤ p.fifoDepth) && decide (p.fifoDepth ≤ 255)
    && decide (p.base % 0x2000 = 0)

/-- The reference configuration of rule R6. DESIGN CHOICE (log 1, safe): `BASE` is platform-defined and has no reference value; 0. -/
def Params.reference : Params := { maxw := 64, fifoDepth := 16, base := 0 }

/-- FREE VALUE (rule R48, log 3): the word the entropy source answers when the schedule names none, "a free input under no law".
The argument is a plain counter of State, so that no two answers are related. It has no body a proof could use. -/
opaque Config.entropyWord : Nat → Word

/-- FREE VALUE, the platform's (rule R61, decision D2, log 5): what the host gets for its read number `count` outside the window, of
`bits` bits at the address `addr`; `none` where the platform returns no data. It has no body a proof could use. -/
opaque Config.platformRead (count bits addr : Nat) : Option Word

end Sys2Proof
end

