-- ==== Sys2Proof/Machine/State.lean ====
section
/-! DEFINITION. The state of the engine (rules R20 to R57, R271), as plain data, and the state after reset. -/

namespace Sys2Proof.Machine

/-- The completion codes of STATUS.ERRCODE (rule R234). 0x0D to 0xFF are reserved and never produced, so they have no name. -/
inductive ErrCode where
  | ok
  | encodingError
  /-- Defensive: no run reaches it (rule R236). -/
  | keyGenError
  | messageTooLong
  | blockTooLarge
  | integrityError
  | paddingError
  /-- Reserved: no command raises it (rule R241). -/
  | keyRecordParseError
  | noInverse
  | illegalCommand
  | configError
  | modulusInvalid
  | aborted
deriving DecidableEq, Repr

/-- CTRL.RNGSRC (rule R31): 0 selects the entropy source, 1 the host-fed FIFO. -/
inductive RngSource where
  | entropy
  | fifo
deriving DecidableEq, Repr

/-- What a command reads, taken at its acceptance (rule R54, rule R13). -/
structure Snapshot where
  z : Vector Nat 8
  keysize : BitVec 16
  mrRounds : BitVec 8
  lena : BitVec 16
  lenb : BitVec 16
  rngsrc : RngSource
deriving DecidableEq, Repr

/-- The contents of the state Busy(cmd, snap, drawn) (rule R54). -/
structure Running where
  /-- The accepted command word. -/
  cmd : Word
  snap : Snapshot
  /-- The random words taken so far, the first drawn first. -/
  drawn : List Word
deriving DecidableEq, Repr

/-- The engine's command state (rule R54). -/
inductive Engine where
  | idle
  | busy (c : Running)
deriving DecidableEq, Repr

/-- One host access to the engine (rules R60, R64): its width in bits and its byte address. The data of a write wider or
narrower than 32 bits never reaches a register (rule R64), so 32 bits of data are enough. -/
inductive Access where
  | read (bits : Nat) (addr : Nat)
  | write (bits : Nat) (addr : Nat) (data : Word)
deriving DecidableEq, Repr

/-- What may happen next (rules R20, R72, R270): the schedule of State fixes the one sequentially consistent order of host
accesses and engine steps (log 2). -/
inductive Event where
  /-- A host access takes effect. -/
  | host (a : Access)
  /-- The engine may take one step. -/
  | engine
  /-- The entropy source answers with a word (rule R48, log 3). -/
  | entropy (w : Word)
  /-- The platform asserts the reset input (rule R270). -/
  | resetInput
deriving DecidableEq, Repr

/-- What stops the machine: nothing, so the type has no constructor. The engine has no trap and signals no bus error (rules R64,
R249), and it keeps its state where it does not respond (rule R61). -/
inductive Fault where
deriving DecidableEq, Repr

/-- What has no meaning in the model. -/
inductive Refusal where
  /-- Raised by an arm of exec that has no meaning yet; every arm has one, so no step raises it. Safe: it would stop the machine. -/
  | notModelled (mnemonic : String)
deriving DecidableEq, Repr

/-- The state of the machine. The first part is the spec's architectural state (rule R20); the last five fields are the model's
own inputs and output (logs 2, 3, 5, 6). -/
structure State where
  /-- The implementation parameters (rule R6); no step changes them (log 1). -/
  params : Params
  /-- Z0 to Z7, each an unsigned integer below `2^(32·MAXW)` (rule R21). -/
  z : Vector Nat 8
  /-- CTRL.IE (rule R30). -/
  ie : Bool
  /-- CTRL.RNGSRC (rule R31). -/
  rngsrc : RngSource
  /-- CMD: the last accepted command word (rule R37). -/
  cmd : Word
  /-- STATUS.DONE (rule R40). -/
  done : Bool
  /-- STATUS.RESULT (rule R41). -/
  result : Bool
  /-- STATUS.OVERRUN (rule R42). -/
  overrun : Bool
  /-- STATUS.RNGOVF (rule R44). -/
  rngovf : Bool
  /-- STATUS.ACCERR (rule R45). -/
  accerr : Bool
  /-- STATUS.ERRCODE (rule R46). -/
  errcode : ErrCode
  /-- MR_ROUNDS (rule R34). -/
  mrRounds : BitVec 8
  /-- KEYSIZE (rule R33). -/
  keysize : BitVec 16
  /-- LENA (rule R35). -/
  lena : BitVec 16
  /-- LENB (rule R36). -/
  lenb : BitVec 16
  /-- The random-word FIFO, oldest word first (rule R47). -/
  fifo : List Word
  /-- RNG_COUNT (rule R49). -/
  rngCount : Word
  /-- The engine's command state (rule R54). -/
  engine : Engine
  /-- MODEL'S OWN (log 2): the events still to come, the next one first. -/
  schedule : List Event
  /-- MODEL'S OWN (log 3): the entropy source's answers not yet drawn, oldest first. -/
  entropy : List Word
  /-- MODEL'S OWN (log 3): how many free entropy words have been used. -/
  entropyCount : Nat
  /-- MODEL'S OWN (log 5): how many reads outside the window the platform has answered. -/
  platformReads : Nat
  /-- MODEL'S OWN (log 6): the value the last read access returned to the host; `none` before the first one, and where the platform
  returned no data (log 5). -/
  readData : Option Word
deriving DecidableEq, Repr

/-- The values of rule R271 in a machine with the parameters `p`, with nothing scheduled. -/
def State.resetOf (p : Params) : State where
  params := p
  z := Vector.replicate 8 0
  ie := false
  rngsrc := .entropy
  cmd := 0
  done := false
  result := false
  overrun := false
  rngovf := false
  accerr := false
  errcode := .ok
  mrRounds := 5
  keysize := 0
  lena := 0
  lenb := 0
  fifo := []
  rngCount := 0
  engine := .idle
  schedule := []
  entropy := []
  entropyCount := 0
  platformReads := 0
  readData := none

/-- The machine right after reset (rule R271), in the reference configuration of rule R6 (log 1). -/
def State.reset : State := State.resetOf Params.reference

end Sys2Proof.Machine
end

