-- ==== Sys2Proof/Machine/Operands.lean ====
section
/-! DEFINITION. Every operand form of the commands: derived quantities (rules R8, R51 to R53), byte strings (rules R11, R67,
R68), words of a big register (rules R63, R66) and random integers (rules R216, R217). -/

namespace Sys2Proof.Machine

/-! ### Derived quantities -/

/-- The number of bits of `x` with no leading zero (rule R9). -/
def bitlen (x : Nat) : Nat := if x = 0 then 0 else Nat.log2 x + 1

/-- The digit count of a modulus, `max(1, ceil(bitlen(N)/32))` (rule R52). -/
def nw (n : Nat) : Nat := max 1 ((bitlen n + 31) / 32)

/-- The Montgomery radix of a modulus, `2^(32·nw(N))` (rule R52). -/
def radix (n : Nat) : Nat := 2 ^ (32 * nw n)

/-- `HLEN`, the hash length in bytes (rule R7). -/
def hLen : Nat := 20

/-- The byte capacity of a big register, `CAP = 4·MAXW` (rule R53). -/
def cap (p : Params) : Nat := 4 * p.maxw

/-- `KSLegal(KS)` (rule R51). -/
def ksLegal (p : Params) (ks : Nat) : Bool := decide (ks % 4 = 0) && decide (4 ≤ ks) && decide (ks ≤ 16 * p.maxw)

/-- The modulus byte length `k = KS / 4` (rules R8, R51). -/
def modulusBytes (ks : Nat) : Nat := ks / 4

/-- Whether `x` fits a big register (rule R21). -/
def fitsZ (p : Params) (x : Nat) : Bool := decide (x < 2 ^ (32 * p.maxw))

/-! ### Byte strings in big registers -/

/-- `OS2IP(s)`: big-endian unsigned interpretation (rule R67). -/
def os2ip (s : List Byte) : Nat := s.foldl (fun acc b => acc * 256 + b.toNat) 0

/-- The last `len` base-256 digits of `x`, most significant first. -/
def bytesOf : Nat → Nat → List Byte
  | 0, _ => []
  | len + 1, x => bytesOf len (x / 256) ++ [BitVec.ofNat 8 x]

/-- `I2OSP(x, L)`: `none` where the integer does not fit, which raises EncodingError; never truncated (rule R67, conflict C2). -/
def i2osp (x len : Nat) : Option (List Byte) := if x ≥ 256 ^ len then none else some (bytesOf len x)

/-- `BE32(c)`, the source's `bigEndian32`: `I2OSP(c, 4)` (rule R11). -/
def be32 (c : Nat) : List Byte := bytesOf 4 c

/-- Bytewise exclusive OR of two byte strings of equal length (rule R11). -/
def xorBytes (s t : List Byte) : List Byte := List.zipWith (fun a b => a ^^^ b) s t

/-! ### Words of a big register -/

/-- Word `j` of the integer `x`: bits `[32·j+31 : 32·j]` (rules R63, R66). -/
def wordOf (x j : Nat) : Word := BitVec.ofNat 32 (x / 2 ^ (32 * j))

/-- The integer `x` with word `j` replaced by `w` and every other word unchanged (rule R63). -/
def setWord (x j : Nat) (w : Word) : Nat :=
  x / 2 ^ (32 * (j + 1)) * 2 ^ (32 * (j + 1)) + w.toNat * 2 ^ (32 * j) + x % 2 ^ (32 * j)

/-! ### Random integers from drawn words

A drawing function takes the words drawn and not yet used, and answers `none` when it reaches a draw beyond them: the
`NeedWord` of rule R232. Otherwise it answers its value and the words it has not used. -/

/-- The sum of `k` drawn words, the first drawn least significant (rule R216). -/
def randWords : Nat → List Word → Option (Nat × List Word)
  | 0, ws => some (0, ws)
  | _ + 1, [] => none
  | k + 1, w :: ws =>
    match randWords k ws with
    | none => none
    | some (x, rest) => some (w.toNat + 2 ^ 32 * x, rest)

/-- `RandBits(b)`: `ceil(b/32)` words, the high bits of the last discarded (rule R216). -/
def randBits (b : Nat) (ws : List Word) : Option (Nat × List Word) :=
  match randWords ((b + 31) / 32) ws with
  | none => none
  | some (x, rest) => some (x % 2 ^ b, rest)

/-- `DrawUntil` with room for `fuel` trials. -/
def drawUntilFuel (b : Nat) (accept : Nat → Bool) : Nat → List Word → Option (Nat × List Word)
  | 0, _ => none
  | fuel + 1, ws =>
    match randBits b ws with
    | none => none
    | some (x, rest) => if accept x then some (x, rest) else drawUntilFuel b accept fuel rest

/-- `DrawUntil(b, P)`, with no limit on the number of draws (rule R217). Each trial takes at least one word (`b ≥ 1`), so one
trial more than there are words always reaches a draw beyond them: the fuel bounds nothing (log 14). -/
def drawUntil (b : Nat) (accept : Nat → Bool) (ws : List Word) : Option (Nat × List Word) :=
  drawUntilFuel b accept (ws.length + 1) ws

end Sys2Proof.Machine
end

