-- ==== Sys2Proof/Machine/Ops.lean ====
section
/-! DEFINITION. The command lifecycle, said once for all commands: acceptance (R230, R231), the engine's draw and commit steps
(R232), completion by success, error or abort (R233), the end of a completion record (R250), and reset (R272). -/

namespace Sys2Proof.Machine

/-! ### What a command answers -/

/-- The writes a command has scheduled (rule R12): big registers in the pseudocode's order, LENB and STATUS.RESULT. -/
structure Writes where
  z : List (ZReg × Nat) := []
  lenb : Option (BitVec 16) := none
  result : Option Bool := none
deriving DecidableEq, Repr

/-- The answer of `Run(cmd, snap, drawn)` (rule R232): it needs a word beyond `drawn`, or it finishes with success or an error. -/
inductive RunResult where
  | needWord
  | success (w : Writes)
  | error (code : ErrCode)
deriving DecidableEq, Repr

/-- A command's rule as a function of the parameters, its snapshot and the words drawn so far (rule R232). -/
abbrev CommandRun := Params → Snapshot → List Word → RunResult

/-! ### Registers -/

/-- A big register of the snapshot (rules R12, R13). -/
def Snapshot.read (c : Snapshot) (r : ZReg) : Nat := c.z[r]

/-- The scheduled big-register writes applied in order (rule R233). -/
def applyZ (z : Vector Nat 8) : List (ZReg × Nat) → Vector Nat 8
  | [] => z
  | (r, v) :: rest => applyZ (z.set r v) rest

/-- What a command reads, at this moment (rule R54). -/
def State.snapshot (s : State) : Snapshot where
  z := s.z
  keysize := s.keysize
  mrRounds := s.mrRounds
  lena := s.lena
  lenb := s.lenb
  rngsrc := s.rngsrc

/-- Whether a command is running: STATUS.BUSY (rules R39, R54). -/
def State.busy (s : State) : Bool :=
  match s.engine with
  | .idle => false
  | .busy _ => true

/-! ### Completion: the model's one way to end a command, beside the end of its record -/

/-- What every completion does besides its writes (rule R233): back to Idle, DONE set, the code in ERRCODE. The words drawn
stay consumed. -/
def finish (code : ErrCode) (s : State) : State := { s with engine := .idle, done := true, errcode := code }

/-- Success (rule R233): every scheduled write is applied at once and ERRCODE is 0x00. -/
def completeOk (w : Writes) (s : State) : State :=
  finish .ok { s with z := applyZ s.z w.z, lenb := w.lenb.getD s.lenb, result := w.result.getD s.result }

/-- `raise Err(code)` (rule R233): no scheduled write is applied. The engine has no other exception (rule R249). -/
def completeError (code : ErrCode) (s : State) : State := finish code s

/-- Abort (rules R212, R233): a running command ends with ERRCODE = Aborted; while Idle nothing happens. -/
def abort (s : State) : State := if s.busy then finish .aborted s else s

/-- The "return" from a completion (rule R250): the host clears DONE; nothing is restored, because nothing was saved. -/
def clearDone (s : State) : State := { s with done := false }

/-! ### Acceptance -/

/-- Acceptance of the word `w` while Idle (rules R230, R231). -/
def accept (w : Word) (s : State) : State :=
  let s' := { s with cmd := w, done := false, result := false, errcode := .ok, rngCount := 0 }
  match decode w with
  | .ok _ => { s' with engine := .busy { cmd := w, snap := s.snapshot, drawn := [] } }
  | .error _ => finish .illegalCommand s'

/-! ### Engine steps -/

/-- RNG_COUNT + 1, holding at `2^32 - 1` (rule R49). -/
def countUp (n : Word) : Word := if n = 0xFFFFFFFF then n else n + 1

/-- The words available to `RngDraw()` from the source the running command selected at acceptance (rules R47, R48, R215). -/
def available (c : Running) (s : State) : List Word :=
  match c.snap.rngsrc with
  | .fifo => s.fifo
  | .entropy => s.entropy

/-- The state after the oldest word of the selected source is taken (rules R47, R48). -/
def dropOldest (c : Running) (s : State) : State :=
  match c.snap.rngsrc with
  | .fifo => { s with fifo := s.fifo.tail }
  | .entropy => { s with entropy := s.entropy.tail }

/-- The draw step (rule R232): the oldest available word is drawn and counted; with none available the engine waits. -/
def drawStep (c : Running) (s : State) : State :=
  match available c s with
  | [] => s
  | w :: _ =>
    { dropOldest c s with
      engine := .busy { c with drawn := c.drawn ++ [w] }
      rngCount := countUp s.rngCount }

/-- One engine step of the running command (rule R232): a draw step where its rule needs a word, else its commit step. While
Idle the engine does nothing (rule R259). -/
def engineStep (run : CommandRun) (s : State) : Host.Outcome State Fault Refusal :=
  match s.engine with
  | .idle => .next s
  | .busy c =>
    match run s.params c.snap c.drawn with
    | .needWord => .next (drawStep c s)
    | .success w => .next (completeOk w s)
    | .error code => .next (completeError code s)

/-! ### Reset, the random sources and the platform -/

/-- `SoftReset()`, the action of CTRL bit 3 and of the reset input (rules R270 to R272): every piece of the engine's state to
its value of rule R271. The parameters and what lies outside the engine (log 12) are kept. -/
def softReset (s : State) : State :=
  { State.resetOf s.params with
    schedule := s.schedule
    entropy := s.entropy
    entropyCount := s.entropyCount
    platformReads := s.platformReads
    readData := s.readData }

/-- The FIFO emptied (rule R213). -/
def flushFifo (s : State) : State := { s with fifo := [] }

/-- An answer of the entropy source (rule R48, log 3). -/
def entropyAnswer (w : Word) (s : State) : State := { s with entropy := s.entropy ++ [w] }

/-- A read outside the window: "the engine does not respond; the platform decides" (rule R61). Every piece of the engine's state is
kept, and the host gets a free value (log 5). -/
def platformAnswer (bits addr : Nat) (s : State) : State :=
  { s with readData := Config.platformRead s.platformReads bits addr, platformReads := s.platformReads + 1 }

/-- An answer the schedule does not name: a free word (rule R48, log 3). -/
def entropyAnswerFree (s : State) : State :=
  { entropyAnswer (Config.entropyWord s.entropyCount) s with entropyCount := s.entropyCount + 1 }

end Sys2Proof.Machine
end

