-- ==== Sys2Proof/Machine/Control.lean ====
section
/-! DEFINITION. The control commands NOP and ZEROIZE (rules R210, R211). -/

namespace Sys2Proof.Machine

/-- NOP (rule R210): returns at once. -/
def runNop : CommandRun := fun _ _ _ => .success {}

/-- NOP, one engine step. -/
def execNop (s : State) : Host.Outcome State Fault Refusal := engineStep runNop s

/-- ZEROIZE (rule R211): clears Z0 to Z7. -/
def runZeroize : CommandRun := fun _ _ _ => .success { z := (List.finRange 8).map (fun r => (r, 0)) }

/-- ZEROIZE, one engine step. -/
def execZeroize (s : State) : Host.Outcome State Fault Refusal := engineStep runZeroize s

end Sys2Proof.Machine
end

