-- ==== Sys2Proof/Machine/ModArith.lean ====
section
/-! DEFINITION. The Montgomery multiplier and modular exponentiation: MONTMUL, MODMUL, RSQ, MODEXP, GCD, MODINV (rules R110 to R119,
R169, R170). -/

namespace Sys2Proof.Machine

/-! ### Functions -/

/-- `ModValid(N)` (rule R110). -/
def modValid (n : Nat) : Bool := decide (n % 2 = 1) && decide (3 ≤ n)

/-- The extended Euclidean loop on remainders `r0, r1` with coefficients `x0, x1` modulo `m` (rule R170). -/
def inverseLoop (m : Nat) : Nat → Nat → Nat → Nat → Nat → Nat
  | 0, _, x0, _, _ => x0
  | fuel + 1, r0, x0, r1, x1 =>
    if r1 = 0 then x0
    else inverseLoop m fuel r1 x1 (r0 % r1) ((x0 + (m - r0 / r1 * x1 % m)) % m)

/-- `ModInverse(a, m)` for `m ≥ 1`: the unique `x < m` with `a·x ≡ 1 (mod m)`, or `none` when `gcd(a mod m, m) ≠ 1` (rule R170). -/
def modInverse (a m : Nat) : Option Nat :=
  if Nat.gcd (a % m) m = 1 then some (inverseLoop m (m + 1) m 0 (a % m) (1 % m)) else none

/-- The Montgomery product `(a · b · Rinv) mod N` with `R · Rinv mod N = 1` (rule R112). `N` is odd, so `Rinv` exists. -/
def montMul (a b n : Nat) : Nat := a * b * ((modInverse (radix n) n).getD 0) % n

/-- Square and multiply, from the exponent's low end. -/
def powLoop (n : Nat) : Nat → Nat → Nat → Nat → Nat
  | 0, acc, _, _ => acc
  | fuel + 1, acc, b, e =>
    if e = 0 then acc else powLoop n fuel (if e % 2 = 1 then acc * b % n else acc) (b * b % n) (e / 2)

/-- `(b ^ e) mod N` with `b^0 = 1` (rules R9, R116), by a method that can be run; rule R117 leaves the method open. -/
def powMod (b e n : Nat) : Nat := powLoop n (bitlen e) (1 % n) b e

/-! ### The reference datapath (rule R117, informative): stated equal to `montMul`, and used by no command -/

/-- The loop of rule R117 over the 32-bit digits of `a`, lowest first. -/
def ciosLoop (nprime n b : Nat) : Nat → Nat → Nat → Nat
  | 0, _, t => t
  | digits + 1, a, t =>
    let t1 := t + a % 2 ^ 32 * b
    let m := t1 % 2 ^ 32 * nprime % 2 ^ 32
    ciosLoop nprime n b digits (a / 2 ^ 32) ((t1 + m * n) / 2 ^ 32)

/-- `N' = (-(N^-1)) mod 2^32` (rule R117). -/
def nPrime (n : Nat) : Nat := (2 ^ 32 - (modInverse n (2 ^ 32)).getD 0) % 2 ^ 32

/-- MontMul as the reference datapath computes it, final subtraction included (rule R117). -/
def montMulCios (a b n : Nat) : Nat :=
  let t := ciosLoop (nPrime n) n b (nw n) a 0
  if t ≥ n then t - n else t

/-- One step per exponent bit, from the highest of the `bits` lowest down, in Montgomery form (rule R117). -/
def montPowLoop (n bm e : Nat) : Nat → Nat → Nat
  | 0, x => x
  | bits + 1, x =>
    let sq := montMulCios x x n
    montPowLoop n bm e bits (if e.testBit bits then montMulCios sq bm n else sq)

/-- MODEXP's exponentiation as the reference datapath computes it: left to right, in Montgomery form (rule R117). -/
def powModMont (b e n : Nat) : Nat :=
  let r2 := radix n ^ 2 % n
  montMulCios (montPowLoop n (montMulCios b r2 n) e (bitlen e) (montMulCios 1 r2 n)) 1 n

/-- MODMUL as the reference datapath computes it (rule R117). -/
def modMulMont (a b n : Nat) : Nat := montMulCios (montMulCios a b n) (radix n ^ 2 % n) n

/-! ### The commands -/

/-- The checks of rules R110 and R111, then one write of Z[RD]: the modulus first, then each residue in the order RS1, RS2. -/
def withModulus (n : Nat) (residues : List Nat) (rd : ZReg) (value : Nat) : RunResult :=
  if !modValid n then .error .modulusInvalid
  else if residues.any (fun x => decide (x ≥ n)) then .error .blockTooLarge
  else .success { z := [(rd, value)] }

/-- MONTMUL (rule R113). -/
def runMontmul (rd rs1 rs2 rs3 : ZReg) : CommandRun := fun _ c _ =>
  let n := c.read rs3
  let a := c.read rs1
  let b := c.read rs2
  withModulus n [a, b] rd (montMul a b n)

/-- MONTMUL, one engine step. -/
def execMontmul (rd rs1 rs2 rs3 : ZReg) (s : State) : Host.Outcome State Fault Refusal :=
  engineStep (runMontmul rd rs1 rs2 rs3) s

/-- MODMUL (rule R114): the full product is formed, never truncated. -/
def runModmul (rd rs1 rs2 rs3 : ZReg) : CommandRun := fun _ c _ =>
  let n := c.read rs3
  let a := c.read rs1
  let b := c.read rs2
  withModulus n [a, b] rd (a * b % n)

/-- MODMUL, one engine step. -/
def execModmul (rd rs1 rs2 rs3 : ZReg) (s : State) : Host.Outcome State Fault Refusal :=
  engineStep (runModmul rd rs1 rs2 rs3) s

/-- RSQ (rule R115). -/
def runRsq (rd rs3 : ZReg) : CommandRun := fun _ c _ =>
  let n := c.read rs3
  withModulus n [] rd (radix n ^ 2 % n)

/-- RSQ, one engine step. -/
def execRsq (rd rs3 : ZReg) (s : State) : Host.Outcome State Fault Refusal := engineStep (runRsq rd rs3) s

/-- MODEXP (rule R116): only the base is a residue; the exponent is never range-checked. -/
def runModexp (rd rs1 rs2 rs3 : ZReg) : CommandRun := fun _ c _ =>
  let n := c.read rs3
  let b := c.read rs1
  let e := c.read rs2
  withModulus n [b] rd (powMod b e n)

/-- MODEXP, one engine step. -/
def execModexp (rd rs1 rs2 rs3 : ZReg) (s : State) : Host.Outcome State Fault Refusal :=
  engineStep (runModexp rd rs1 rs2 rs3) s

/-- GCD (rule R169), with `gcd(a, 0) = a` and `gcd(0, 0) = 0`. -/
def runGcd (rd rs1 rs2 : ZReg) : CommandRun := fun _ c _ =>
  .success { z := [(rd, Nat.gcd (c.read rs1) (c.read rs2))] }

/-- GCD, one engine step. -/
def execGcd (rd rs1 rs2 : ZReg) (s : State) : Host.Outcome State Fault Refusal := engineStep (runGcd rd rs1 rs2) s

/-- MODINV (rule R170). -/
def runModinv (rd rs1 rs3 : ZReg) : CommandRun := fun _ c _ =>
  let a := c.read rs1
  let m := c.read rs3
  if m = 0 then .error .modulusInvalid
  else
    match modInverse a m with
    | none => .error .noInverse
    | some x => .success { z := [(rd, x)] }

/-- MODINV, one engine step. -/
def execModinv (rd rs1 rs3 : ZReg) (s : State) : Host.Outcome State Fault Refusal := engineStep (runModinv rd rs1 rs3) s

end Sys2Proof.Machine
end

