-- ==== Sys2Proof/Machine/Primality.lean ====
section
/-! DEFINITION. The Miller-Rabin witness tester: ISPRIME (rules R140 to R149). -/

namespace Sys2Proof.Machine

/-- The small-prime table: the 25 primes below 100 (rule R140). -/
def smallPrimes : List Nat :=
  [2, 3, 5, 7, 11, 13, 17, 19, 23, 29, 31, 37, 41, 43, 47, 53, 59, 61, 67, 71, 73, 79, 83, 89, 97]

/-- The number of factors 2 of `m`, and `m` without them, within `fuel` factors. -/
def splitTwos : Nat → Nat → Nat × Nat
  | 0, m => (0, m)
  | fuel + 1, m =>
    if m % 2 = 0 then
      let r := splitTwos fuel (m / 2)
      (r.1 + 1, r.2)
    else (0, m)

/-- `Decompose(n)`: the `(t, s)` with `n - 1 = 2^t · s` and `s` odd (rule R142). -/
def decompose (n : Nat) : Nat × Nat := splitTwos (bitlen n) (n - 1)

/-- Whether one of `v, v^2, v^4, …` (`squarings` of them, the first unsquared) is `n - 1` (rule R144). -/
def reachesMinusOne (n : Nat) : Nat → Nat → Bool
  | 0, _ => false
  | squarings + 1, v => if v = n - 1 then true else reachesMinusOne n squarings (v ^ 2 % n)

/-- One round, `WitnessPasses(n, a, t, s)` (rule R144). -/
def witnessPasses (n a t s : Nat) : Bool :=
  let v := powMod a s n
  if v = 1 then true else reachesMinusOne n t v

/-- The acceptance test of a base, `2 ≤ x ≤ n - 2` (rules R141, R143). -/
def baseInRange (n x : Nat) : Bool := decide (2 ≤ x) && decide (x ≤ n - 2)

/-- Step 4 of `IsPrime`: the rounds still to run (rules R141, R145). -/
def witnessRounds (n t s : Nat) : Nat → List Word → Option (Bool × List Word)
  | 0, ws => some (true, ws)
  | rounds + 1, ws =>
    match drawUntil (bitlen n) (baseInRange n) ws with
    | none => none
    | some (a, rest) => if witnessPasses n a t s then witnessRounds n t s rounds rest else some (false, rest)

/-- `IsPrime(n, rounds)` on the words drawn (rule R141). -/
def isPrime (n rounds : Nat) (ws : List Word) : Option (Bool × List Word) :=
  if n < 2 then some (false, ws)
  else if smallPrimes.contains n then some (true, ws)
  else if smallPrimes.any (fun p => decide (n % p = 0)) then some (false, ws)
  else witnessRounds n (decompose n).1 (decompose n).2 rounds ws

/-- ISPRIME (rule R146): only STATUS.RESULT is written. -/
def runIsprime (rs1 : ZReg) : CommandRun := fun _ c ws =>
  match isPrime (c.read rs1) c.mrRounds.toNat ws with
  | none => .needWord
  | some (r, _) => .success { result := some r }

/-- ISPRIME, one engine step. -/
def execIsprime (rs1 : ZReg) (s : State) : Host.Outcome State Fault Refusal := engineStep (runIsprime rs1) s

end Sys2Proof.Machine
end

