-- ==== Sys2Proof/Machine/KeyGen.lean ====
section
/-! DEFINITION. The key-pair generator: KEYGEN (rules R160 to R172). -/

namespace Sys2Proof.Machine

/-- `Candidate(KS)`: `RandBits(KS) OR 2^(KS-1) OR 1` (rule R161). -/
def candidate (ks : Nat) (ws : List Word) : Option (Nat × List Word) :=
  match randBits ks ws with
  | none => none
  | some (x, rest) => some (x ||| 2 ^ (ks - 1) ||| 1, rest)

/-- `DrawPrime` with room for `fuel` candidates. -/
def drawPrimeFuel (ks rounds : Nat) : Nat → List Word → Option (Nat × List Word)
  | 0, _ => none
  | fuel + 1, ws =>
    match candidate ks ws with
    | none => none
    | some (x, rest) =>
      match isPrime x rounds rest with
      | none => none
      | some (true, rest') => some (x, rest')
      | some (false, rest') => drawPrimeFuel ks rounds fuel rest'

/-- `DrawPrime(KS, rounds)`, unbounded (rule R162): each candidate takes at least one word, so the fuel bounds nothing (log 14). -/
def drawPrime (ks rounds : Nat) (ws : List Word) : Option (Nat × List Word) :=
  drawPrimeFuel ks rounds (ws.length + 1) ws

/-- The loop for `q` with room for `fuel` primes. -/
def drawOtherPrimeFuel (ks rounds p : Nat) : Nat → List Word → Option (Nat × List Word)
  | 0, _ => none
  | fuel + 1, ws =>
    match drawPrime ks rounds ws with
    | none => none
    | some (q, rest) => if q ≠ p then some (q, rest) else drawOtherPrimeFuel ks rounds p fuel rest

/-- The second prime: redrawn while it equals `p`, which is kept; its primality is tested before the comparison (rule R163,
conflict C5). -/
def drawOtherPrime (ks rounds p : Nat) (ws : List Word) : Option (Nat × List Word) :=
  drawOtherPrimeFuel ks rounds p (ws.length + 1) ws

/-- The acceptance test of the public exponent: `2 ≤ x ≤ φ - 1` and `gcd(x, φ) = 1` (rule R165). -/
def exponentOk (phi x : Nat) : Bool := decide (2 ≤ x) && decide (x ≤ phi - 1) && decide (Nat.gcd x phi = 1)

/-- KEYGEN's last steps, from `p`, `q` and `e`: the defensive check, `d`, and the six writes (rules R164, R166, R167). -/
def keyPair (p q e : Nat) : RunResult :=
  let n := p * q
  let phi := (p - 1) * (q - 1)
  if Nat.gcd e phi ≠ 1 then .error .keyGenError
  else
    match modInverse e phi with
    | none => .error .keyGenError
    | some d => .success { z := [(0, n), (1, e), (2, d), (3, p), (4, q), (5, phi)] }

/-- KEYGEN (rule R168). -/
def runKeygen : CommandRun := fun params c ws =>
  let ks := c.keysize.toNat
  let rounds := c.mrRounds.toNat
  if !ksLegal params ks then .error .configError
  else
    match drawPrime ks rounds ws with
    | none => .needWord
    | some (p, ws1) =>
      match drawOtherPrime ks rounds p ws1 with
      | none => .needWord
      | some (q, ws2) =>
        let phi := (p - 1) * (q - 1)
        match drawUntil (bitlen phi) (exponentOk phi) ws2 with
        | none => .needWord
        | some (e, _) => keyPair p q e

/-- KEYGEN, one engine step. -/
def execKeygen (s : State) : Host.Outcome State Fault Refusal := engineStep runKeygen s

end Sys2Proof.Machine
end

