-- ==== Sys2Proof/Machine/Sha1.lean ====
section
/-! DEFINITION. The fixed hash `H`: SHA-1 (rule R180, decision D15). PRESUMED (log 7): the spec names FIPS 180-4 and gives two
check values; the algorithm below is general knowledge. -/

namespace Sys2Proof.Machine

/-- The five chaining words. -/
structure Sha1State where
  a : Word
  b : Word
  c : Word
  d : Word
  e : Word
deriving DecidableEq, Repr

/-- The initial chaining words. -/
def sha1Init : Sha1State := ⟨0x67452301, 0xEFCDAB89, 0x98BADCFE, 0x10325476, 0xC3D2E1F0⟩

/-- The round function of round `t`, and its constant. -/
def sha1Mix (t : Nat) (b c d : Word) : Word × Word :=
  if t < 20 then ((b &&& c) ||| (~~~b &&& d), 0x5A827999)
  else if t < 40 then (b ^^^ c ^^^ d, 0x6ED9EBA1)
  else if t < 60 then ((b &&& c) ||| (b &&& d) ||| (c &&& d), 0x8F1BBCDC)
  else (b ^^^ c ^^^ d, 0xCA62C1D6)

/-- One round with the schedule word `w`. -/
def sha1Round (t : Nat) (v : Sha1State) (w : Word) : Sha1State :=
  let m := sha1Mix t v.b v.c v.d
  { a := v.a.rotateLeft 5 + m.1 + v.e + m.2 + w, b := v.a, c := v.b.rotateLeft 30, d := v.c, e := v.d }

/-- The rounds from `t` on, one schedule word each. -/
def sha1Rounds : Nat → List Word → Sha1State → Sha1State
  | _, [], v => v
  | t, w :: ws, v => sha1Rounds (t + 1) ws (sha1Round t v w)

/-- The message schedule, newest word first, extended by `k` words. -/
def sha1Extend : Nat → List Word → List Word
  | 0, ws => ws
  | k + 1, ws =>
    sha1Extend k ((ws.getD 2 0 ^^^ ws.getD 7 0 ^^^ ws.getD 13 0 ^^^ ws.getD 15 0).rotateLeft 1 :: ws)

/-- One 16-word block. -/
def sha1Block (v : Sha1State) (block : List Word) : Sha1State :=
  let r := sha1Rounds 0 (sha1Extend 64 block.reverse).reverse v
  { a := v.a + r.a, b := v.b + r.b, c := v.c + r.c, d := v.d + r.d, e := v.e + r.e }

/-- The big-endian words of a byte string. -/
def sha1Words : List Byte → List Word
  | b0 :: b1 :: b2 :: b3 :: rest => (b0 ++ b1 ++ b2 ++ b3) :: sha1Words rest
  | _ => []

/-- `k` blocks in turn. -/
def sha1Blocks : Nat → List Word → Sha1State → Sha1State
  | 0, _, v => v
  | k + 1, ws, v => sha1Blocks k (ws.drop 16) (sha1Block v (ws.take 16))

/-- The big-endian bytes of a word. -/
def sha1Bytes (w : Word) : List Byte :=
  [w.extractLsb' 24 8, w.extractLsb' 16 8, w.extractLsb' 8 8, w.extractLsb' 0 8]

/-- The message with its padding: a one bit, zeros to 56 bytes modulo 64, the length in bits as 8 bytes. -/
def sha1Padded (s : List Byte) : List Byte :=
  let bits : BitVec 64 := BitVec.ofNat 64 (8 * s.length)
  s ++ [0x80] ++ List.replicate ((119 - s.length % 64) % 64) 0
    ++ sha1Bytes (bits.extractLsb' 32 32) ++ sha1Bytes (bits.extractLsb' 0 32)

/-- `H(s)`: the 20-byte hash of a byte string of any length (rules R12, R180). -/
def sha1 (s : List Byte) : List Byte :=
  let padded := sha1Padded s
  let v := sha1Blocks (padded.length / 64) (sha1Words padded) sha1Init
  sha1Bytes v.a ++ sha1Bytes v.b ++ sha1Bytes v.c ++ sha1Bytes v.d ++ sha1Bytes v.e

/-- `lHash = H("")`: the label is always empty (rule R181). -/
def lHash : List Byte := sha1 []

end Sys2Proof.Machine
end

