-- ==== Sys2Proof/Machine/Oaep.lean ====
section
/-! DEFINITION. The XOR datapath, MGF1 and the OAEP codec: XOR, MGF1, OAEP_ENC, OAEP_DEC (rules R181 to R192). -/

namespace Sys2Proof.Machine

/-! ### XOR -/

/-- XOR (rule R184): all `32·MAXW` bits. -/
def runXor (rd rs1 rs2 : ZReg) : CommandRun := fun _ c _ =>
  .success { z := [(rd, c.read rs1 ^^^ c.read rs2)] }

/-- XOR, one engine step. -/
def execXor (rd rs1 rs2 : ZReg) (s : State) : Host.Outcome State Fault Refusal := engineStep (runXor rd rs1 rs2) s

/-! ### MGF1 -/

/-- `MGF1(seed, L)` (rule R182): the loop appends one hash for each counter `0, 1, 2, …` until at least `L` bytes stand, so it
runs `ceil(L / HLEN)` times; then the first `L` bytes. -/
def mgf1 (seed : List Byte) (len : Nat) : List Byte :=
  ((List.range ((len + hLen - 1) / hLen)).flatMap (fun c => sha1 (seed ++ be32 c))).take len

/-- MGF1 (rule R183). -/
def runMgf1 (rd rs1 : ZReg) : CommandRun := fun params c _ =>
  let sl := c.lena.toNat
  let ml := c.lenb.toNat
  if sl > cap params then .error .encodingError
  else if ml > cap params then .error .encodingError
  else
    match i2osp (c.read rs1) sl with
    | none => .error .encodingError
    | some seed => .success { z := [(rd, os2ip (mgf1 seed ml))] }

/-- MGF1, one engine step. -/
def execMgf1 (rd rs1 : ZReg) (s : State) : Host.Outcome State Fault Refusal := engineStep (runMgf1 rd rs1) s

/-! ### OAEP encoding -/

/-- `OaepEncode(M, k, seed)` for `len(M) ≤ k - 2·HLEN - 2` (rule R185). -/
def oaepEncode (msg : List Byte) (k : Nat) (seed : List Byte) : List Byte :=
  let ps := List.replicate (k - msg.length - 2 * hLen - 2) (0x00 : Byte)
  let db := lHash ++ ps ++ [0x01] ++ msg
  let maskedDb := xorBytes db (mgf1 seed (k - hLen - 1))
  let maskedSeed := xorBytes seed (mgf1 maskedDb hLen)
  [0x00] ++ maskedSeed ++ maskedDb

/-- The seed from five drawn words, the first word first and most significant byte first (rule R186); `none` while fewer are drawn. -/
def oaepSeed : List Word → Option (List Byte)
  | w0 :: w1 :: w2 :: w3 :: w4 :: _ =>
    some (be32 w0.toNat ++ be32 w1.toNat ++ be32 w2.toNat ++ be32 w3.toNat ++ be32 w4.toNat)
  | _ => none

/-- OAEP_ENC (rule R187). The bound `mLen > k - 2·HLEN - 2` is compared as signed integers. -/
def runOaepEnc (rd rs1 : ZReg) : CommandRun := fun params c ws =>
  let ks := c.keysize.toNat
  let mLen := c.lena.toNat
  if !ksLegal params ks then .error .configError
  else
    let k := modulusBytes ks
    if (mLen : Int) > (k : Int) - 2 * hLen - 2 then .error .messageTooLong
    else
      match i2osp (c.read rs1) mLen with
      | none => .error .encodingError
      | some msg =>
        match oaepSeed ws with
        | none => .needWord
        | some seed => .success { z := [(rd, os2ip (oaepEncode msg k seed))] }

/-- OAEP_ENC, one engine step. -/
def execOaepEnc (rd rs1 : ZReg) (s : State) : Host.Outcome State Fault Refusal := engineStep (runOaepEnc rd rs1) s

/-! ### OAEP decoding -/

/-- Steps 4 and 5 on the data block after its label hash: past the zero bytes, the 0x01 separator, then the message; no
separator or another byte before it is PaddingError (rule R188). -/
def afterSeparator : List Byte → Except ErrCode (List Byte)
  | [] => .error .paddingError
  | b :: rest =>
    if b = 0x00 then afterSeparator rest
    else if b = 0x01 then .ok rest
    else .error .paddingError

/-- `OaepDecode(EM, k)` for a block of `k ≥ 2·HLEN + 2` bytes (rule R188): the label hash is compared before anything else. -/
def oaepDecode (em : List Byte) (k : Nat) : Except ErrCode (List Byte) :=
  let y := em.take 1
  let maskedSeed := (em.drop 1).take hLen
  let maskedDb := em.drop (1 + hLen)
  let seed := xorBytes maskedSeed (mgf1 maskedDb hLen)
  let db := xorBytes maskedDb (mgf1 seed (k - hLen - 1))
  if db.take hLen ≠ lHash then .error .integrityError
  else if y ≠ [0x00] then .error .paddingError
  else afterSeparator (db.drop hLen)

/-- OAEP_DEC (rule R189). -/
def runOaepDec (rd rs1 : ZReg) : CommandRun := fun params c _ =>
  let ks := c.keysize.toNat
  if !ksLegal params ks then .error .configError
  else
    let k := modulusBytes ks
    if k < 2 * hLen + 2 then .error .configError
    else
      match i2osp (c.read rs1) k with
      | none => .error .encodingError
      | some em =>
        match oaepDecode em k with
        | .error code => .error code
        | .ok msg => .success { z := [(rd, os2ip msg)], lenb := some (BitVec.ofNat 16 msg.length) }

/-- OAEP_DEC, one engine step. -/
def execOaepDec (rd rs1 : ZReg) (s : State) : Host.Outcome State Fault Refusal := engineStep (runOaepDec rd rs1) s

end Sys2Proof.Machine
end

