-- ==== Sys2Proof/Machine/Dispatch.lean ====
section
/-! DEFINITION. One arm per command: one engine step (rule R232) of the command that is running. -/

namespace Sys2Proof.Machine

def exec (i : Instr) (s : State) : Host.Outcome State Fault Refusal :=
  match i with
  -- 44_control.md
  | .nop => Sys2Proof.Machine.execNop s
  | .zeroize => Sys2Proof.Machine.execZeroize s
  -- 40_modarith.md
  | .montmul rd rs1 rs2 rs3 => Sys2Proof.Machine.execMontmul rd rs1 rs2 rs3 s
  | .modmul rd rs1 rs2 rs3 => Sys2Proof.Machine.execModmul rd rs1 rs2 rs3 s
  | .rsq rd rs3 => Sys2Proof.Machine.execRsq rd rs3 s
  | .modexp rd rs1 rs2 rs3 => Sys2Proof.Machine.execModexp rd rs1 rs2 rs3 s
  -- 42_keygen.md and 41_primality.md
  | .gcd rd rs1 rs2 => Sys2Proof.Machine.execGcd rd rs1 rs2 s
  | .modinv rd rs1 rs3 => Sys2Proof.Machine.execModinv rd rs1 rs3 s
  | .isprime rs1 => Sys2Proof.Machine.execIsprime rs1 s
  | .keygen => Sys2Proof.Machine.execKeygen s
  -- 43_oaep.md
  | .xor rd rs1 rs2 => Sys2Proof.Machine.execXor rd rs1 rs2 s
  | .mgf1 rd rs1 => Sys2Proof.Machine.execMgf1 rd rs1 s
  | .oaepEnc rd rs1 => Sys2Proof.Machine.execOaepEnc rd rs1 s
  | .oaepDec rd rs1 => Sys2Proof.Machine.execOaepDec rd rs1 s

end Sys2Proof.Machine
end

