-- ==== Sys2Proof/Machine/Run.lean ====
section
/-! DEFINITION. `Run(cmd, snap, drawn)` (rule R232): each command's rule, as the function STATUS.RNGWAIT is read from. -/

namespace Sys2Proof.Machine

/-- The rule of each command (rule R232). The meaning exec calls is one engine step of the same function. -/
def runCommand : Instr → CommandRun
  | .nop => runNop
  | .zeroize => runZeroize
  | .montmul rd rs1 rs2 rs3 => runMontmul rd rs1 rs2 rs3
  | .modmul rd rs1 rs2 rs3 => runModmul rd rs1 rs2 rs3
  | .rsq rd rs3 => runRsq rd rs3
  | .modexp rd rs1 rs2 rs3 => runModexp rd rs1 rs2 rs3
  | .gcd rd rs1 rs2 => runGcd rd rs1 rs2
  | .modinv rd rs1 rs3 => runModinv rd rs1 rs3
  | .isprime rs1 => runIsprime rs1
  | .keygen => runKeygen
  | .xor rd rs1 rs2 => runXor rd rs1 rs2
  | .mgf1 rd rs1 => runMgf1 rd rs1
  | .oaepEnc rd rs1 => runOaepEnc rd rs1
  | .oaepDec rd rs1 => runOaepDec rd rs1

end Sys2Proof.Machine
end

