-- ==== Sys2Proof/Machine/Flags.lean ====
section
/-! DEFINITION. The words the control and status registers read as (rules R25 to R50), every flag's rule, and the IRQ output. -/

namespace Sys2Proof.Machine

/-- The number of a completion code (rule R234). -/
def ErrCode.toByte : ErrCode → Byte
  | .ok => 0x00
  | .encodingError => 0x01
  | .keyGenError => 0x02
  | .messageTooLong => 0x03
  | .blockTooLarge => 0x04
  | .integrityError => 0x05
  | .paddingError => 0x06
  | .keyRecordParseError => 0x07
  | .noInverse => 0x08
  | .illegalCommand => 0x09
  | .configError => 0x0A
  | .modulusInvalid => 0x0B
  | .aborted => 0x0C

/-- A flag as a bit of a word. -/
def flagBit (b : Bool) (at_ : Nat) : Word := (if b then 1 else 0) <<< at_

/-- The answer of `Run` for the command word that runs (rule R232); an undecodable word, which no run reaches, needs none (log 11). -/
def runningNeedsWord (p : Params) (c : Running) : Bool :=
  match decode c.cmd with
  | .ok i => decide (runCommand i p c.snap c.drawn = .needWord)
  | .error _ => false

/-- STATUS.RNGWAIT (rule R43): the engine is inside a `RngDraw()` that has not yet obtained its word (log 8). -/
def rngWait (s : State) : Bool :=
  match s.engine with
  | .idle => false
  | .busy c => runningNeedsWord s.params c && (available c s).isEmpty

/-- STATUS (rule R38). -/
def statusWord (s : State) : Word :=
  flagBit s.busy 0 ||| flagBit s.done 1 ||| flagBit s.result 2 ||| flagBit s.overrun 3 ||| flagBit (rngWait s) 4
    ||| flagBit s.rngovf 5 ||| flagBit s.accerr 6 ||| (s.errcode.toByte.setWidth 32 <<< 8)

/-- IRQ = CTRL.IE AND STATUS.DONE at every moment (rules R50, R252). -/
def irq (s : State) : Bool := s.ie && s.done

/-- CTRL as read: IE in bit 0, RNGSRC in bit 1, 0 elsewhere (rule R29). -/
def ctrlWord (s : State) : Word := flagBit s.ie 0 ||| flagBit (decide (s.rngsrc = .fifo)) 1

/-- ID (rule R26): the ASCII bytes "MMRE". -/
def idWord : Word := 0x4D4D5245

/-- VERSION (rule R27): 1.0. -/
def versionWord : Word := 0x00010000

/-- PARAM (rule R28): MAXW, HLEN, FIFO_DEPTH and NZ, a byte each. -/
def paramWord (p : Params) : Word :=
  (8 : Byte) ++ BitVec.ofNat 8 p.fifoDepth ++ BitVec.ofNat 8 hLen ++ BitVec.ofNat 8 p.maxw

/-- RNG_LEVEL (rule R47): the number of words held, in bits [7:0]. -/
def rngLevelWord (s : State) : Word := BitVec.ofNat 32 (s.fifo.length % 256)

/-- The W1C write of STATUS (rule R38): each of DONE, OVERRUN, RNGOVF and ACCERR written as 1 is cleared, nothing else changes. -/
def writeStatus (v : Word) (s : State) : State :=
  let s' := if v.getLsbD 1 then clearDone s else s
  { s' with
    overrun := s'.overrun && !v.getLsbD 3
    rngovf := s'.rngovf && !v.getLsbD 5
    accerr := s'.accerr && !v.getLsbD 6 }

/-- STATUS.ACCERR set by an access the engine refuses (rule R45). -/
def refuseAccess (s : State) : State := { s with accerr := true }

end Sys2Proof.Machine
end

