-- ==== Sys2Proof/Machine/Window.lean ====
section
/-! DEFINITION. The register window: what a host access does (rules R60 to R70, R214). -/

namespace Sys2Proof.Machine

/-! ### Offsets -/

/-- The offset of a byte address in the window, if it is in it: `BASE ≤ addr < BASE + 0x1800` (rule R60). -/
def windowOffset (p : Params) (addr : Nat) : Option Nat :=
  if p.base ≤ addr ∧ addr < p.base + 0x1800 then some (addr - p.base) else none

/-- The one access the window defines: 32 bits at a multiple of 4 (rule R64). -/
def definedAccess (bits off : Nat) : Bool := decide (bits = 32) && decide (off % 4 = 0)

/-- Big register `i` of the offset `0x1000 + 0x100·i + 4·j` (rules R61, R63). -/
def offsetReg (off : Nat) : ZReg := ⟨(off - 0x1000) / 0x100 % 8, Nat.mod_lt _ (by decide)⟩

/-- Word `j` of the offset `0x1000 + 0x100·i + 4·j` (rules R61, R63). -/
def offsetWord (off : Nat) : Nat := off % 0x100 / 4

/-! ### Reads -/

/-- What a control or status register reads as, and 0 at a reserved offset (rules R25, R62). -/
def readCsr (off : Nat) (s : State) : Word :=
  match off with
  | 0x000 => idWord
  | 0x004 => versionWord
  | 0x008 => paramWord s.params
  | 0x010 => ctrlWord s
  | 0x014 => s.cmd
  | 0x018 => statusWord s
  | 0x01C => s.mrRounds.setWidth 32
  | 0x020 => s.keysize.setWidth 32
  | 0x024 => s.lena.setWidth 32
  | 0x028 => s.lenb.setWidth 32
  | 0x02C => 0
  | 0x030 => rngLevelWord s
  | 0x034 => s.rngCount
  | _ => 0

/-- Word `j` of a big register while Idle: 0 for `j ≥ MAXW` (rule R63). -/
def readZ (r : ZReg) (j : Nat) (s : State) : Word := if j < s.params.maxw then wordOf s.z[r] j else 0

/-- A defined read: the value it returns and the state after it (rules R69, R70). -/
def readWindow (off : Nat) (s : State) : Word × State :=
  if off < 0x1000 then (readCsr off s, s)
  else if s.busy then (0, refuseAccess s)
  else (readZ (offsetReg off) (offsetWord off) s, s)

/-! ### Writes -/

/-- A write that is refused while a command runs (rule R70). -/
def unlessBusy (write : State → State) (s : State) : State := if s.busy then refuseAccess s else write s

/-- RNGSRC of a written CTRL word (rule R29). -/
def rngSourceOf (v : Word) : RngSource := if v.getLsbD 1 then .fifo else .entropy

/-- A write of CTRL, in the order of rule R214. So a write with ABORT and another RNGSRC, refused in part while busy, does more when it
is repeated, against R69's sentence that repeating such a write is idempotent: DEDUCED (log 19), R214 is followed. -/
def writeCtrl (v : Word) (s : State) : State :=
  if v.getLsbD 3 then softReset s
  else
    let s1 := { s with ie := v.getLsbD 0 }
    let s2 :=
      if !s1.busy then { s1 with rngsrc := rngSourceOf v }
      else if rngSourceOf v ≠ s1.rngsrc then refuseAccess s1
      else s1
    let s3 := if v.getLsbD 4 then flushFifo s2 else s2
    if v.getLsbD 2 then abort s3 else s3

/-- A write of CMD (rules R37, R42, R230, R231): acceptance while Idle, dropped with OVERRUN while busy. -/
def writeCmd (v : Word) (s : State) : State := if s.busy then { s with overrun := true } else accept v s

/-- A write of MR_ROUNDS stores `max(data[7:0], 5)` (rule R34). -/
def writeMrRounds (v : Word) (s : State) : State :=
  let r : BitVec 8 := v.setWidth 8
  { s with mrRounds := if r < 5 then 5 else r }

/-- A write of RNG_DATA (rules R44, R47): appended if there is room, else dropped with RNGOVF; also while a command runs. -/
def writeRngData (v : Word) (s : State) : State :=
  if s.fifo.length < s.params.fifoDepth then { s with fifo := s.fifo ++ [v] } else { s with rngovf := true }

/-- A write of word `j` of a big register: ignored for `j ≥ MAXW` (rule R63). -/
def writeZ (r : ZReg) (j : Nat) (v : Word) (s : State) : State :=
  if j < s.params.maxw then { s with z := s.z.set r (setWord s.z[r] j v) } else s

/-- A write of a control or status register; read-only registers and reserved offsets ignore it (rules R25, R62). -/
def writeCsr (off : Nat) (v : Word) (s : State) : State :=
  match off with
  | 0x010 => writeCtrl v s
  | 0x014 => writeCmd v s
  | 0x018 => writeStatus v s
  | 0x01C => unlessBusy (writeMrRounds v) s
  | 0x020 => unlessBusy (fun s => { s with keysize := v.setWidth 16 }) s
  | 0x024 => unlessBusy (fun s => { s with lena := v.setWidth 16 }) s
  | 0x028 => unlessBusy (fun s => { s with lenb := v.setWidth 16 }) s
  | 0x02C => writeRngData v s
  | _ => s

/-- A defined write (rules R63, R70). -/
def writeWindow (off : Nat) (v : Word) (s : State) : State :=
  if off < 0x1000 then writeCsr off v s
  else unlessBusy (writeZ (offsetReg off) (offsetWord off) v) s

/-! ### One host access -/

/-- One host access (rules R64, R72): complete before the next one is considered. An access that is not an aligned 32-bit
access has no effect on any register, reads 0 and sets ACCERR. Outside the window the engine does not
respond and keeps its state, and what a read gets is the platform's (rule R61, log 5). -/
def hostAccess (a : Access) (s : State) : Host.Outcome State Fault Refusal :=
  match a with
  | .read bits addr =>
    match windowOffset s.params addr with
    | none => .next (platformAnswer bits addr s)
    | some off =>
      let r := if definedAccess bits off then readWindow off s else (0, refuseAccess s)
      .next { r.2 with readData := some r.1 }
  | .write bits addr v =>
    match windowOffset s.params addr with
    | none => .next s
    | some off => .next (if definedAccess bits off then writeWindow off v s else refuseAccess s)

end Sys2Proof.Machine
end

