-- ==== Sys2Proof/Machine/Step.lean ====
section
/-! DEFINITION. One step of the machine: the next event of the schedule (rule R72), or with none left the engine's own turn. -/

namespace Sys2Proof.Machine

/-- The engine's turn: one step of the running command (rule R232); while Idle nothing (rule R259). The command word is read
from the engine's command state (rule R54). A word that does not decode, which acceptance never lets run, completes as
IllegalCommand (rule R231, log 11). -/
def engineTurn (s : State) : Host.Outcome State Fault Refusal :=
  match s.engine with
  | .idle => .next s
  | .busy c =>
    match decode c.cmd with
    | .ok i => exec i s
    | .error _ => .next (completeError .illegalCommand s)

/-- Whether the engine waits for the entropy source to answer (rule R48). -/
def waitsForEntropy (s : State) : Bool :=
  match s.engine with
  | .idle => false
  | .busy c => rngWait s && decide (c.snap.rngsrc = .entropy)

/-- One step (rule R72, log 2). With no event left, an engine step that is enabled is taken, and an entropy request is answered
(weak fairness, rule R232, decision D30). -/
def step (s : State) : Host.Outcome State Fault Refusal :=
  match s.schedule with
  | [] => if waitsForEntropy s then .next (entropyAnswerFree s) else engineTurn s
  | e :: rest =>
    let s' := { s with schedule := rest }
    match e with
    | .host a => hostAccess a s'
    | .engine => engineTurn s'
    | .entropy w => .next (entropyAnswer w s')
    | .resetInput => .next (softReset s')

/-- `s` with the command word just accepted (rules R230, R231) and the engine's turn next, so that the next step runs it. It
stands for the host's CMD write (log 16): the engine fetches nothing (rule R24). -/
def State.withFetchWord (s : State) (nbits w : Nat) : State :=
  accept (BitVec.ofNat 32 (w % 2 ^ nbits)) { s with engine := .idle, schedule := .engine :: s.schedule }

end Sys2Proof.Machine
end

