-- ==== Sys2Proof/Safety.lean ====
section
/-! DEFINITION. What a good state is, in the terms the statements use: the invariant of the engine, and the addresses
the window answers. -/

namespace Sys2Proof.Machine

/-- What holds of the command that runs (rules R30 to R54 while STATUS.BUSY = 1). -/
structure RunningOk (s : State) (c : Running) : Prop where
  /-- CMD holds the running command's word (rule R37), -/
  cmd : c.cmd = s.cmd
  /-- which passed decoding (rule R39). -/
  decodes : ∃ i, decode c.cmd = .ok i
  /-- "`snap` always equals the live values" (rule R54). -/
  snap : c.snap = s.snapshot
  /-- RNG_COUNT counts the words drawn, holding at its top (rule R49). -/
  count : s.rngCount.toNat = min c.drawn.length (2 ^ 32 - 1)
  /-- Every word drawn was called for (rule R232). -/
  calledFor : ∀ i, decode c.cmd = .ok i →
    ∀ k, k < c.drawn.length → runCommand i s.params c.snap (c.drawn.take k) = .needWord
  /-- DONE was cleared at acceptance (rule R40), -/
  done : s.done = false
  /-- and RESULT (rule R41), -/
  result : s.result = false
  /-- and ERRCODE reads 0x00 (rule R46). -/
  errcode : s.errcode = .ok

/-- The invariant of the machine. -/
structure Inv (s : State) : Prop where
  /-- The parameters are legal (rule R6). -/
  params : s.params.wf = true
  /-- Every big register holds at most `32·MAXW` bits (rule R21). -/
  z : ∀ r : ZReg, s.z[r] < 2 ^ (32 * s.params.maxw)
  /-- Legal values of MR_ROUNDS are 5 to 255 (rule R34). -/
  rounds : 5 ≤ s.mrRounds.toNat
  /-- The FIFO holds at most FIFO_DEPTH words (rule R47). -/
  fifo : s.fifo.length ≤ s.params.fifoDepth
  /-- KeyGenError cannot occur (rule R236). -/
  noKeyGenError : s.errcode ≠ .keyGenError
  /-- KeyRecordParseError is never raised (rule R241). -/
  noKeyRecordParseError : s.errcode ≠ .keyRecordParseError
  /-- While a command runs, its state is consistent. -/
  running : ∀ c, s.engine = .busy c → RunningOk s c

/-- The address lies in the register window (rules R60, R61). -/
def inWindow (p : Params) (addr : Nat) : Prop := p.base ≤ addr ∧ addr < p.base + 0x1800

end Sys2Proof.Machine
end

