-- ==== Sys2Proof/Certificates/Slice0/Obligations.lean ====
section
/-! DEFINITION. The statements about the model, from the numbered rules of spec/. -/

namespace Sys2Proof.Certificates

open Sys2Proof.Machine

/-! ### Words the statements use -/

/-- A host read of 32 bits at an offset of the window (rules R60, R64). -/
def hostRead (s : State) (off : Nat) : Host.Outcome State Fault Refusal := hostAccess (.read 32 (s.params.base + off)) s

/-- A host write of 32 bits at an offset of the window (rules R60, R64). -/
def hostWrite (s : State) (off : Nat) (v : Word) : Host.Outcome State Fault Refusal :=
  hostAccess (.write 32 (s.params.base + off) v) s

/-- The state after a success that leaves the big registers at `z` and writes nothing else (rule R233). -/
def succeeded (s : State) (z : Vector Nat 8) : State := { s with z := z, engine := .idle, done := true, errcode := .ok }

/-- The state after an error (rule R233): nothing but the completion record changes. -/
def failed (s : State) (code : ErrCode) : State := { s with engine := .idle, done := true, errcode := code }

/-- The big registers a command may write (the table of rule R22). -/
def destinations : Instr → List ZReg
  | .nop => []
  | .zeroize => [0, 1, 2, 3, 4, 5, 6, 7]
  | .montmul rd _ _ _ => [rd]
  | .modmul rd _ _ _ => [rd]
  | .rsq rd _ => [rd]
  | .modexp rd _ _ _ => [rd]
  | .gcd rd _ _ => [rd]
  | .modinv rd _ _ => [rd]
  | .isprime _ => []
  | .keygen => [0, 1, 2, 3, 4, 5]
  | .xor rd _ _ => [rd]
  | .mgf1 rd _ => [rd]
  | .oaepEnc rd _ => [rd]
  | .oaepDec rd _ => [rd]

/-- The commands that draw random words (rules R146, R168, R187). -/
def drawsWords : Instr → Bool
  | .isprime _ => true
  | .keygen => true
  | .oaepEnc _ _ => true
  | _ => false

/-- `KSLegal(KS)` (rule R51). -/
def legalKeySize (p : Params) (ks : Nat) : Prop := ks % 4 = 0 ∧ 4 ≤ ks ∧ ks ≤ 16 * p.maxw

/-- The integer of `b` bits a run of drawn words stands for, the first word least significant (rule R216). -/
def wordsValue (b : Nat) (ws : List Word) : Nat := (∑ i : Fin ws.length, (ws.get i).toNat * 2 ^ (32 * i.val)) % 2 ^ b

/-- `d` is the digit count `nw(N)` (rule R52): the least `d ≥ 1` with `N < 2^(32·d)`. -/
def isDigitCount (n d : Nat) : Prop := 1 ≤ d ∧ n < 2 ^ (32 * d) ∧ (d = 1 ∨ 2 ^ (32 * (d - 1)) ≤ n)

/-- The base `a` is no witness against `n`, where `n - 1 = 2^t · s` (rule R144). -/
def notWitness (n a t s : Nat) : Prop := a ^ s % n = 1 ∨ ∃ j, j < t ∧ a ^ (2 ^ j * s) % n = n - 1

/-- The candidate of `ks` bits on the words `ws` (rules R161, R216). -/
def candidateOf (ks : Nat) (ws : List Word) : Nat := wordsValue ks (ws.take ((ks + 31) / 32)) ||| 2 ^ (ks - 1) ||| 1

/-- The six writes of KEYGEN (rule R167). -/
def keyPairWritten (z : Vector Nat 8) (p q e d : Nat) : Vector Nat 8 :=
  (((((z.set 0 (p * q)).set 1 e).set 2 d).set 3 p).set 4 q).set 5 ((p - 1) * (q - 1))

/-- The seed and the data block recovered from a block (steps 1 and 2 of rule R188). -/
def unmaskedSeed (em : List Byte) : List Byte := xorBytes ((em.drop 1).take 20) (mgf1 (em.drop 21) 20)

/-- The data block recovered from a block of `k` bytes (steps 1 and 2 of rule R188). -/
def unmaskedDb (em : List Byte) (k : Nat) : List Byte := xorBytes (em.drop 21) (mgf1 (unmaskedSeed em) (k - 21))

end Sys2Proof.Certificates

open Sys2Proof Sys2Proof.Machine Sys2Proof.Certificates

/-! ### Encoding (30_encoding.md) -/

/-- Rules R90, R94, R98: every command's word decodes to that command, and a word that decodes is the command's one encoding. -/
def Obligations.EncodeAndDecodeAgree : Prop :=
  (∀ i : Instr, decode (encode i) = .ok i) ∧ (∀ (w : Word) (i : Instr), decode w = .ok i → encode i = w)

/-- Rules R93, R94, R96: the words that decode are those with a known opcode, clear reserved bits and clear unused fields. -/
def Obligations.DecodeAcceptsExactlyWellFormedWords : Prop :=
  ∀ w : Word, (∃ i, decode w = .ok i) ↔ CommandWord.wf w = true

/-- Rule R97: every word is exactly one row's command or is rejected. -/
def Obligations.EveryWordIsOneRowOrRejected : Prop :=
  opcodeRows.length = 14 ∧ ∀ w : Word,
    (∃ r ∈ opcodeRows, r.matches w = true ∧ decode w = .ok (r.build w) ∧
      ∀ r' ∈ opcodeRows, r'.matches w = true → r'.mnemonic = r.mnemonic) ∨
    ((∀ r ∈ opcodeRows, r.matches w = false) ∧ ∃ e, decode w = .error e)

/-- Rule R98's examples and vectors C-3 to C-8: words written out from the spec decode to the commands they stand for, or are
rejected. The names of the reasons for rejection are the model's choice (log 18); the spec says IllegalCommand of each. -/
def Obligations.ExampleWordsDecode : Prop :=
  decode 0x00000001 = .ok .zeroize ∧ decode 0x00310210 = .ok (.montmul 2 0 1 3) ∧
  decode 0x00012313 = .ok (.modexp 3 2 1 0) ∧ decode 0x00005022 = .ok (.isprime 5) ∧
  decode 0x00000030 = .ok .keygen ∧ decode 0x00003442 = .ok (.oaepEnc 4 3) ∧ decode 0x00006743 = .ok (.oaepDec 7 6) ∧
  decode 0x00000002 = .error .unknownOpcode ∧ decode 0x00000810 = .error .reservedBitSet ∧
  decode 0x00010022 = .error .unusedFieldSet ∧ decode 0x00000130 = .error .unusedFieldSet

/-! ### Steps of the machine -/

/-- Rule R232: the engine's turn is one step of the command whose word runs. With no event left the turn is taken (log 2), unless
the engine waits for the entropy source: then the source answers with a free word (log 3). -/
def Obligations.EngineTurnRunsTheDecodedCommand : Prop :=
  ∀ (s : State) (c : Running) (i : Instr), s.engine = .busy c → decode c.cmd = .ok i →
    (∀ rest, s.schedule = .engine :: rest → step s = exec i { s with schedule := rest }) ∧
    (s.schedule = [] →
      ¬(runCommand i s.params c.snap c.drawn = .needWord ∧ c.snap.rngsrc = .entropy ∧ s.entropy = []) →
      step s = exec i s) ∧
    (s.schedule = [] → runCommand i s.params c.snap c.drawn = .needWord → c.snap.rngsrc = .entropy → s.entropy = [] →
      step s = .next { s with entropy := [Config.entropyWord s.entropyCount], entropyCount := s.entropyCount + 1 })

/-- Rules R48, R72, R259: scheduled events take effect one at a time in their order, and an idle engine does nothing. That the order
is a list in State is the model's choice (log 2), and so is that an entropy answer is queued whether or not a draw waits (log 3). -/
def Obligations.ScheduledEventsTakeEffectInOrder : Prop :=
  (∀ (s : State) a rest, s.schedule = .host a :: rest → step s = hostAccess a { s with schedule := rest }) ∧
  (∀ (s : State) w rest, s.schedule = .entropy w :: rest →
    step s = .next { s with schedule := rest, entropy := s.entropy ++ [w] }) ∧
  (∀ (s : State) rest, s.schedule = .engine :: rest → s.engine = .idle → step s = .next { s with schedule := rest }) ∧
  (∀ s : State, s.schedule = [] → s.engine = .idle → step s = .next s)

/-- Rules R61, R64, R249: every step answers a next state. To an access outside the window the engine does not respond: it keeps its
state, and the value a read gets is the platform's, free (log 5). -/
def Obligations.EveryStepAnswersANextState : Prop :=
  (∀ s : State, ∃ t, step s = .next t) ∧
  (∀ (s : State) (bits addr : Nat) rest, s.schedule = .host (.read bits addr) :: rest → ¬inWindow s.params addr →
    step s = .next {
      s with
      schedule := rest
      platformReads := s.platformReads + 1
      readData := Config.platformRead s.platformReads bits addr }) ∧
  (∀ (s : State) (bits addr : Nat) (v : Word) rest, s.schedule = .host (.write bits addr v) :: rest → ¬inWindow s.params addr →
    step s = .next { s with schedule := rest })

/-- Rule R271: the state after reset, in the reference configuration. -/
def Obligations.ResetValues : Prop :=
  (∀ r : ZReg, State.reset.z[r] = 0) ∧ ctrlWord State.reset = 0 ∧ State.reset.cmd = 0 ∧ statusWord State.reset = 0 ∧
  State.reset.mrRounds = 5 ∧ State.reset.keysize = 0 ∧ State.reset.lena = 0 ∧ State.reset.lenb = 0 ∧
  State.reset.fifo = [] ∧ rngLevelWord State.reset = 0 ∧ State.reset.rngCount = 0 ∧ State.reset.engine = .idle ∧
  irq State.reset = false ∧ idWord = 0x4D4D5245 ∧ versionWord = 0x00010000 ∧ paramWord State.reset.params = 0x08101440

/-- Rule R272: a CTRL write with bit 3 set, whatever its other bits, and the reset input put every piece of the engine's state at
its value of rule R271. What lies outside the engine and the parameters stay (log 12). -/
def Obligations.ResetPutsEveryRegisterAtItsValue : Prop :=
  ∀ s : State,
    let r : State := {
      s with
      z := Vector.replicate 8 0
      ie := false
      rngsrc := .entropy
      cmd := 0
      done := false
      result := false
      overrun := false
      rngovf := false
      accerr := false
      errcode := .ok
      mrRounds := 5
      keysize := 0
      lena := 0
      lenb := 0
      fifo := []
      rngCount := 0
      engine := .idle }
    (∀ v : Word, v.getLsbD 3 = true → hostWrite s 0x10 v = .next r) ∧
    (∀ rest, s.schedule = .resetInput :: rest → step s = .next { r with schedule := rest })

/-! ### Command lifecycle (60_exceptions.md) -/

/-- Rules R230, R231: a CMD write while Idle is an acceptance, decoded at once; while busy it is dropped and sets OVERRUN. -/
def Obligations.CmdWriteAcceptsRejectsOrIsDropped : Prop :=
  ∀ (s : State) (w : Word),
    (s.engine = .idle → CommandWord.wf w = true →
      hostWrite s 0x14 w = .next {
        s with
        cmd := w
        done := false
        result := false
        errcode := .ok
        rngCount := 0
        engine := .busy { cmd := w, snap := ⟨s.z, s.keysize, s.mrRounds, s.lena, s.lenb, s.rngsrc⟩, drawn := [] } }) ∧
    (s.engine = .idle → CommandWord.wf w = false →
      hostWrite s 0x14 w = .next { s with cmd := w, done := true, result := false, errcode := .illegalCommand, rngCount := 0 }) ∧
    (∀ c, s.engine = .busy c → hostWrite s 0x14 w = .next { s with overrun := true })

/-- Rules R232, R233, R47 to R49: an engine step of a running command draws the oldest word of the selected source where its rule
needs one and waits where there is none; else it commits every scheduled write, or none of them with the error's code. -/
def Obligations.EngineStepDrawsWaitsOrCommits : Prop :=
  ∀ (i : Instr) (s : State) (c : Running), s.engine = .busy c →
    let count : Word := if s.rngCount = 0xFFFFFFFF then 0xFFFFFFFF else s.rngCount + 1
    (runCommand i s.params c.snap c.drawn = .needWord →
      (c.snap.rngsrc = .fifo → s.fifo = [] → exec i s = .next s) ∧
      (c.snap.rngsrc = .entropy → s.entropy = [] → exec i s = .next s) ∧
      (∀ w ws, c.snap.rngsrc = .fifo → s.fifo = w :: ws →
        exec i s = .next { s with fifo := ws, rngCount := count, engine := .busy { c with drawn := c.drawn ++ [w] } }) ∧
      (∀ w ws, c.snap.rngsrc = .entropy → s.entropy = w :: ws →
        exec i s = .next { s with entropy := ws, rngCount := count, engine := .busy { c with drawn := c.drawn ++ [w] } })) ∧
    (∀ w, runCommand i s.params c.snap c.drawn = .success w →
      exec i s = .next { succeeded s (w.z.foldl (fun z p => z.set p.1 p.2) s.z) with
        lenb := w.lenb.getD s.lenb
        result := w.result.getD s.result }) ∧
    (∀ code, runCommand i s.params c.snap c.drawn = .error code → exec i s = .next (failed s code))

/-- Rules R233, R249: an error is precise; a command that fails changes nothing but its completion record. -/
def Obligations.FailedCommandsArePrecise : Prop :=
  ∀ (i : Instr) (s t : State) (c : Running), s.engine = .busy c → exec i s = .next t → t.engine = .idle → t.errcode ≠ .ok →
    t = failed s t.errcode

/-- Rules R22, R56, R233: what an engine step of each command leaves unchanged. A register not named as a destination, CTRL, CMD,
the configuration registers, the flags host accesses write, LENB but for OAEP_DEC, RESULT but for ISPRIME, and both random
sources but for the one word a drawing command may take. -/
def Obligations.CommandsWriteOnlyTheirDestinations : Prop :=
  ∀ (i : Instr) (s t : State), exec i s = .next t →
    (∀ r : ZReg, r ∉ destinations i → t.z[r] = s.z[r]) ∧
    ((∀ rd rs1, i ≠ .oaepDec rd rs1) → t.lenb = s.lenb) ∧ ((∀ rs1, i ≠ .isprime rs1) → t.result = s.result) ∧
    t.params = s.params ∧ t.ie = s.ie ∧ t.rngsrc = s.rngsrc ∧ t.cmd = s.cmd ∧ t.overrun = s.overrun ∧
    t.rngovf = s.rngovf ∧ t.accerr = s.accerr ∧ t.mrRounds = s.mrRounds ∧ t.keysize = s.keysize ∧ t.lena = s.lena ∧
    t.schedule = s.schedule ∧ t.entropyCount = s.entropyCount ∧ t.platformReads = s.platformReads ∧
    t.readData = s.readData ∧
    (t.fifo = s.fifo ∨ ∃ w, s.fifo = w :: t.fifo) ∧ (t.entropy = s.entropy ∨ ∃ w, s.entropy = w :: t.entropy) ∧
    (drawsWords i = false → t.fifo = s.fifo ∧ t.entropy = s.entropy ∧ t.rngCount = s.rngCount)

/-- Rule R55: what a completing command writes, and its code, depend on nothing but its snapshot, its drawn words and the
parameters: no value of another command reaches them. -/
def Obligations.ResultsDependOnlyOnSnapshotAndWords : Prop :=
  ∀ (i : Instr) (s₁ s₂ t₁ t₂ : State) (c : Running), s₁.engine = .busy c → s₂.engine = .busy c → s₁.params = s₂.params →
    exec i s₁ = .next t₁ → exec i s₂ = .next t₂ → t₁.engine = .idle →
    t₂.engine = .idle ∧ t₁.errcode = t₂.errcode ∧
    (∀ r : ZReg, t₁.z[r] = t₂.z[r] ∨ (t₁.z[r] = s₁.z[r] ∧ t₂.z[r] = s₂.z[r])) ∧
    (t₁.lenb = t₂.lenb ∨ (t₁.lenb = s₁.lenb ∧ t₂.lenb = s₂.lenb)) ∧
    (t₁.result = t₂.result ∨ (t₁.result = s₁.result ∧ t₂.result = s₂.result))

/-- Rule R248: every check comes before the first draw, so a command that fails fails with the same code whatever words it is
given. -/
def Obligations.ChecksComeBeforeDraws : Prop :=
  ∀ (i : Instr) (p : Params) (c : Snapshot) (ws : List Word) (code : ErrCode), runCommand i p c ws = .error code →
    ∀ ws', runCommand i p c ws' = .error code

/-- Rule R232: once a command's rule finishes on the words drawn, further words would not change its answer. No run draws such words;
that the model ignores them is its choice (log 15). -/
def Obligations.AFinishNeedsNoFurtherWord : Prop :=
  ∀ (i : Instr) (p : Params) (c : Snapshot) (ws more : List Word), runCommand i p c ws ≠ .needWord →
    runCommand i p c (ws ++ more) = runCommand i p c ws

/-- Rule R236 (and R241): no step brings KeyGenError or KeyRecordParseError into ERRCODE. -/
def Obligations.UnreachableCodesAreNeverRaised : Prop :=
  ∀ s t : State, step s = .next t → s.errcode ≠ .keyGenError → s.errcode ≠ .keyRecordParseError →
    t.errcode ≠ .keyGenError ∧ t.errcode ≠ .keyRecordParseError

/-- Rule R214: one CTRL write with SOFTRST is a soft reset and nothing else; without it the write acts on IE, RNGSRC, the FIFO and
the running command, in that order. -/
def Obligations.CtrlWriteActsInOrder : Prop :=
  ∀ (s : State) (v : Word),
    let src : RngSource := if v.getLsbD 1 then .fifo else .entropy
    let fifo : List Word := if v.getLsbD 4 then [] else s.fifo
    (v.getLsbD 3 = true → hostWrite s 0x10 v = .next (softReset s)) ∧
    (v.getLsbD 3 = false → s.engine = .idle →
      hostWrite s 0x10 v = .next { s with ie := v.getLsbD 0, rngsrc := src, fifo := fifo }) ∧
    (∀ c, v.getLsbD 3 = false → s.engine = .busy c →
      hostWrite s 0x10 v = .next {
        s with
        ie := v.getLsbD 0
        accerr := s.accerr || decide (src ≠ s.rngsrc)
        fifo := fifo
        engine := if v.getLsbD 2 then .idle else s.engine
        done := s.done || v.getLsbD 2
        errcode := if v.getLsbD 2 then .aborted else s.errcode })

/-- Rules R40, R50, R252: every completion, by an engine step, an abort or a rejected command word, sets DONE, so that IRQ is IE;
clearing DONE, clearing IE, the next acceptance of a command and both resets lower it. -/
def Obligations.CompletionRaisesTheInterrupt : Prop :=
  (∀ (i : Instr) (s t : State) (c : Running), s.engine = .busy c → exec i s = .next t → t.engine = .idle →
    t.done = true ∧ irq t = s.ie) ∧
  (∀ (s : State) (c : Running) (v : Word), s.engine = .busy c → v.getLsbD 3 = false → v.getLsbD 2 = true →
    ∃ t, hostWrite s 0x10 v = .next t ∧ t.engine = .idle ∧ t.done = true ∧ irq t = v.getLsbD 0) ∧
  (∀ (s : State) (w : Word), s.engine = .idle → CommandWord.wf w = false →
    ∃ t, hostWrite s 0x14 w = .next t ∧ t.engine = .idle ∧ t.done = true ∧ irq t = s.ie) ∧
  (∀ (s : State) (v : Word), v.getLsbD 1 = true → ∃ t, hostWrite s 0x18 v = .next t ∧ irq t = false) ∧
  (∀ (s : State) (v : Word), v.getLsbD 0 = false → ∃ t, hostWrite s 0x10 v = .next t ∧ irq t = false) ∧
  (∀ (s : State) (w : Word), s.engine = .idle → CommandWord.wf w = true →
    ∃ t, hostWrite s 0x14 w = .next t ∧ irq t = false) ∧
  (∀ (s : State) (v : Word), v.getLsbD 3 = true → ∃ t, hostWrite s 0x10 v = .next t ∧ irq t = false) ∧
  (∀ (s : State) rest, s.schedule = .resetInput :: rest → ∃ t, step s = .next t ∧ irq t = false)

/-! ### The register window (10_state.md, 20_memory.md) -/

/-- Rules R38, R43, R234: every field of STATUS as read, RNGWAIT as log 8 deduces it, ERRCODE with the number of each code, and the
W1C write. -/
def Obligations.StatusFieldsAndW1C : Prop :=
  (∀ code : ErrCode, code.toByte.toNat =
    match code with
    | .ok => 0x00
    | .encodingError => 0x01
    | .keyGenError => 0x02
    | .messageTooLong => 0x03
    | .blockTooLarge => 0x04
    | .integrityError => 0x05
    | .paddingError => 0x06
    | .keyRecordParseError => 0x07
    | .noInverse => 0x08
    | .illegalCommand => 0x09
    | .configError => 0x0A
    | .modulusInvalid => 0x0B
    | .aborted => 0x0C) ∧
  ∀ s : State,
    hostRead s 0x18 = .next { s with readData := some (statusWord s) } ∧
    (statusWord s).getLsbD 0 = s.busy ∧ (statusWord s).getLsbD 1 = s.done ∧ (statusWord s).getLsbD 2 = s.result ∧
    (statusWord s).getLsbD 3 = s.overrun ∧ (statusWord s).getLsbD 5 = s.rngovf ∧ (statusWord s).getLsbD 6 = s.accerr ∧
    (statusWord s).getLsbD 7 = false ∧ (statusWord s).extractLsb' 8 8 = s.errcode.toByte ∧
    (statusWord s).extractLsb' 16 16 = 0 ∧
    ((statusWord s).getLsbD 4 = true ↔ ∃ c i, s.engine = .busy c ∧ decode c.cmd = .ok i ∧
      runCommand i s.params c.snap c.drawn = .needWord ∧
      ((c.snap.rngsrc = .fifo ∧ s.fifo = []) ∨ (c.snap.rngsrc = .entropy ∧ s.entropy = []))) ∧
    (∀ v : Word, hostWrite s 0x18 v = .next {
      s with
      done := s.done && !v.getLsbD 1
      overrun := s.overrun && !v.getLsbD 3
      rngovf := s.rngovf && !v.getLsbD 5
      accerr := s.accerr && !v.getLsbD 6 })

/-- Rules R25 to R28: ID, VERSION and PARAM read as their constants, and writes to them and to the other read-only registers,
RNG_LEVEL and RNG_COUNT, are ignored. -/
def Obligations.IdentityRegistersAreConstant : Prop :=
  ∀ s : State, s.params.wf = true → ∃ param : Word,
    hostRead s 0x000 = .next { s with readData := some 0x4D4D5245 } ∧
    hostRead s 0x004 = .next { s with readData := some 0x00010000 } ∧
    hostRead s 0x008 = .next { s with readData := some param } ∧
    (param.extractLsb' 0 8).toNat = s.params.maxw ∧ (param.extractLsb' 8 8).toNat = 20 ∧
    (param.extractLsb' 16 8).toNat = s.params.fifoDepth ∧ (param.extractLsb' 24 8).toNat = 8 ∧
    (∀ off v, off = 0x000 ∨ off = 0x004 ∨ off = 0x008 ∨ off = 0x030 ∨ off = 0x034 → hostWrite s off v = .next s)

/-- Rule R62: a reserved offset reads 0 and ignores writes, and sets no flag. -/
def Obligations.ReservedOffsetsReadZero : Prop :=
  ∀ (s : State) (off : Nat) (v : Word), off % 4 = 0 → off = 0x00C ∨ (0x038 ≤ off ∧ off < 0x1000) →
    hostRead s off = .next { s with readData := some 0 } ∧ hostWrite s off v = .next s

/-- Rule R63: word `j` of Zi, read and written at `0x1000 + 0x100·i + 4·j` while no command runs. -/
def Obligations.BigRegisterWordsReadAndWrite : Prop :=
  ∀ (s : State) (i : ZReg) (j : Nat) (v : Word), s.engine = .idle → j < 64 →
    let off := 0x1000 + 0x100 * i.val + 4 * j
    (j < s.params.maxw →
      hostRead s off = .next { s with readData := some (BitVec.ofNat 32 (s.z[i] / 2 ^ (32 * j))) } ∧
      ∃ x, hostWrite s off v = .next { s with z := s.z.set i x } ∧ wordOf x j = v ∧ ∀ k, k ≠ j → wordOf x k = wordOf s.z[i] k) ∧
    (s.params.maxw ≤ j →
      hostRead s off = .next { s with readData := some 0 } ∧ hostWrite s off v = .next s)

/-- Rule R66: a big register is the sum of its words, word 0 least significant. -/
def Obligations.BigRegisterIsTheSumOfItsWords : Prop :=
  ∀ (p : Params) (x : Nat), x < 2 ^ (32 * p.maxw) →
    x = ∑ j : Fin p.maxw, (wordOf x j.val).toNat * 2 ^ (32 * j.val)

/-- Rule R70: while a command runs, the big registers read 0 and they and the configuration registers ignore writes, each such
access setting ACCERR, one to a word `j ≥ MAXW` too (the model's choice, log 13); reads of the other registers behave as ever. -/
def Obligations.OperandsAreClosedWhileBusy : Prop :=
  ∀ (s : State) (c : Running) (v : Word), s.engine = .busy c →
    (∀ off, 0x1000 ≤ off → off < 0x1800 → off % 4 = 0 →
      hostRead s off = .next { s with accerr := true, readData := some 0 } ∧
      hostWrite s off v = .next { s with accerr := true }) ∧
    (∀ off, off = 0x01C ∨ off = 0x020 ∨ off = 0x024 ∨ off = 0x028 → hostWrite s off v = .next { s with accerr := true }) ∧
    (∀ off, off < 0x1000 → off % 4 = 0 → hostRead s off = .next { s with readData := some (readCsr off s) })

/-- Rule R64: an access of another width or alignment has no effect on any register but ACCERR, and reads 0. That this holds at the
reserved offsets of rule R62 too, and that an access is placed by its first byte, is the model's reading (log 13). -/
def Obligations.UndefinedAccessesAreRefused : Prop :=
  ∀ (s : State) (bits off : Nat) (v : Word), off < 0x1800 → bits ≠ 32 ∨ off % 4 ≠ 0 →
    hostAccess (.read bits (s.params.base + off)) s = .next { s with accerr := true, readData := some 0 } ∧
    hostAccess (.write bits (s.params.base + off) v) s = .next { s with accerr := true }

/-- Rules R29, R33 to R37, R49: what writes of MR_ROUNDS, KEYSIZE, LENA and LENB store while no command runs, and what these, CTRL,
CMD and RNG_COUNT read as, whether or not a command runs. -/
def Obligations.ConfigurationRegistersStoreTheirFields : Prop :=
  ∀ s : State,
    (∀ v : Word, s.engine = .idle →
      hostWrite s 0x01C v = .next { s with mrRounds := BitVec.ofNat 8 (max (v.toNat % 256) 5) } ∧
      hostWrite s 0x020 v = .next { s with keysize := v.extractLsb' 0 16 } ∧
      hostWrite s 0x024 v = .next { s with lena := v.extractLsb' 0 16 } ∧
      hostWrite s 0x028 v = .next { s with lenb := v.extractLsb' 0 16 }) ∧
    (∃ ctrl : Word, hostRead s 0x010 = .next { s with readData := some ctrl } ∧ ctrl.getLsbD 0 = s.ie ∧
      ctrl.getLsbD 1 = decide (s.rngsrc = .fifo) ∧ ∀ k, 2 ≤ k → ctrl.getLsbD k = false) ∧
    hostRead s 0x014 = .next { s with readData := some s.cmd } ∧
    hostRead s 0x01C = .next { s with readData := some (BitVec.ofNat 32 s.mrRounds.toNat) } ∧
    hostRead s 0x020 = .next { s with readData := some (BitVec.ofNat 32 s.keysize.toNat) } ∧
    hostRead s 0x024 = .next { s with readData := some (BitVec.ofNat 32 s.lena.toNat) } ∧
    hostRead s 0x028 = .next { s with readData := some (BitVec.ofNat 32 s.lenb.toNat) } ∧
    hostRead s 0x034 = .next { s with readData := some s.rngCount }

/-- Rules R44, R47: RNG_DATA appends while there is room, busy or not, and else drops the word with RNGOVF; it reads 0. -/
def Obligations.RngDataFeedsTheFifo : Prop :=
  ∀ (s : State) (v : Word),
    (s.fifo.length < s.params.fifoDepth → hostWrite s 0x02C v = .next { s with fifo := s.fifo ++ [v] }) ∧
    (s.params.fifoDepth ≤ s.fifo.length → hostWrite s 0x02C v = .next { s with rngovf := true }) ∧
    hostRead s 0x02C = .next { s with readData := some 0 } ∧
    (s.fifo.length ≤ 255 → hostRead s 0x030 = .next { s with readData := some (BitVec.ofNat 32 s.fifo.length) })

/-! ### Control commands (44_control.md) -/

/-- Rule R210: NOP completes with DONE and ERRCODE 0x00 and changes nothing else. -/
def Obligations.NopCompletes : Prop :=
  ∀ (s : State) (c : Running), s.engine = .busy c → exec .nop s = .next (succeeded s s.z)

/-- Rule R211: ZEROIZE clears Z0 to Z7 and changes nothing else. -/
def Obligations.ZeroizeClearsEveryBigRegister : Prop :=
  ∀ (s : State) (c : Running), s.engine = .busy c → exec .zeroize s = .next (succeeded s (Vector.replicate 8 0))

/-! ### Modular arithmetic (40_modarith.md, 42_keygen.md) -/

/-- Rules R110 to R113: MONTMUL. -/
def Obligations.MontmulComputesTheMontgomeryProduct : Prop :=
  ∀ (rd rs1 rs2 rs3 : ZReg) (s : State) (c : Running), s.engine = .busy c →
    let a := c.snap.z[rs1]
    let b := c.snap.z[rs2]
    let n := c.snap.z[rs3]
    (n % 2 = 1 → 3 ≤ n → a < n → b < n →
      ∃ d rinv, isDigitCount n d ∧ 1 ≤ rinv ∧ rinv ≤ n - 1 ∧ 2 ^ (32 * d) * rinv % n = 1 ∧
        (∀ x, 1 ≤ x → x ≤ n - 1 → 2 ^ (32 * d) * x % n = 1 → x = rinv) ∧
        exec (.montmul rd rs1 rs2 rs3) s = .next (succeeded s (s.z.set rd (a * b * rinv % n)))) ∧
    (¬(n % 2 = 1 ∧ 3 ≤ n) → exec (.montmul rd rs1 rs2 rs3) s = .next (failed s .modulusInvalid)) ∧
    (n % 2 = 1 → 3 ≤ n → n ≤ a ∨ n ≤ b → exec (.montmul rd rs1 rs2 rs3) s = .next (failed s .blockTooLarge))

/-- Rule R114: MODMUL. -/
def Obligations.ModmulComputesTheProductModN : Prop :=
  ∀ (rd rs1 rs2 rs3 : ZReg) (s : State) (c : Running), s.engine = .busy c →
    let a := c.snap.z[rs1]
    let b := c.snap.z[rs2]
    let n := c.snap.z[rs3]
    (n % 2 = 1 → 3 ≤ n → a < n → b < n →
      exec (.modmul rd rs1 rs2 rs3) s = .next (succeeded s (s.z.set rd (a * b % n)))) ∧
    (¬(n % 2 = 1 ∧ 3 ≤ n) → exec (.modmul rd rs1 rs2 rs3) s = .next (failed s .modulusInvalid)) ∧
    (n % 2 = 1 → 3 ≤ n → n ≤ a ∨ n ≤ b → exec (.modmul rd rs1 rs2 rs3) s = .next (failed s .blockTooLarge))

/-- Rule R115: RSQ. -/
def Obligations.RsqComputesTheConversionConstant : Prop :=
  ∀ (rd rs3 : ZReg) (s : State) (c : Running), s.engine = .busy c →
    let n := c.snap.z[rs3]
    (n % 2 = 1 → 3 ≤ n →
      ∃ d, isDigitCount n d ∧ exec (.rsq rd rs3) s = .next (succeeded s (s.z.set rd ((2 ^ (32 * d)) ^ 2 % n)))) ∧
    (¬(n % 2 = 1 ∧ 3 ≤ n) → exec (.rsq rd rs3) s = .next (failed s .modulusInvalid))

/-- Rule R116: MODEXP. The exponent is any value and `b^0 = 1`. -/
def Obligations.ModexpComputesThePower : Prop :=
  ∀ (rd rs1 rs2 rs3 : ZReg) (s : State) (c : Running), s.engine = .busy c →
    let b := c.snap.z[rs1]
    let e := c.snap.z[rs2]
    let n := c.snap.z[rs3]
    (n % 2 = 1 → 3 ≤ n → b < n → exec (.modexp rd rs1 rs2 rs3) s = .next (succeeded s (s.z.set rd (b ^ e % n)))) ∧
    (¬(n % 2 = 1 ∧ 3 ≤ n) → exec (.modexp rd rs1 rs2 rs3) s = .next (failed s .modulusInvalid)) ∧
    (n % 2 = 1 → 3 ≤ n → n ≤ b → exec (.modexp rd rs1 rs2 rs3) s = .next (failed s .blockTooLarge))

/-- Rule R169: GCD, `gcd(0, 0) = 0` included. -/
def Obligations.GcdComputesTheGreatestCommonDivisor : Prop :=
  ∀ (rd rs1 rs2 : ZReg) (s : State) (c : Running), s.engine = .busy c →
    ∃ g, exec (.gcd rd rs1 rs2) s = .next (succeeded s (s.z.set rd g)) ∧ g ∣ c.snap.z[rs1] ∧ g ∣ c.snap.z[rs2] ∧
      ∀ x, x ∣ c.snap.z[rs1] → x ∣ c.snap.z[rs2] → x ∣ g

/-- Rule R170: MODINV. -/
def Obligations.ModinvComputesTheInverse : Prop :=
  ∀ (rd rs1 rs3 : ZReg) (s : State) (c : Running), s.engine = .busy c →
    let a := c.snap.z[rs1]
    let m := c.snap.z[rs3]
    (1 ≤ m → Nat.gcd (a % m) m = 1 →
      ∃ x, x < m ∧ a % m * x % m = 1 % m ∧ (∀ y, y < m → a % m * y % m = 1 % m → y = x) ∧
        exec (.modinv rd rs1 rs3) s = .next (succeeded s (s.z.set rd x))) ∧
    (m = 0 → exec (.modinv rd rs1 rs3) s = .next (failed s .modulusInvalid)) ∧
    (1 ≤ m → Nat.gcd (a % m) m ≠ 1 → exec (.modinv rd rs1 rs3) s = .next (failed s .noInverse))

/-- Rule R117: the word-serial reference datapath computes the Montgomery product, and the exponentiation and modular product built
on it compute the power and the product. -/
def Obligations.ReferenceDatapathAgrees : Prop :=
  ∀ a b n : Nat, n % 2 = 1 → 3 ≤ n → a < n → b < n →
    montMulCios a b n = montMul a b n ∧ modMulMont a b n = a * b % n ∧ ∀ e, powModMont b e n = b ^ e % n

/-- Rule R119: with a key pair on an odd modulus of two distinct primes, MODEXP with `e` and then MODEXP with `d` returns the
starting value for every `m < n`. -/
def Obligations.RsaDecryptsWhatItEncrypts : Prop :=
  ∀ p q e d m : Nat, p.Prime → q.Prime → p ≠ q → p % 2 = 1 → q % 2 = 1 → d * e % ((p - 1) * (q - 1)) = 1 → m < p * q →
    ∀ (rd rs1 rs2 rs3 : ZReg) (s : State) (c : Running), s.engine = .busy c →
      c.snap.z[rs1] = m → c.snap.z[rs2] = e → c.snap.z[rs3] = p * q →
      ∃ t, exec (.modexp rd rs1 rs2 rs3) s = .next t ∧ t.errcode = .ok ∧
        ∀ (rd' rs1' rs2' rs3' : ZReg) (s' : State) (c' : Running), s'.engine = .busy c' →
          c'.snap.z[rs1'] = t.z[rd] → c'.snap.z[rs2'] = d → c'.snap.z[rs3'] = p * q →
          exec (.modexp rd' rs1' rs2' rs3') s' = .next (succeeded s' (s'.z.set rd' m))

/-! ### Primality (41_primality.md) and random words (44_control.md) -/

/-- Rules R146, R148, R149: ISPRIME answers without a draw for every `n` up to 100, exactly the primes, and for every other `n`
with a factor below 100, as composite. -/
def Obligations.IsprimeDecidesSmallValuesWithoutDraws : Prop :=
  ∀ (rs1 : ZReg) (s : State) (c : Running), s.engine = .busy c →
    (c.snap.z[rs1] ≤ 100 →
      exec (.isprime rs1) s = .next { succeeded s s.z with result := decide (c.snap.z[rs1]).Prime }) ∧
    (∀ p, p.Prime → p < 100 → p ∣ c.snap.z[rs1] → 100 < c.snap.z[rs1] →
      exec (.isprime rs1) s = .next { succeeded s s.z with result := false })

/-- Rules R141, R143 to R146: ISPRIME on a value without a small factor, for every list of drawn words cut into base draws and the words
`part` of a draw that is not complete: it declares the value prime exactly when all MR_ROUNDS rounds ran and no base was a witness, composite at the first witness, and
needs another word while too few bases were accepted. -/
def Obligations.IsprimeRunsEveryRound : Prop :=
  ∀ (rs1 : ZReg) (s : State) (c : Running) (draws : List (List Word)) (part : List Word) (bits t odd : Nat), s.engine = .busy c →
    let n := c.snap.z[rs1]
    let rounds := c.snap.mrRounds.toNat
    let bases := (draws.map (wordsValue bits)).filter (fun a => decide (2 ≤ a ∧ a ≤ n - 2))
    2 ≤ n → (∀ p, p.Prime → p < 100 → ¬p ∣ n) → n - 1 = 2 ^ t * odd → odd % 2 = 1 →
    1 ≤ bits → 2 ^ (bits - 1) ≤ n → n < 2 ^ bits →
    (∀ ch ∈ draws, ch.length = (bits + 31) / 32) → part.length < (bits + 31) / 32 → c.drawn = draws.flatten ++ part →
    (rounds ≤ bases.length → (∀ a ∈ bases.take rounds, notWitness n a t odd) →
      exec (.isprime rs1) s = .next { succeeded s s.z with result := true }) ∧
    ((∃ a ∈ bases.take rounds, ¬notWitness n a t odd) →
      exec (.isprime rs1) s = .next { succeeded s s.z with result := false }) ∧
    (bases.length < rounds → (∀ a ∈ bases, notWitness n a t odd) →
      ∃ u, exec (.isprime rs1) s = .next u ∧ u.engine ≠ .idle)

/-- Rule R147: for every sequence of drawn words ISPRIME declares a prime prime; so what it declares composite is composite or
below 2. -/
def Obligations.IsprimeNeverRejectsAPrime : Prop :=
  ∀ (rs1 : ZReg) (s t : State) (c : Running), s.engine = .busy c → exec (.isprime rs1) s = .next t → t.engine = .idle →
    (c.snap.z[rs1]).Prime → t.errcode = .ok ∧ t.result = true

/-- Rule R147: a composite may be declared prime, after all its rounds, when every base drawn is a strong liar. -/
def Obligations.IsprimeMayAcceptAComposite : Prop :=
  ∃ (s t : State) (c : Running), s.engine = .busy c ∧ c.snap.mrRounds = 5 ∧ c.drawn.length = 5 ∧ ¬(c.snap.z[(0 : ZReg)]).Prime ∧
    exec (.isprime 0) s = .next t ∧ t.engine = .idle ∧ t.errcode = .ok ∧ t.result = true

/-- Rule R216: `RandBits(b)` takes exactly `ceil(b/32)` words, the first least significant, and discards the high bits. -/
def Obligations.RandBitsAssemblesItsWords : Prop :=
  ∀ (b : Nat) (ws : List Word), 1 ≤ b →
    ((b + 31) / 32 ≤ ws.length →
      randBits b ws = some (wordsValue b (ws.take ((b + 31) / 32)), ws.drop ((b + 31) / 32))) ∧
    (ws.length < (b + 31) / 32 → randBits b ws = none)

/-- Rule R217: `DrawUntil(b, P)` answers the first draw that satisfies `P`, and nothing before such a draw. -/
def Obligations.DrawUntilTakesTheFirstAccepted : Prop :=
  ∀ (b : Nat) (accepts : Nat → Bool) (ws rest : List Word) (x : Nat), 1 ≤ b →
    let k := (b + 31) / 32
    let draw := fun m => wordsValue b ((ws.drop (m * k)).take k)
    (drawUntil b accepts ws = some (x, rest) ↔
      ∃ m, (m + 1) * k ≤ ws.length ∧ x = draw m ∧ accepts (draw m) = true ∧ (∀ j, j < m → accepts (draw j) = false) ∧
        rest = ws.drop ((m + 1) * k))

/-! ### Key generation (42_keygen.md) -/

/-- Rule R160: with an illegal key size KEYGEN raises ConfigError before drawing any word. -/
def Obligations.KeygenRefusesAnIllegalKeySize : Prop :=
  ∀ (s : State) (c : Running), s.engine = .busy c → ¬legalKeySize s.params c.snap.keysize.toNat →
    exec .keygen s = .next (failed s .configError)

/-- Rules R161 to R168: on words `ws`, the first prime is the first candidate `IsPrime` accepts, each candidate and each test on the
words the one before left; the second is the first such value that differs from `p`; `IsPrime` leaves exactly the words it did not
need; once these loops and the exponent's have accepted, KEYGEN commits its six registers; and vector K1's key for all words that give
its candidates. -/
def Obligations.KeygenCommitsItsKeyPair : Prop :=
  (∀ (ks rounds : Nat) (ws rest : List Word) (p : Nat), 1 ≤ ks →
    let w := (ks + 31) / 32
    (drawPrime ks rounds ws = some (p, rest) ↔
      ∃ (at_ : Nat → List Word) (m : Nat), at_ 0 = ws ∧
        (∀ j, j ≤ m → w ≤ (at_ j).length) ∧
        (∀ j, j < m → isPrime (candidateOf ks (at_ j)) rounds ((at_ j).drop w) = some (false, at_ (j + 1))) ∧
        isPrime (candidateOf ks (at_ m)) rounds ((at_ m).drop w) = some (true, rest) ∧ p = candidateOf ks (at_ m))) ∧
  (∀ (ks rounds : Nat) (ws rest : List Word) (p q : Nat), 1 ≤ ks →
    (drawOtherPrime ks rounds p ws = some (q, rest) ↔
      ∃ (at_ : Nat → List Word) (m : Nat), at_ 0 = ws ∧
        (∀ j, j < m → drawPrime ks rounds (at_ j) = some (p, at_ (j + 1))) ∧
        drawPrime ks rounds (at_ m) = some (q, rest) ∧ q ≠ p)) ∧
  (∀ (n rounds : Nat) (ws rest : List Word) (r : Bool), isPrime n rounds ws = some (r, rest) →
    ∃ used, ws = used ++ rest ∧ isPrime n rounds used = some (r, []) ∧
      ∀ k, k < used.length → isPrime n rounds (used.take k) = none) ∧
  (∀ (s : State) (c : Running) (p q e bits : Nat) (ws₁ ws₂ rest : List Word), s.engine = .busy c →
    legalKeySize s.params c.snap.keysize.toNat →
    drawPrime c.snap.keysize.toNat c.snap.mrRounds.toNat c.drawn = some (p, ws₁) →
    drawOtherPrime c.snap.keysize.toNat c.snap.mrRounds.toNat p ws₁ = some (q, ws₂) →
    let phi := (p - 1) * (q - 1)
    1 ≤ bits → 2 ^ (bits - 1) ≤ phi → phi < 2 ^ bits →
    drawUntil bits (fun x => decide (2 ≤ x ∧ x ≤ phi - 1 ∧ Nat.gcd x phi = 1)) ws₂ = some (e, rest) →
    ∃ d, d < phi ∧ d * e % phi = 1 ∧
      exec .keygen s = .next (succeeded s (keyPairWritten s.z p q e d))) ∧
  (∀ (s : State) (c : Running) (w₀ w₁ w₂ : Word), s.engine = .busy c → s.params.wf = true → c.snap.keysize = 4 →
    c.drawn = [w₀, w₁, w₂] → w₀.toNat % 16 ||| 9 = 11 → w₁.toNat % 16 ||| 9 = 13 → 2 ≤ w₂.toNat % 128 →
    w₂.toNat % 128 ≤ 119 → Nat.gcd (w₂.toNat % 128) 120 = 1 →
    ∃ d, d < 120 ∧ d * (w₂.toNat % 128) % 120 = 1 ∧
      exec .keygen s = .next (succeeded s (keyPairWritten s.z 11 13 (w₂.toNat % 128) d)))

/-- Rules R164, R167, R171: what KEYGEN commits satisfies the key invariants for every random stream. -/
def Obligations.KeygenResultsMeetTheKeyInvariants : Prop :=
  ∀ (s t : State) (c : Running), s.engine = .busy c → exec .keygen s = .next t → t.engine = .idle → t.errcode = .ok →
    let ks := c.snap.keysize.toNat
    ∃ p q e d, t = succeeded s (keyPairWritten s.z p q e d) ∧ p ≠ q ∧
      2 ^ (ks - 1) < p ∧ p < 2 ^ ks ∧ p % 2 = 1 ∧ 2 ^ (ks - 1) < q ∧ q < 2 ^ ks ∧ q % 2 = 1 ∧
      2 ^ (2 * ks - 2) < p * q ∧ p * q < 2 ^ (2 * ks) ∧
      2 ≤ e ∧ e ≤ (p - 1) * (q - 1) - 1 ∧ Nat.gcd e ((p - 1) * (q - 1)) = 1 ∧
      d < (p - 1) * (q - 1) ∧ d * e % ((p - 1) * (q - 1)) = 1

/-- Rules R260, R279 and vector K7: for some streams KEYGEN never finishes, however many words it is given. -/
def Obligations.KeygenMayRunForEver : Prop :=
  ∀ (s : State) (c : Running) (k : Nat), s.engine = .busy c → s.params.wf = true → c.snap.keysize = 4 →
    c.drawn = List.replicate k (2 : Word) → ∃ t, exec .keygen s = .next t ∧ t.engine ≠ .idle

/-! ### XOR, MGF1 and OAEP (43_oaep.md) -/

/-- Rule R184: XOR, bit by bit. -/
def Obligations.XorIsBitwise : Prop :=
  ∀ (rd rs1 rs2 : ZReg) (s : State) (c : Running), s.engine = .busy c →
    ∃ x, exec (.xor rd rs1 rs2) s = .next (succeeded s (s.z.set rd x)) ∧
      ∀ k, x.testBit k = Bool.xor ((c.snap.z[rs1]).testBit k) ((c.snap.z[rs2]).testBit k)

/-- Rules R180, R181: the hash gives 20 bytes, and the label hash and `H("abc")` are the spec's check values (the algorithm is
presumed, log 7). -/
def Obligations.HashMeetsItsCheckValues : Prop :=
  (∀ s : List Byte, (sha1 s).length = 20) ∧ lHash = sha1 [] ∧
  os2ip lHash = 0xda39a3ee5e6b4b0d3255bfef95601890afd80709 ∧
  os2ip (sha1 [0x61, 0x62, 0x63]) = 0xa9993e364706816aba3e25717850c26c9cd0d89d

/-- Rule R182: byte `i` of the mask is byte `i mod 20` of the hash of the seed and the counter `i / 20` as four big-endian bytes. -/
def Obligations.Mgf1MaskBytes : Prop :=
  ∀ (seed : List Byte) (len : Nat), (mgf1 seed len).length = len ∧
    ∀ i, i < len → (mgf1 seed len)[i]? = (sha1 (seed ++ be32 (i / 20)))[i % 20]?

/-- Rule R183: MGF1. -/
def Obligations.Mgf1CommandWritesTheMask : Prop :=
  ∀ (rd rs1 : ZReg) (s : State) (c : Running), s.engine = .busy c →
    let la := c.snap.lena.toNat
    let lb := c.snap.lenb.toNat
    let x := c.snap.z[rs1]
    (∀ seed : List Byte, la ≤ 4 * s.params.maxw → lb ≤ 4 * s.params.maxw → seed.length = la → os2ip seed = x →
      exec (.mgf1 rd rs1) s = .next (succeeded s (s.z.set rd (os2ip (mgf1 seed lb))))) ∧
    (4 * s.params.maxw < la ∨ 4 * s.params.maxw < lb ∨ 256 ^ la ≤ x →
      exec (.mgf1 rd rs1) s = .next (failed s .encodingError))

/-- Rules R185 to R187: OAEP_ENC, its checks in order, its five words and its block. -/
def Obligations.OaepEncWritesTheBlock : Prop :=
  ∀ (rd rs1 : ZReg) (s : State) (c : Running), s.engine = .busy c →
    let ks := c.snap.keysize.toNat
    let k := ks / 4
    let mLen := c.snap.lena.toNat
    let x := c.snap.z[rs1]
    (¬legalKeySize s.params ks → exec (.oaepEnc rd rs1) s = .next (failed s .configError)) ∧
    (legalKeySize s.params ks → k < mLen + 42 → exec (.oaepEnc rd rs1) s = .next (failed s .messageTooLong)) ∧
    (legalKeySize s.params ks → mLen + 42 ≤ k → 256 ^ mLen ≤ x → exec (.oaepEnc rd rs1) s = .next (failed s .encodingError)) ∧
    (legalKeySize s.params ks → mLen + 42 ≤ k → x < 256 ^ mLen → c.drawn.length < 5 →
      ∃ t, exec (.oaepEnc rd rs1) s = .next t ∧ t.engine ≠ .idle) ∧
    (∀ (msg seed : List Byte) (w₀ w₁ w₂ w₃ w₄ : Word), legalKeySize s.params ks → mLen + 42 ≤ k →
      msg.length = mLen → os2ip msg = x → c.drawn = [w₀, w₁, w₂, w₃, w₄] → seed.length = 20 →
      os2ip seed = w₀.toNat * 2 ^ 128 + w₁.toNat * 2 ^ 96 + w₂.toNat * 2 ^ 64 + w₃.toNat * 2 ^ 32 + w₄.toNat →
      let db := lHash ++ List.replicate (k - mLen - 42) 0x00 ++ [0x01] ++ msg
      let maskedDb := xorBytes db (mgf1 seed (k - 21))
      let block := [0x00] ++ xorBytes seed (mgf1 maskedDb 20) ++ maskedDb
      block.length = k ∧ exec (.oaepEnc rd rs1) s = .next (succeeded s (s.z.set rd (os2ip block))))

/-- Rules R188, R189: OAEP_DEC of an encoded block recovers its message and the message's length. -/
def Obligations.OaepDecRecoversTheMessage : Prop :=
  ∀ (rd rs1 : ZReg) (s : State) (c : Running) (msg seed : List Byte), s.engine = .busy c →
    legalKeySize s.params c.snap.keysize.toNat → msg.length + 42 ≤ c.snap.keysize.toNat / 4 → seed.length = 20 →
    c.snap.z[rs1] = os2ip (oaepEncode msg (c.snap.keysize.toNat / 4) seed) →
    exec (.oaepDec rd rs1) s = .next { succeeded s (s.z.set rd (os2ip msg)) with lenb := BitVec.ofNat 16 msg.length }

/-- Rule R188: OAEP_DEC succeeds on nothing but encoded blocks. -/
def Obligations.OaepDecAcceptsOnlyEncodedBlocks : Prop :=
  ∀ (rd rs1 : ZReg) (s t : State) (c : Running), s.engine = .busy c → exec (.oaepDec rd rs1) s = .next t → t.engine = .idle →
    t.errcode = .ok →
    ∃ msg seed : List Byte, msg.length + 42 ≤ c.snap.keysize.toNat / 4 ∧ seed.length = 20 ∧
      c.snap.z[rs1] = os2ip (oaepEncode msg (c.snap.keysize.toNat / 4) seed) ∧ t.z[rd] = os2ip msg ∧ t.lenb.toNat = msg.length

/-- Rules R188, R189, R248: the errors of OAEP_DEC, in their order. -/
def Obligations.OaepDecErrorsInOrder : Prop :=
  ∀ (rd rs1 : ZReg) (s : State) (c : Running), s.engine = .busy c →
    let ks := c.snap.keysize.toNat
    let k := ks / 4
    let x := c.snap.z[rs1]
    (¬(legalKeySize s.params ks ∧ 42 ≤ k) → exec (.oaepDec rd rs1) s = .next (failed s .configError)) ∧
    (legalKeySize s.params ks → 42 ≤ k → 256 ^ k ≤ x → exec (.oaepDec rd rs1) s = .next (failed s .encodingError)) ∧
    (∀ (y : Byte) (em : List Byte), legalKeySize s.params ks → 42 ≤ k → (y :: em).length = k → os2ip (y :: em) = x →
      let db := unmaskedDb (y :: em) k
      (db.take 20 ≠ lHash → exec (.oaepDec rd rs1) s = .next (failed s .integrityError)) ∧
      (db.take 20 = lHash → y ≠ 0x00 → exec (.oaepDec rd rs1) s = .next (failed s .paddingError)) ∧
      (db.take 20 = lHash → (∀ b ∈ db.drop 20, b = 0x00) → exec (.oaepDec rd rs1) s = .next (failed s .paddingError)) ∧
      (∀ (z : Nat) (b : Byte) (rest : List Byte), db.take 20 = lHash → db.drop 20 = List.replicate z 0x00 ++ b :: rest →
        b ≠ 0x00 → b ≠ 0x01 → exec (.oaepDec rd rs1) s = .next (failed s .paddingError)))

/-- Rule R191: OAEP_ENC, MODEXP with `e`, MODEXP with `d` and OAEP_DEC, on a modulus of two distinct odd primes of KEYSIZE bits,
return the message and its length. -/
def Obligations.OaepRoundTripThroughRsa : Prop :=
  ∀ (p q e d : Nat) (msg : List Byte) (rd₁ rs₁ : ZReg) (s₁ : State) (c₁ : Running), s₁.engine = .busy c₁ →
    let ks := c₁.snap.keysize.toNat
    p.Prime → q.Prime → p ≠ q → p % 2 = 1 → q % 2 = 1 → 2 ^ (ks - 1) < p → p < 2 ^ ks → 2 ^ (ks - 1) < q → q < 2 ^ ks →
    d * e % ((p - 1) * (q - 1)) = 1 → legalKeySize s₁.params ks → msg.length + 42 ≤ ks / 4 →
    c₁.snap.lena.toNat = msg.length → c₁.snap.z[rs₁] = os2ip msg → c₁.drawn.length = 5 →
    ∃ t₁, exec (.oaepEnc rd₁ rs₁) s₁ = .next t₁ ∧ t₁.errcode = .ok ∧
      ∀ (rd₂ a₂ e₂ n₂ : ZReg) (s₂ : State) (c₂ : Running), s₂.engine = .busy c₂ →
        c₂.snap.z[a₂] = t₁.z[rd₁] → c₂.snap.z[e₂] = e → c₂.snap.z[n₂] = p * q →
        ∃ t₂, exec (.modexp rd₂ a₂ e₂ n₂) s₂ = .next t₂ ∧ t₂.errcode = .ok ∧
          ∀ (rd₃ a₃ d₃ n₃ : ZReg) (s₃ : State) (c₃ : Running), s₃.engine = .busy c₃ →
            c₃.snap.z[a₃] = t₂.z[rd₂] → c₃.snap.z[d₃] = d → c₃.snap.z[n₃] = p * q →
            ∃ t₃, exec (.modexp rd₃ a₃ d₃ n₃) s₃ = .next t₃ ∧ t₃.errcode = .ok ∧
              ∀ (rd₄ a₄ : ZReg) (s₄ : State) (c₄ : Running), s₄.engine = .busy c₄ → s₄.params = s₁.params →
                c₄.snap.keysize = c₁.snap.keysize → c₄.snap.z[a₄] = t₃.z[rd₃] →
                ∃ t₄, exec (.oaepDec rd₄ a₄) s₄ = .next t₄ ∧ t₄.errcode = .ok ∧ t₄.z[rd₄] = os2ip msg ∧
                  t₄.lenb.toNat = msg.length

/-! ### The invariant -/

/-- Rules R6, R21, R34, R37, R39 to R41, R46, R47, R49, R54, R232, R236, R241: every step keeps the invariant, "`snap` always equals
the live values" included, and changes no parameter. -/
def Obligations.EveryStepKeepsTheInvariant : Prop :=
  ∀ s t : State, Inv s → step s = .next t → Inv t ∧ t.params = s.params

/-- Rule R271: the invariant holds right after reset. -/
def Obligations.ResetMeetsTheInvariant : Prop := Inv State.reset

/-! ### The byte-string codec (20_memory.md) -/

/-- Rule R67: `OS2IP` is the big-endian sum of its bytes; `I2OSP(x, L)` has no value exactly when `x ≥ 256^L`, which the commands that
call it report as EncodingError, and is otherwise the one string of `L` bytes that stands for `x`. -/
def Obligations.CodecFramesByteStrings : Prop :=
  (∀ s : List Byte, os2ip s = ∑ i : Fin s.length, (s.get i).toNat * 256 ^ (s.length - 1 - i.val)) ∧
  (∀ x len : Nat, i2osp x len = none ↔ 256 ^ len ≤ x) ∧
  (∀ x len : Nat, x < 256 ^ len →
    ∃ b : List Byte, i2osp x len = some b ∧ b.length = len ∧ os2ip b = x ∧ ∀ b' : List Byte, b'.length = len → os2ip b' = x → b' = b)
end

