-- ==== Sys2Proof/Laws/Bytes.lean ====
section
/-! SUPPORT. The byte-string codec and the words of a big register: lengths, bounds and round trips (rules R63, R66, R67). -/

namespace Sys2Proof.Machine

theorem lt_two_pow_bitlen (x : Nat) : x < 2 ^ bitlen x := by
  unfold bitlen
  split
  · next h => simp [h]
  · exact Nat.lt_log2_self

@[simp] theorem bytesOf_length (len x : Nat) : (bytesOf len x).length = len := by
  induction len generalizing x with
  | zero => rfl
  | succ n ih => simp [bytesOf, ih]

theorem os2ip_append (s t : List Byte) : os2ip (s ++ t) = os2ip s * 256 ^ t.length + os2ip t := by
  have key : ∀ (t : List Byte) (acc : Nat),
      t.foldl (fun a b => a * 256 + b.toNat) acc = acc * 256 ^ t.length + os2ip t := by
    intro t
    induction t with
    | nil => intro acc; simp [os2ip]
    | cons b t ih =>
      intro acc
      simp only [List.foldl_cons, List.length_cons, os2ip]
      rw [ih, ih (0 * 256 + b.toNat)]
      ring
  simp only [os2ip, List.foldl_append]
  rw [key]
  simp [os2ip]

theorem os2ip_cons (b : Byte) (t : List Byte) : os2ip (b :: t) = b.toNat * 256 ^ t.length + os2ip t := by
  have := os2ip_append [b] t
  simpa [os2ip] using this

theorem os2ip_lt (s : List Byte) : os2ip s < 256 ^ s.length := by
  induction s with
  | nil => simp [os2ip]
  | cons b t ih =>
    rw [os2ip_cons, List.length_cons, Nat.pow_succ]
    have hb : b.toNat < 256 := b.isLt
    calc b.toNat * 256 ^ t.length + os2ip t < b.toNat * 256 ^ t.length + 256 ^ t.length := by omega
      _ = (b.toNat + 1) * 256 ^ t.length := by ring
      _ ≤ 256 * 256 ^ t.length := Nat.mul_le_mul_right _ hb
      _ = 256 ^ t.length * 256 := by ring

/-- `OS2IP(I2OSP(x, L)) = x` where `x` fits (rule R67). -/
theorem os2ip_bytesOf (len x : Nat) (h : x < 256 ^ len) : os2ip (bytesOf len x) = x := by
  induction len generalizing x with
  | zero => simp at h; simp [bytesOf, os2ip, h]
  | succ n ih =>
    have hx : x / 256 < 256 ^ n := by
      rw [Nat.div_lt_iff_lt_mul (by decide)]; rwa [Nat.pow_succ] at h
    rw [bytesOf, os2ip_append, ih _ hx]
    simp [os2ip]
    omega

/-- `I2OSP(OS2IP(s), len(s)) = s` (rule R67). -/
theorem bytesOf_os2ip (s : List Byte) : bytesOf s.length (os2ip s) = s := by
  induction s using List.reverseRecOn with
  | nil => rfl
  | append_singleton s b ih =>
    rw [List.length_append, List.length_singleton, bytesOf, os2ip_append]
    have hb : b.toNat < 256 := b.isLt
    have h1 : (os2ip s * 256 ^ [b].length + os2ip [b]) / 256 = os2ip s := by
      simp [os2ip]; omega
    have h2 : BitVec.ofNat 8 (os2ip s * 256 ^ [b].length + os2ip [b]) = b := by
      apply BitVec.eq_of_toNat_eq
      simp [os2ip, Nat.mod_eq_of_lt hb]
    rw [h1, h2, ih]

theorem i2osp_eq_some {x len : Nat} {s : List Byte} : i2osp x len = some s ↔ x < 256 ^ len ∧ s = bytesOf len x := by
  unfold i2osp
  split
  · next h => simp; omega
  · next h => simp only [Option.some.injEq]; constructor <;> intro h' <;> (try exact ⟨by omega, h'.symm⟩); exact h'.2.symm

theorem i2osp_eq_none {x len : Nat} : i2osp x len = none ↔ 256 ^ len ≤ x := by
  unfold i2osp
  split <;> simp <;> omega

/-- The codec's round trip, from the byte string (rule R67). -/
theorem i2osp_os2ip (s : List Byte) : i2osp (os2ip s) s.length = some s :=
  i2osp_eq_some.mpr ⟨os2ip_lt s, (bytesOf_os2ip s).symm⟩

@[simp] theorem xorBytes_length (s t : List Byte) : (xorBytes s t).length = min s.length t.length := by
  simp [xorBytes]

/-- Masking twice with the same mask gives the string back. -/
theorem xorBytes_cancel (s m : List Byte) (h : s.length ≤ m.length) : xorBytes (xorBytes s m) m = s := by
  induction s generalizing m with
  | nil => simp [xorBytes]
  | cons a s ih =>
    cases m with
    | nil => simp at h
    | cons b m =>
      have := ih m (by simpa using h)
      simp only [xorBytes] at this
      simp [xorBytes, this]

theorem wordOf_setWord_same (x j : Nat) (w : Word) : wordOf (setWord x j w) j = w := by
  apply BitVec.eq_of_toNat_eq
  have hw : w.toNat < 2 ^ 32 := w.isLt
  have hlow : x % 2 ^ (32 * j) < 2 ^ (32 * j) := Nat.mod_lt _ (by positivity)
  have hp : (2 : Nat) ^ (32 * (j + 1)) = 2 ^ 32 * 2 ^ (32 * j) := by rw [← Nat.pow_add]; ring_nf
  have : setWord x j w / 2 ^ (32 * j) = x / 2 ^ (32 * (j + 1)) * 2 ^ 32 + w.toNat := by
    unfold setWord
    rw [hp, show x / (2 ^ 32 * 2 ^ (32 * j)) * (2 ^ 32 * 2 ^ (32 * j)) + w.toNat * 2 ^ (32 * j) + x % 2 ^ (32 * j)
      = x % 2 ^ (32 * j) + 2 ^ (32 * j) * (x / (2 ^ 32 * 2 ^ (32 * j)) * 2 ^ 32 + w.toNat) by ring,
      Nat.add_mul_div_left _ _ (by positivity), Nat.div_eq_of_lt hlow]
    ring
  simpa [wordOf, this] using hw

/-- Replacing a word leaves every other word alone (rule R63). -/
theorem wordOf_setWord_other (x j k : Nat) (w : Word) (h : k ≠ j) : wordOf (setWord x j w) k = wordOf x k := by
  have hw : w.toNat < 2 ^ 32 := w.isLt
  have hlow : x % 2 ^ (32 * j) < 2 ^ (32 * j) := Nat.mod_lt _ (by positivity)
  have hp : (2 : Nat) ^ (32 * (j + 1)) = 2 ^ 32 * 2 ^ (32 * j) := by rw [← Nat.pow_add]; ring_nf
  apply BitVec.eq_of_toNat_eq
  simp only [wordOf, BitVec.toNat_ofNat]
  rcases Nat.lt_or_gt_of_ne h with hk | hk
  · -- below word j both integers agree modulo `2^(32·j)`
    have hmod : setWord x j w % 2 ^ (32 * j) = x % 2 ^ (32 * j) := by
      unfold setWord
      rw [hp, show x / (2 ^ 32 * 2 ^ (32 * j)) * (2 ^ 32 * 2 ^ (32 * j)) + w.toNat * 2 ^ (32 * j) + x % 2 ^ (32 * j)
        = x % 2 ^ (32 * j) + 2 ^ (32 * j) * (x / (2 ^ 32 * 2 ^ (32 * j)) * 2 ^ 32 + w.toNat) by ring,
        Nat.add_mul_mod_self_left, Nat.mod_mod]
    have hsplit : (2 : Nat) ^ (32 * j) = 2 ^ (32 * k) * 2 ^ 32 * 2 ^ (32 * (j - (k + 1))) := by
      rw [← Nat.pow_add, ← Nat.pow_add, ← show 32 * k + 32 + 32 * (j - (k + 1)) = 32 * j by omega]
    have key : ∀ y : Nat, y / 2 ^ (32 * k) % 2 ^ 32 = y % 2 ^ (32 * j) / 2 ^ (32 * k) % 2 ^ 32 := by
      intro y
      rw [← Nat.mod_mul_right_div_self, ← Nat.mod_mul_right_div_self (y % 2 ^ (32 * j)),
        Nat.mod_mod_of_dvd y ⟨_, hsplit⟩]
    rw [key, hmod, ← key]
  · -- above word j both integers have the same quotient
    have hsplit : (2 : Nat) ^ (32 * k) = 2 ^ (32 * (j + 1)) * 2 ^ (32 * (k - (j + 1))) := by
      rw [← Nat.pow_add, ← Nat.mul_add, Nat.add_sub_cancel' hk]
    have hlt : w.toNat * 2 ^ (32 * j) + x % 2 ^ (32 * j) < 2 ^ (32 * (j + 1)) := by
      rw [hp]
      calc w.toNat * 2 ^ (32 * j) + x % 2 ^ (32 * j) < w.toNat * 2 ^ (32 * j) + 2 ^ (32 * j) := by omega
        _ = (w.toNat + 1) * 2 ^ (32 * j) := by ring
        _ ≤ 2 ^ 32 * 2 ^ (32 * j) := Nat.mul_le_mul_right _ hw
    have hq : setWord x j w / 2 ^ (32 * (j + 1)) = x / 2 ^ (32 * (j + 1)) := by
      unfold setWord
      rw [show x / 2 ^ (32 * (j + 1)) * 2 ^ (32 * (j + 1)) + w.toNat * 2 ^ (32 * j) + x % 2 ^ (32 * j)
        = w.toNat * 2 ^ (32 * j) + x % 2 ^ (32 * j) + 2 ^ (32 * (j + 1)) * (x / 2 ^ (32 * (j + 1))) by ring,
        Nat.add_mul_div_left _ _ (by positivity), Nat.div_eq_of_lt hlt, Nat.zero_add]
    rw [hsplit, ← Nat.div_div_eq_div_mul, hq, Nat.div_div_eq_div_mul]

/-- A replaced word keeps the bound of the register (rule R63). -/
theorem setWord_lt (x j m : Nat) (w : Word) (hj : j < m) (hx : x < 2 ^ (32 * m)) : setWord x j w < 2 ^ (32 * m) := by
  have hw : w.toNat < 2 ^ 32 := w.isLt
  have hlow : x % 2 ^ (32 * j) < 2 ^ (32 * j) := Nat.mod_lt _ (by positivity)
  have hp : (2 : Nat) ^ (32 * (j + 1)) = 2 ^ 32 * 2 ^ (32 * j) := by rw [← Nat.pow_add]; ring_nf
  have hm : (2 : Nat) ^ (32 * m) = 2 ^ (32 * (m - (j + 1))) * 2 ^ (32 * (j + 1)) := by
    rw [← Nat.pow_add, ← Nat.mul_add, Nat.sub_add_cancel hj]
  have hq : x / 2 ^ (32 * (j + 1)) < 2 ^ (32 * (m - (j + 1))) := by
    rw [Nat.div_lt_iff_lt_mul (by positivity), ← hm]; exact hx
  unfold setWord
  have h1 : w.toNat * 2 ^ (32 * j) + x % 2 ^ (32 * j) < 2 ^ (32 * (j + 1)) := by
    rw [hp]
    calc w.toNat * 2 ^ (32 * j) + x % 2 ^ (32 * j) < w.toNat * 2 ^ (32 * j) + 2 ^ (32 * j) := by omega
      _ = (w.toNat + 1) * 2 ^ (32 * j) := by ring
      _ ≤ 2 ^ 32 * 2 ^ (32 * j) := Nat.mul_le_mul_right _ hw
  rw [hm]
  calc x / 2 ^ (32 * (j + 1)) * 2 ^ (32 * (j + 1)) + w.toNat * 2 ^ (32 * j) + x % 2 ^ (32 * j)
      < x / 2 ^ (32 * (j + 1)) * 2 ^ (32 * (j + 1)) + 2 ^ (32 * (j + 1)) := by omega
    _ = (x / 2 ^ (32 * (j + 1)) + 1) * 2 ^ (32 * (j + 1)) := by ring
    _ ≤ 2 ^ (32 * (m - (j + 1))) * 2 ^ (32 * (j + 1)) := Nat.mul_le_mul_right _ hq

end Sys2Proof.Machine
end

