-- ==== Sys2Proof/Laws/Arith.lean ====
section
/-! SUPPORT. What the arithmetic functions compute (rules R9, R116, R142, R170), said once for the proofs that use them. -/

namespace Sys2Proof.Machine

theorem powLoop_eq (n : Nat) (fuel acc b e : Nat) (he : e < 2 ^ fuel) (hacc : acc < n) :
    powLoop n fuel acc b e = acc * b ^ e % n := by
  induction fuel generalizing acc b e with
  | zero =>
    have : e = 0 := by simpa using he
    subst this
    simp [powLoop, Nat.mod_eq_of_lt hacc]
  | succ f ih =>
    have hn : 0 < n := by omega
    rw [powLoop]
    split
    · next h => subst h; simp [Nat.mod_eq_of_lt hacc]
    · next h =>
      have he2 : e / 2 < 2 ^ f := by rw [Nat.pow_succ] at he; omega
      have hsq : (b * b % n) ^ (e / 2) ≡ b ^ (2 * (e / 2)) [MOD n] := by
        rw [Nat.pow_mul, Nat.pow_two]
        exact (Nat.mod_modEq _ _).pow _
      by_cases ho : e % 2 = 1
      · simp only [ho, if_true]
        rw [ih _ _ _ he2 (Nat.mod_lt _ hn)]
        have hee : e = 2 * (e / 2) + 1 := by omega
        calc acc * b % n * (b * b % n) ^ (e / 2) % n
            = acc * b * b ^ (2 * (e / 2)) % n := ((Nat.mod_modEq _ _).mul hsq)
          _ = acc * b ^ e % n := by
            conv_rhs => rw [hee]
            ring_nf
      · simp only [ho, if_false]
        rw [ih _ _ _ he2 hacc]
        have hee : e = 2 * (e / 2) := by omega
        calc acc * (b * b % n) ^ (e / 2) % n = acc * b ^ (2 * (e / 2)) % n := (Nat.ModEq.refl acc).mul hsq
          _ = acc * b ^ e % n := by rw [← hee]

/-- The exponentiation computes `b^e mod N` (rule R116). -/
theorem powMod_eq (b e n : Nat) (hn : 0 < n) : powMod b e n = b ^ e % n := by
  unfold powMod
  by_cases h1 : n = 1
  · subst h1
    have key : ∀ fuel acc b e, acc = 0 → powLoop 1 fuel acc b e = 0 := by
      intro fuel
      induction fuel with
      | zero => intro acc b e h; simpa [powLoop] using h
      | succ f ih =>
        intro acc b e h
        rw [powLoop]
        split
        · exact h
        · split <;> exact ih _ _ _ (by simp [h])
    rw [key _ _ _ _ (by simp), Nat.mod_one]
  · have h1n : 1 % n = 1 := Nat.mod_eq_of_lt (by omega)
    rw [h1n, powLoop_eq n _ _ _ _ (lt_two_pow_bitlen e) (by omega), Nat.one_mul]

/-- The extended Euclidean loop keeps its coefficients below `m` and proportional to its remainders modulo `m`. -/
theorem inverseLoop_spec (m a : Nat) (fuel r0 x0 r1 x1 : Nat) (hfuel : r1 < fuel) (h0 : x0 < m) (h1 : x1 < m)
    (e0 : x0 * a ≡ r0 [MOD m]) (e1 : x1 * a ≡ r1 [MOD m]) :
    inverseLoop m fuel r0 x0 r1 x1 < m ∧ inverseLoop m fuel r0 x0 r1 x1 * a ≡ Nat.gcd r0 r1 [MOD m] := by
  have hm : 0 < m := by omega
  induction fuel generalizing r0 x0 r1 x1 with
  | zero => omega
  | succ f ih =>
    rw [inverseLoop]
    split
    · next h => subst h; simpa using ⟨h0, e0⟩
    · next h =>
      have hlt := Nat.mod_lt r0 (Nat.pos_of_ne_zero h)
      rw [show Nat.gcd r0 r1 = Nat.gcd r1 (r0 % r1) by rw [Nat.gcd_comm, Nat.gcd_rec, Nat.gcd_comm]]
      refine ih r1 x1 (r0 % r1) _ (by omega) h1 (Nat.mod_lt _ hm) e1 ?_
      -- the new coefficient belongs to the new remainder
      have hq : r0 / r1 * x1 % m ≤ m := (Nat.mod_lt _ hm).le
      have hsum : (x0 + (m - r0 / r1 * x1 % m)) * a + r0 / r1 * x1 % m * a ≡ r0 [MOD m] := by
        have : (x0 + (m - r0 / r1 * x1 % m)) * a + r0 / r1 * x1 % m * a = x0 * a + m * a := by
          rw [← Nat.add_mul, Nat.add_assoc, Nat.sub_add_cancel hq, Nat.add_mul]
        rw [this]
        refine Nat.ModEq.trans ?_ e0
        simp [Nat.ModEq]
      have hq1 : r0 / r1 * x1 % m * a ≡ r0 / r1 * r1 [MOD m] := by
        calc r0 / r1 * x1 % m * a ≡ r0 / r1 * x1 * a [MOD m] := (Nat.mod_modEq _ _).mul_right _
          _ = r0 / r1 * (x1 * a) := by ring
          _ ≡ r0 / r1 * r1 [MOD m] := Nat.ModEq.mul_left _ e1
      have hr0 : r0 % r1 + r0 / r1 * r1 = r0 := by rw [Nat.mul_comm]; exact Nat.mod_add_div r0 r1
      exact ((Nat.mod_modEq _ _).mul_right _).trans (Nat.ModEq.add_right_cancel hq1 (by rwa [hr0]))

/-- `ModInverse` answers exactly when `gcd(a mod m, m) = 1` (rule R170). -/
theorem modInverse_isSome (a m : Nat) : (modInverse a m).isSome = decide (Nat.gcd (a % m) m = 1) := by
  unfold modInverse
  split <;> simp [*]

/-- What `ModInverse` answers is an inverse below `m` (rule R170). -/
theorem modInverse_spec {a m x : Nat} (hm : 1 ≤ m) (h : modInverse a m = some x) : x < m ∧ a * x ≡ 1 [MOD m] := by
  unfold modInverse at h
  split at h
  · next hg =>
    have hx : inverseLoop m (m + 1) m 0 (a % m) (1 % m) = x := by simpa using h
    have hr := Nat.mod_lt a hm
    have := inverseLoop_spec m (a % m) (m + 1) m 0 (a % m) (1 % m) (by omega) hm (Nat.mod_lt _ hm)
      (by simp [Nat.ModEq]) (by simpa using (Nat.mod_modEq 1 m).mul_right (a % m))
    rw [hx, Nat.gcd_comm, hg] at this
    refine ⟨this.1, ?_⟩
    rw [Nat.mul_comm]
    exact ((Nat.mod_modEq a m).symm.mul_left x).trans this.2
  · simp at h

/-- `m - 1 = 2^t · s` with `s` odd, for what `Decompose` answers (rule R142). -/
theorem splitTwos_spec (fuel m : Nat) (hm : 0 < m) (hf : m < 2 ^ fuel) :
    m = 2 ^ (splitTwos fuel m).1 * (splitTwos fuel m).2 ∧ (splitTwos fuel m).2 % 2 = 1 := by
  induction fuel generalizing m with
  | zero => simp at hf; omega
  | succ f ih =>
    rw [splitTwos]
    split
    · next h =>
      have := ih (m / 2) (by omega) (by rw [Nat.pow_succ] at hf; omega)
      refine ⟨?_, this.2⟩
      simp only [Nat.pow_succ]
      calc m = 2 * (m / 2) := by omega
        _ = 2 * (2 ^ (splitTwos f (m / 2)).1 * (splitTwos f (m / 2)).2) := by rw [← this.1]
        _ = _ := by ring
    · next h => exact ⟨by simp, by omega⟩

theorem decompose_spec (n : Nat) (hn : 2 ≤ n) :
    n - 1 = 2 ^ (decompose n).1 * (decompose n).2 ∧ (decompose n).2 % 2 = 1 :=
  splitTwos_spec _ _ (by omega) (by have := lt_two_pow_bitlen n; omega)

end Sys2Proof.Machine
end

