-- ==== Sys2Proof/Laws/Draws.lean ====
section
/-! SUPPORT. The drawing functions without their fuel: each loop satisfies the equation of its pseudocode (rules R162, R163, R216,
R217), so that the fuel bounds nothing (log 14). -/

namespace Sys2Proof.Machine

theorem randWords_rest_length {k x : Nat} {ws rest : List Word} (h : randWords k ws = some (x, rest)) :
    rest.length + k = ws.length := by
  induction k generalizing ws x with
  | zero => simp [randWords] at h; simp [h.2]
  | succ k ih =>
    cases ws with
    | nil => simp [randWords] at h
    | cons w ws =>
      rw [randWords] at h
      split at h
      · simp at h
      · next y r hr =>
        simp only [Option.some.injEq, Prod.mk.injEq] at h
        obtain ⟨-, rfl⟩ := h
        have := ih hr
        simp; omega

/-- `RandBits(b)` takes exactly `ceil(b/32)` words (rule R216). -/
theorem randBits_rest_length {b x : Nat} {ws rest : List Word} (h : randBits b ws = some (x, rest)) :
    rest.length + (b + 31) / 32 = ws.length := by
  unfold randBits at h
  split at h
  · simp at h
  · next y r hr =>
    simp only [Option.some.injEq, Prod.mk.injEq] at h
    obtain ⟨-, rfl⟩ := h
    exact randWords_rest_length hr

theorem randBits_lt {b x : Nat} {ws rest : List Word} (h : randBits b ws = some (x, rest)) : x < 2 ^ b := by
  unfold randBits at h
  split at h
  · simp at h
  · simp only [Option.some.injEq, Prod.mk.injEq] at h
    rw [← h.1]
    exact Nat.mod_lt _ (by positivity)

/-- More trials than words give the same answer. -/
theorem drawUntilFuel_enough (b : Nat) (hb : 1 ≤ b) (accept : Nat → Bool) (f g : Nat) (ws : List Word)
    (hf : ws.length < f) (hg : ws.length < g) : drawUntilFuel b accept f ws = drawUntilFuel b accept g ws := by
  induction f generalizing g ws with
  | zero => omega
  | succ f ih =>
    cases g with
    | zero => omega
    | succ g =>
      simp only [drawUntilFuel]
      split
      · rfl
      · next x rest hr =>
        have := randBits_rest_length hr
        split
        · rfl
        · exact ih g rest (by omega) (by omega)

/-- `DrawUntil(b, P)` is its loop (rule R217). -/
theorem drawUntil_eq (b : Nat) (hb : 1 ≤ b) (accept : Nat → Bool) (ws : List Word) :
    drawUntil b accept ws =
      match randBits b ws with
      | none => none
      | some (x, rest) => if accept x then some (x, rest) else drawUntil b accept rest := by
  conv_lhs => unfold drawUntil
  rw [drawUntilFuel]
  rcases hr : randBits b ws with _ | ⟨x, rest⟩
  · rfl
  · have := randBits_rest_length hr
    by_cases ha : accept x = true
    · simp only [if_pos ha]
    · simp only [if_neg ha]
      exact drawUntilFuel_enough b hb accept _ _ rest (by omega) (by omega)

/-- What `DrawUntil` answers passed its test (rule R217). -/
theorem drawUntilFuel_accepts {b f x : Nat} {accept : Nat → Bool} {ws rest : List Word}
    (h : drawUntilFuel b accept f ws = some (x, rest)) : accept x = true ∧ x < 2 ^ b ∧ rest.length ≤ ws.length := by
  induction f generalizing ws with
  | zero => simp [drawUntilFuel] at h
  | succ f ih =>
    rw [drawUntilFuel] at h
    split at h
    · simp at h
    · next y r hr =>
      have hl := randBits_rest_length hr
      split at h
      · next ha =>
        simp only [Option.some.injEq, Prod.mk.injEq] at h
        obtain ⟨rfl, rfl⟩ := h
        exact ⟨ha, randBits_lt hr, by omega⟩
      · have := ih h
        exact ⟨this.1, this.2.1, by omega⟩

theorem drawUntil_accepts {b x : Nat} {accept : Nat → Bool} {ws rest : List Word}
    (h : drawUntil b accept ws = some (x, rest)) : accept x = true ∧ x < 2 ^ b ∧ rest.length ≤ ws.length :=
  drawUntilFuel_accepts h

theorem witnessRounds_rest_length {n t s rounds : Nat} {r : Bool} {ws rest : List Word}
    (h : witnessRounds n t s rounds ws = some (r, rest)) : rest.length ≤ ws.length := by
  induction rounds generalizing ws with
  | zero => simp [witnessRounds] at h; simp [h.2]
  | succ k ih =>
    rw [witnessRounds] at h
    split at h
    · simp at h
    · next a r' hr =>
      have := (drawUntil_accepts hr).2.2
      split at h
      · exact (ih h).trans this
      · simp only [Option.some.injEq, Prod.mk.injEq] at h
        rw [← h.2]; exact this

theorem isPrime_rest_length {n rounds : Nat} {r : Bool} {ws rest : List Word}
    (h : isPrime n rounds ws = some (r, rest)) : rest.length ≤ ws.length := by
  unfold isPrime at h
  split at h
  · simp at h; simp [h.2]
  · split at h
    · simp at h; simp [h.2]
    · split at h
      · simp at h; simp [h.2]
      · exact witnessRounds_rest_length h

theorem candidate_rest_length {ks x : Nat} {ws rest : List Word} (h : candidate ks ws = some (x, rest)) :
    rest.length + (ks + 31) / 32 = ws.length := by
  unfold candidate at h
  split at h
  · simp at h
  · next y r hr =>
    simp only [Option.some.injEq, Prod.mk.injEq] at h
    obtain ⟨-, rfl⟩ := h
    exact randBits_rest_length hr

theorem drawPrimeFuel_enough (ks rounds : Nat) (hk : 1 ≤ ks) (f g : Nat) (ws : List Word)
    (hf : ws.length < f) (hg : ws.length < g) : drawPrimeFuel ks rounds f ws = drawPrimeFuel ks rounds g ws := by
  induction f generalizing g ws with
  | zero => omega
  | succ f ih =>
    cases g with
    | zero => omega
    | succ g =>
      simp only [drawPrimeFuel]
      split
      · rfl
      · next x rest hr =>
        have := candidate_rest_length hr
        split
        · rfl
        · rfl
        · next rest' hp =>
          have := isPrime_rest_length hp
          exact ih g rest' (by omega) (by omega)

/-- `DrawPrime(KS, rounds)` is its loop (rule R162). -/
theorem drawPrime_eq (ks rounds : Nat) (hk : 1 ≤ ks) (ws : List Word) :
    drawPrime ks rounds ws =
      match candidate ks ws with
      | none => none
      | some (x, rest) =>
        match isPrime x rounds rest with
        | none => none
        | some (true, rest') => some (x, rest')
        | some (false, rest') => drawPrime ks rounds rest' := by
  conv_lhs => unfold drawPrime
  rw [drawPrimeFuel]
  rcases hr : candidate ks ws with _ | ⟨x, rest⟩
  · rfl
  · have := candidate_rest_length hr
    rcases hp : isPrime x rounds rest with _ | ⟨_ | _, rest'⟩
    · simp only [hp]
    · have := isPrime_rest_length hp
      simp only [hp]
      exact drawPrimeFuel_enough ks rounds hk _ _ rest' (by omega) (by omega)
    · simp only [hp]

theorem drawPrimeFuel_rest_length {ks rounds f x : Nat} (hk : 1 ≤ ks) {ws rest : List Word}
    (h : drawPrimeFuel ks rounds f ws = some (x, rest)) : rest.length < ws.length := by
  induction f generalizing ws with
  | zero => simp [drawPrimeFuel] at h
  | succ f ih =>
    rw [drawPrimeFuel] at h
    split at h
    · simp at h
    · next y r hr =>
      have := candidate_rest_length hr
      split at h
      · simp at h
      · next r' hp =>
        have := isPrime_rest_length hp
        simp only [Option.some.injEq, Prod.mk.injEq] at h
        obtain ⟨-, rfl⟩ := h
        omega
      · next r' hp =>
        have := isPrime_rest_length hp
        have := ih h
        omega

theorem drawOtherPrimeFuel_enough (ks rounds p : Nat) (hk : 1 ≤ ks) (f g : Nat) (ws : List Word)
    (hf : ws.length < f) (hg : ws.length < g) :
    drawOtherPrimeFuel ks rounds p f ws = drawOtherPrimeFuel ks rounds p g ws := by
  induction f generalizing g ws with
  | zero => omega
  | succ f ih =>
    cases g with
    | zero => omega
    | succ g =>
      simp only [drawOtherPrimeFuel]
      split
      · rfl
      · next q rest hr =>
        have := drawPrimeFuel_rest_length hk hr
        split
        · rfl
        · exact ih g rest (by omega) (by omega)

/-- The loop for the second prime (rule R163). -/
theorem drawOtherPrime_eq (ks rounds p : Nat) (hk : 1 ≤ ks) (ws : List Word) :
    drawOtherPrime ks rounds p ws =
      match drawPrime ks rounds ws with
      | none => none
      | some (q, rest) => if q ≠ p then some (q, rest) else drawOtherPrime ks rounds p rest := by
  conv_lhs => unfold drawOtherPrime
  rw [drawOtherPrimeFuel]
  rcases hr : drawPrime ks rounds ws with _ | ⟨q, rest⟩
  · rfl
  · have := drawPrimeFuel_rest_length hk hr
    by_cases hq : q ≠ p
    · simp only [if_pos hq]
    · simp only [if_neg hq]
      exact drawOtherPrimeFuel_enough ks rounds p hk _ _ rest (by omega) (by omega)

end Sys2Proof.Machine
end

