-- ==== Sys2Proof/Laws/Encoding.lean ====
section
/-! SUPPORT. A command word as a number: the fields of format C side by side (rule R90). -/

namespace Sys2Proof

/-- The word of format C is its fields at their places (rule R90). -/
theorem formatC_toNat (opc : Nat) (h : opc < 256) (rd rs1 rs2 rs3 : ZReg) :
    (formatC opc rd rs1 rs2 rs3).toNat
      = rs3.val * 2 ^ 20 + rs2.val * 2 ^ 16 + rs1.val * 2 ^ 12 + rd.val * 2 ^ 8 + opc := by
  have hd := rd.isLt
  have h1 := rs1.isLt
  have h2 := rs2.isLt
  have h3 := rs3.isLt
  have e : ∀ v k : Nat, v < 8 → k ≤ 20 → (BitVec.ofNat 32 v <<< k).toNat = v <<< k := by
    intro v k hv hk
    have : v * 2 ^ k < 2 ^ 32 := by
      calc v * 2 ^ k < 8 * 2 ^ k := by have := Nat.two_pow_pos k; nlinarith
        _ ≤ 8 * 2 ^ 20 := Nat.mul_le_mul_left _ (Nat.pow_le_pow_right (by decide) hk)
        _ < 2 ^ 32 := by decide
    rw [BitVec.toNat_shiftLeft, BitVec.toNat_ofNat, Nat.mod_eq_of_lt (show v < 2 ^ 32 by omega), Nat.shiftLeft_eq,
      Nat.mod_eq_of_lt this]
  have o : ∀ v k lo : Nat, lo < 2 ^ k → lo ||| v <<< k = v * 2 ^ k + lo := by
    intro v k lo hlo
    rw [Nat.or_comm, ← Nat.shiftLeft_add_eq_or_of_lt hlo, Nat.shiftLeft_eq]
  unfold formatC
  simp only [BitVec.toNat_or, e _ _ hd (by decide : 8 ≤ 20), e _ _ h1 (by decide : 12 ≤ 20),
    e _ _ h2 (by decide : 16 ≤ 20), e _ _ h3 (by decide : 20 ≤ 20), BitVec.toNat_ofNat]
  rw [Nat.mod_eq_of_lt (show opc < 2 ^ 32 by omega), o _ 8 _ (by omega), o _ 12 _ (by omega), o _ 16 _ (by omega),
    o _ 20 _ (by omega)]
  omega

end Sys2Proof
end

