-- ==== Sys2Proof/Laws/Hash.lean ====
section
/-! SUPPORT. The lengths of the byte strings of MGF1 and OAEP (rules R180, R182, R185). -/

namespace Sys2Proof.Machine

@[simp] theorem sha1_length (s : List Byte) : (sha1 s).length = hLen := by
  simp [sha1, sha1Bytes, hLen]

@[simp] theorem lHash_length : lHash.length = hLen := sha1_length []

@[simp] theorem be32_length (c : Nat) : (be32 c).length = 4 := bytesOf_length 4 c

@[simp] theorem mgf1_length (seed : List Byte) (len : Nat) : (mgf1 seed len).length = len := by
  have : ((List.range ((len + hLen - 1) / hLen)).flatMap (fun c => sha1 (seed ++ be32 c))).length
      = (len + hLen - 1) / hLen * hLen := by
    simp [List.length_flatMap]
  rw [mgf1, List.length_take, this]
  simp only [hLen]
  omega

/-- An encoded block is exactly `k` bytes (rule R185). -/
theorem oaepEncode_length (msg seed : List Byte) (k : Nat) (hseed : seed.length = hLen)
    (hk : msg.length + 2 * hLen + 2 ≤ k) : (oaepEncode msg k seed).length = k := by
  simp [oaepEncode, hseed]
  simp only [hLen] at *
  omega

theorem oaepSeed_length {ws : List Word} {seed : List Byte} (h : oaepSeed ws = some seed) : seed.length = hLen := by
  unfold oaepSeed at h
  split at h
  · simp only [Option.some.injEq] at h
    simp [← h, hLen]
  · simp at h

end Sys2Proof.Machine
end

