-- ==== Sys2Proof/Laws/State.lean ====
section
/-! SUPPORT. One lemma per field of State and named update: what the update leaves in that field. -/

namespace Sys2Proof.Machine

/-! ### `finish`, which ends every command (rule R233) -/

@[simp] theorem finish_params (code : ErrCode) (s : State) : (finish code s).params = s.params := rfl
@[simp] theorem finish_z (code : ErrCode) (s : State) : (finish code s).z = s.z := rfl
@[simp] theorem finish_ie (code : ErrCode) (s : State) : (finish code s).ie = s.ie := rfl
@[simp] theorem finish_rngsrc (code : ErrCode) (s : State) : (finish code s).rngsrc = s.rngsrc := rfl
@[simp] theorem finish_cmd (code : ErrCode) (s : State) : (finish code s).cmd = s.cmd := rfl
@[simp] theorem finish_done (code : ErrCode) (s : State) : (finish code s).done = true := rfl
@[simp] theorem finish_result (code : ErrCode) (s : State) : (finish code s).result = s.result := rfl
@[simp] theorem finish_overrun (code : ErrCode) (s : State) : (finish code s).overrun = s.overrun := rfl
@[simp] theorem finish_rngovf (code : ErrCode) (s : State) : (finish code s).rngovf = s.rngovf := rfl
@[simp] theorem finish_accerr (code : ErrCode) (s : State) : (finish code s).accerr = s.accerr := rfl
@[simp] theorem finish_errcode (code : ErrCode) (s : State) : (finish code s).errcode = code := rfl
@[simp] theorem finish_mrRounds (code : ErrCode) (s : State) : (finish code s).mrRounds = s.mrRounds := rfl
@[simp] theorem finish_keysize (code : ErrCode) (s : State) : (finish code s).keysize = s.keysize := rfl
@[simp] theorem finish_lena (code : ErrCode) (s : State) : (finish code s).lena = s.lena := rfl
@[simp] theorem finish_lenb (code : ErrCode) (s : State) : (finish code s).lenb = s.lenb := rfl
@[simp] theorem finish_fifo (code : ErrCode) (s : State) : (finish code s).fifo = s.fifo := rfl
@[simp] theorem finish_rngCount (code : ErrCode) (s : State) : (finish code s).rngCount = s.rngCount := rfl
@[simp] theorem finish_engine (code : ErrCode) (s : State) : (finish code s).engine = .idle := rfl
@[simp] theorem finish_schedule (code : ErrCode) (s : State) : (finish code s).schedule = s.schedule := rfl
@[simp] theorem finish_entropy (code : ErrCode) (s : State) : (finish code s).entropy = s.entropy := rfl
@[simp] theorem finish_entropyCount (code : ErrCode) (s : State) : (finish code s).entropyCount = s.entropyCount := rfl
@[simp] theorem finish_platformReads (code : ErrCode) (s : State) : (finish code s).platformReads = s.platformReads := rfl
@[simp] theorem finish_readData (code : ErrCode) (s : State) : (finish code s).readData = s.readData := rfl

/-! ### Success (rule R233) -/

@[simp] theorem completeOk_params (w : Writes) (s : State) : (completeOk w s).params = s.params := rfl
@[simp] theorem completeOk_z (w : Writes) (s : State) : (completeOk w s).z = applyZ s.z w.z := rfl
@[simp] theorem completeOk_ie (w : Writes) (s : State) : (completeOk w s).ie = s.ie := rfl
@[simp] theorem completeOk_rngsrc (w : Writes) (s : State) : (completeOk w s).rngsrc = s.rngsrc := rfl
@[simp] theorem completeOk_cmd (w : Writes) (s : State) : (completeOk w s).cmd = s.cmd := rfl
@[simp] theorem completeOk_done (w : Writes) (s : State) : (completeOk w s).done = true := rfl
@[simp] theorem completeOk_result (w : Writes) (s : State) : (completeOk w s).result = w.result.getD s.result := rfl
@[simp] theorem completeOk_overrun (w : Writes) (s : State) : (completeOk w s).overrun = s.overrun := rfl
@[simp] theorem completeOk_rngovf (w : Writes) (s : State) : (completeOk w s).rngovf = s.rngovf := rfl
@[simp] theorem completeOk_accerr (w : Writes) (s : State) : (completeOk w s).accerr = s.accerr := rfl
@[simp] theorem completeOk_errcode (w : Writes) (s : State) : (completeOk w s).errcode = .ok := rfl
@[simp] theorem completeOk_mrRounds (w : Writes) (s : State) : (completeOk w s).mrRounds = s.mrRounds := rfl
@[simp] theorem completeOk_keysize (w : Writes) (s : State) : (completeOk w s).keysize = s.keysize := rfl
@[simp] theorem completeOk_lena (w : Writes) (s : State) : (completeOk w s).lena = s.lena := rfl
@[simp] theorem completeOk_lenb (w : Writes) (s : State) : (completeOk w s).lenb = w.lenb.getD s.lenb := rfl
@[simp] theorem completeOk_fifo (w : Writes) (s : State) : (completeOk w s).fifo = s.fifo := rfl
@[simp] theorem completeOk_rngCount (w : Writes) (s : State) : (completeOk w s).rngCount = s.rngCount := rfl
@[simp] theorem completeOk_engine (w : Writes) (s : State) : (completeOk w s).engine = .idle := rfl
@[simp] theorem completeOk_schedule (w : Writes) (s : State) : (completeOk w s).schedule = s.schedule := rfl
@[simp] theorem completeOk_entropy (w : Writes) (s : State) : (completeOk w s).entropy = s.entropy := rfl
@[simp] theorem completeOk_entropyCount (w : Writes) (s : State) : (completeOk w s).entropyCount = s.entropyCount := rfl
@[simp] theorem completeOk_platformReads (w : Writes) (s : State) : (completeOk w s).platformReads = s.platformReads := rfl
@[simp] theorem completeOk_readData (w : Writes) (s : State) : (completeOk w s).readData = s.readData := rfl

/-! ### Error (rule R233) -/

@[simp] theorem completeError_params (code : ErrCode) (s : State) : (completeError code s).params = s.params := rfl
@[simp] theorem completeError_z (code : ErrCode) (s : State) : (completeError code s).z = s.z := rfl
@[simp] theorem completeError_ie (code : ErrCode) (s : State) : (completeError code s).ie = s.ie := rfl
@[simp] theorem completeError_rngsrc (code : ErrCode) (s : State) : (completeError code s).rngsrc = s.rngsrc := rfl
@[simp] theorem completeError_cmd (code : ErrCode) (s : State) : (completeError code s).cmd = s.cmd := rfl
@[simp] theorem completeError_done (code : ErrCode) (s : State) : (completeError code s).done = true := rfl
@[simp] theorem completeError_result (code : ErrCode) (s : State) : (completeError code s).result = s.result := rfl
@[simp] theorem completeError_overrun (code : ErrCode) (s : State) : (completeError code s).overrun = s.overrun := rfl
@[simp] theorem completeError_rngovf (code : ErrCode) (s : State) : (completeError code s).rngovf = s.rngovf := rfl
@[simp] theorem completeError_accerr (code : ErrCode) (s : State) : (completeError code s).accerr = s.accerr := rfl
@[simp] theorem completeError_errcode (code : ErrCode) (s : State) : (completeError code s).errcode = code := rfl
@[simp] theorem completeError_mrRounds (code : ErrCode) (s : State) : (completeError code s).mrRounds = s.mrRounds := rfl
@[simp] theorem completeError_keysize (code : ErrCode) (s : State) : (completeError code s).keysize = s.keysize := rfl
@[simp] theorem completeError_lena (code : ErrCode) (s : State) : (completeError code s).lena = s.lena := rfl
@[simp] theorem completeError_lenb (code : ErrCode) (s : State) : (completeError code s).lenb = s.lenb := rfl
@[simp] theorem completeError_fifo (code : ErrCode) (s : State) : (completeError code s).fifo = s.fifo := rfl
@[simp] theorem completeError_rngCount (code : ErrCode) (s : State) : (completeError code s).rngCount = s.rngCount := rfl
@[simp] theorem completeError_engine (code : ErrCode) (s : State) : (completeError code s).engine = .idle := rfl
@[simp] theorem completeError_schedule (code : ErrCode) (s : State) : (completeError code s).schedule = s.schedule := rfl
@[simp] theorem completeError_entropy (code : ErrCode) (s : State) : (completeError code s).entropy = s.entropy := rfl
@[simp] theorem completeError_entropyCount (code : ErrCode) (s : State) : (completeError code s).entropyCount = s.entropyCount := rfl
@[simp] theorem completeError_platformReads (code : ErrCode) (s : State) : (completeError code s).platformReads = s.platformReads := rfl
@[simp] theorem completeError_readData (code : ErrCode) (s : State) : (completeError code s).readData = s.readData := rfl

/-! ### The end of a completion record (rule R250) -/

@[simp] theorem clearDone_params (s : State) : (clearDone s).params = s.params := rfl
@[simp] theorem clearDone_z (s : State) : (clearDone s).z = s.z := rfl
@[simp] theorem clearDone_ie (s : State) : (clearDone s).ie = s.ie := rfl
@[simp] theorem clearDone_rngsrc (s : State) : (clearDone s).rngsrc = s.rngsrc := rfl
@[simp] theorem clearDone_cmd (s : State) : (clearDone s).cmd = s.cmd := rfl
@[simp] theorem clearDone_done (s : State) : (clearDone s).done = false := rfl
@[simp] theorem clearDone_result (s : State) : (clearDone s).result = s.result := rfl
@[simp] theorem clearDone_overrun (s : State) : (clearDone s).overrun = s.overrun := rfl
@[simp] theorem clearDone_rngovf (s : State) : (clearDone s).rngovf = s.rngovf := rfl
@[simp] theorem clearDone_accerr (s : State) : (clearDone s).accerr = s.accerr := rfl
@[simp] theorem clearDone_errcode (s : State) : (clearDone s).errcode = s.errcode := rfl
@[simp] theorem clearDone_mrRounds (s : State) : (clearDone s).mrRounds = s.mrRounds := rfl
@[simp] theorem clearDone_keysize (s : State) : (clearDone s).keysize = s.keysize := rfl
@[simp] theorem clearDone_lena (s : State) : (clearDone s).lena = s.lena := rfl
@[simp] theorem clearDone_lenb (s : State) : (clearDone s).lenb = s.lenb := rfl
@[simp] theorem clearDone_fifo (s : State) : (clearDone s).fifo = s.fifo := rfl
@[simp] theorem clearDone_rngCount (s : State) : (clearDone s).rngCount = s.rngCount := rfl
@[simp] theorem clearDone_engine (s : State) : (clearDone s).engine = s.engine := rfl
@[simp] theorem clearDone_schedule (s : State) : (clearDone s).schedule = s.schedule := rfl
@[simp] theorem clearDone_entropy (s : State) : (clearDone s).entropy = s.entropy := rfl
@[simp] theorem clearDone_entropyCount (s : State) : (clearDone s).entropyCount = s.entropyCount := rfl
@[simp] theorem clearDone_platformReads (s : State) : (clearDone s).platformReads = s.platformReads := rfl
@[simp] theorem clearDone_readData (s : State) : (clearDone s).readData = s.readData := rfl

/-! ### A refused access (rule R45) -/

@[simp] theorem refuseAccess_params (s : State) : (refuseAccess s).params = s.params := rfl
@[simp] theorem refuseAccess_z (s : State) : (refuseAccess s).z = s.z := rfl
@[simp] theorem refuseAccess_ie (s : State) : (refuseAccess s).ie = s.ie := rfl
@[simp] theorem refuseAccess_rngsrc (s : State) : (refuseAccess s).rngsrc = s.rngsrc := rfl
@[simp] theorem refuseAccess_cmd (s : State) : (refuseAccess s).cmd = s.cmd := rfl
@[simp] theorem refuseAccess_done (s : State) : (refuseAccess s).done = s.done := rfl
@[simp] theorem refuseAccess_result (s : State) : (refuseAccess s).result = s.result := rfl
@[simp] theorem refuseAccess_overrun (s : State) : (refuseAccess s).overrun = s.overrun := rfl
@[simp] theorem refuseAccess_rngovf (s : State) : (refuseAccess s).rngovf = s.rngovf := rfl
@[simp] theorem refuseAccess_accerr (s : State) : (refuseAccess s).accerr = true := rfl
@[simp] theorem refuseAccess_errcode (s : State) : (refuseAccess s).errcode = s.errcode := rfl
@[simp] theorem refuseAccess_mrRounds (s : State) : (refuseAccess s).mrRounds = s.mrRounds := rfl
@[simp] theorem refuseAccess_keysize (s : State) : (refuseAccess s).keysize = s.keysize := rfl
@[simp] theorem refuseAccess_lena (s : State) : (refuseAccess s).lena = s.lena := rfl
@[simp] theorem refuseAccess_lenb (s : State) : (refuseAccess s).lenb = s.lenb := rfl
@[simp] theorem refuseAccess_fifo (s : State) : (refuseAccess s).fifo = s.fifo := rfl
@[simp] theorem refuseAccess_rngCount (s : State) : (refuseAccess s).rngCount = s.rngCount := rfl
@[simp] theorem refuseAccess_engine (s : State) : (refuseAccess s).engine = s.engine := rfl
@[simp] theorem refuseAccess_schedule (s : State) : (refuseAccess s).schedule = s.schedule := rfl
@[simp] theorem refuseAccess_entropy (s : State) : (refuseAccess s).entropy = s.entropy := rfl
@[simp] theorem refuseAccess_entropyCount (s : State) : (refuseAccess s).entropyCount = s.entropyCount := rfl
@[simp] theorem refuseAccess_platformReads (s : State) : (refuseAccess s).platformReads = s.platformReads := rfl
@[simp] theorem refuseAccess_readData (s : State) : (refuseAccess s).readData = s.readData := rfl

/-! ### The FIFO flushed (rule R213) -/

@[simp] theorem flushFifo_params (s : State) : (flushFifo s).params = s.params := rfl
@[simp] theorem flushFifo_z (s : State) : (flushFifo s).z = s.z := rfl
@[simp] theorem flushFifo_ie (s : State) : (flushFifo s).ie = s.ie := rfl
@[simp] theorem flushFifo_rngsrc (s : State) : (flushFifo s).rngsrc = s.rngsrc := rfl
@[simp] theorem flushFifo_cmd (s : State) : (flushFifo s).cmd = s.cmd := rfl
@[simp] theorem flushFifo_done (s : State) : (flushFifo s).done = s.done := rfl
@[simp] theorem flushFifo_result (s : State) : (flushFifo s).result = s.result := rfl
@[simp] theorem flushFifo_overrun (s : State) : (flushFifo s).overrun = s.overrun := rfl
@[simp] theorem flushFifo_rngovf (s : State) : (flushFifo s).rngovf = s.rngovf := rfl
@[simp] theorem flushFifo_accerr (s : State) : (flushFifo s).accerr = s.accerr := rfl
@[simp] theorem flushFifo_errcode (s : State) : (flushFifo s).errcode = s.errcode := rfl
@[simp] theorem flushFifo_mrRounds (s : State) : (flushFifo s).mrRounds = s.mrRounds := rfl
@[simp] theorem flushFifo_keysize (s : State) : (flushFifo s).keysize = s.keysize := rfl
@[simp] theorem flushFifo_lena (s : State) : (flushFifo s).lena = s.lena := rfl
@[simp] theorem flushFifo_lenb (s : State) : (flushFifo s).lenb = s.lenb := rfl
@[simp] theorem flushFifo_fifo (s : State) : (flushFifo s).fifo = [] := rfl
@[simp] theorem flushFifo_rngCount (s : State) : (flushFifo s).rngCount = s.rngCount := rfl
@[simp] theorem flushFifo_engine (s : State) : (flushFifo s).engine = s.engine := rfl
@[simp] theorem flushFifo_schedule (s : State) : (flushFifo s).schedule = s.schedule := rfl
@[simp] theorem flushFifo_entropy (s : State) : (flushFifo s).entropy = s.entropy := rfl
@[simp] theorem flushFifo_entropyCount (s : State) : (flushFifo s).entropyCount = s.entropyCount := rfl
@[simp] theorem flushFifo_platformReads (s : State) : (flushFifo s).platformReads = s.platformReads := rfl
@[simp] theorem flushFifo_readData (s : State) : (flushFifo s).readData = s.readData := rfl

/-! ### An answer of the entropy source (rule R48) -/

@[simp] theorem entropyAnswer_params (w : Word) (s : State) : (entropyAnswer w s).params = s.params := rfl
@[simp] theorem entropyAnswer_z (w : Word) (s : State) : (entropyAnswer w s).z = s.z := rfl
@[simp] theorem entropyAnswer_ie (w : Word) (s : State) : (entropyAnswer w s).ie = s.ie := rfl
@[simp] theorem entropyAnswer_rngsrc (w : Word) (s : State) : (entropyAnswer w s).rngsrc = s.rngsrc := rfl
@[simp] theorem entropyAnswer_cmd (w : Word) (s : State) : (entropyAnswer w s).cmd = s.cmd := rfl
@[simp] theorem entropyAnswer_done (w : Word) (s : State) : (entropyAnswer w s).done = s.done := rfl
@[simp] theorem entropyAnswer_result (w : Word) (s : State) : (entropyAnswer w s).result = s.result := rfl
@[simp] theorem entropyAnswer_overrun (w : Word) (s : State) : (entropyAnswer w s).overrun = s.overrun := rfl
@[simp] theorem entropyAnswer_rngovf (w : Word) (s : State) : (entropyAnswer w s).rngovf = s.rngovf := rfl
@[simp] theorem entropyAnswer_accerr (w : Word) (s : State) : (entropyAnswer w s).accerr = s.accerr := rfl
@[simp] theorem entropyAnswer_errcode (w : Word) (s : State) : (entropyAnswer w s).errcode = s.errcode := rfl
@[simp] theorem entropyAnswer_mrRounds (w : Word) (s : State) : (entropyAnswer w s).mrRounds = s.mrRounds := rfl
@[simp] theorem entropyAnswer_keysize (w : Word) (s : State) : (entropyAnswer w s).keysize = s.keysize := rfl
@[simp] theorem entropyAnswer_lena (w : Word) (s : State) : (entropyAnswer w s).lena = s.lena := rfl
@[simp] theorem entropyAnswer_lenb (w : Word) (s : State) : (entropyAnswer w s).lenb = s.lenb := rfl
@[simp] theorem entropyAnswer_fifo (w : Word) (s : State) : (entropyAnswer w s).fifo = s.fifo := rfl
@[simp] theorem entropyAnswer_rngCount (w : Word) (s : State) : (entropyAnswer w s).rngCount = s.rngCount := rfl
@[simp] theorem entropyAnswer_engine (w : Word) (s : State) : (entropyAnswer w s).engine = s.engine := rfl
@[simp] theorem entropyAnswer_schedule (w : Word) (s : State) : (entropyAnswer w s).schedule = s.schedule := rfl
@[simp] theorem entropyAnswer_entropy (w : Word) (s : State) : (entropyAnswer w s).entropy = s.entropy ++ [w] := rfl
@[simp] theorem entropyAnswer_entropyCount (w : Word) (s : State) : (entropyAnswer w s).entropyCount = s.entropyCount := rfl
@[simp] theorem entropyAnswer_platformReads (w : Word) (s : State) : (entropyAnswer w s).platformReads = s.platformReads := rfl
@[simp] theorem entropyAnswer_readData (w : Word) (s : State) : (entropyAnswer w s).readData = s.readData := rfl

/-! ### A read outside the window (rule R61) -/

@[simp] theorem platformAnswer_params (bits addr : Nat) (s : State) : (platformAnswer bits addr s).params = s.params := rfl
@[simp] theorem platformAnswer_z (bits addr : Nat) (s : State) : (platformAnswer bits addr s).z = s.z := rfl
@[simp] theorem platformAnswer_ie (bits addr : Nat) (s : State) : (platformAnswer bits addr s).ie = s.ie := rfl
@[simp] theorem platformAnswer_rngsrc (bits addr : Nat) (s : State) : (platformAnswer bits addr s).rngsrc = s.rngsrc := rfl
@[simp] theorem platformAnswer_cmd (bits addr : Nat) (s : State) : (platformAnswer bits addr s).cmd = s.cmd := rfl
@[simp] theorem platformAnswer_done (bits addr : Nat) (s : State) : (platformAnswer bits addr s).done = s.done := rfl
@[simp] theorem platformAnswer_result (bits addr : Nat) (s : State) : (platformAnswer bits addr s).result = s.result := rfl
@[simp] theorem platformAnswer_overrun (bits addr : Nat) (s : State) : (platformAnswer bits addr s).overrun = s.overrun := rfl
@[simp] theorem platformAnswer_rngovf (bits addr : Nat) (s : State) : (platformAnswer bits addr s).rngovf = s.rngovf := rfl
@[simp] theorem platformAnswer_accerr (bits addr : Nat) (s : State) : (platformAnswer bits addr s).accerr = s.accerr := rfl
@[simp] theorem platformAnswer_errcode (bits addr : Nat) (s : State) : (platformAnswer bits addr s).errcode = s.errcode := rfl
@[simp] theorem platformAnswer_mrRounds (bits addr : Nat) (s : State) : (platformAnswer bits addr s).mrRounds = s.mrRounds := rfl
@[simp] theorem platformAnswer_keysize (bits addr : Nat) (s : State) : (platformAnswer bits addr s).keysize = s.keysize := rfl
@[simp] theorem platformAnswer_lena (bits addr : Nat) (s : State) : (platformAnswer bits addr s).lena = s.lena := rfl
@[simp] theorem platformAnswer_lenb (bits addr : Nat) (s : State) : (platformAnswer bits addr s).lenb = s.lenb := rfl
@[simp] theorem platformAnswer_fifo (bits addr : Nat) (s : State) : (platformAnswer bits addr s).fifo = s.fifo := rfl
@[simp] theorem platformAnswer_rngCount (bits addr : Nat) (s : State) : (platformAnswer bits addr s).rngCount = s.rngCount := rfl
@[simp] theorem platformAnswer_engine (bits addr : Nat) (s : State) : (platformAnswer bits addr s).engine = s.engine := rfl
@[simp] theorem platformAnswer_schedule (bits addr : Nat) (s : State) : (platformAnswer bits addr s).schedule = s.schedule := rfl
@[simp] theorem platformAnswer_entropy (bits addr : Nat) (s : State) : (platformAnswer bits addr s).entropy = s.entropy := rfl
@[simp] theorem platformAnswer_entropyCount (bits addr : Nat) (s : State) : (platformAnswer bits addr s).entropyCount = s.entropyCount := rfl
@[simp] theorem platformAnswer_platformReads (bits addr : Nat) (s : State) : (platformAnswer bits addr s).platformReads = s.platformReads + 1 := rfl
@[simp] theorem platformAnswer_readData (bits addr : Nat) (s : State) : (platformAnswer bits addr s).readData = Config.platformRead s.platformReads bits addr := rfl

/-! ### Reset (rules R271, R272) -/

@[simp] theorem softReset_params (s : State) : (softReset s).params = s.params := rfl
@[simp] theorem softReset_z (s : State) : (softReset s).z = Vector.replicate 8 0 := rfl
@[simp] theorem softReset_ie (s : State) : (softReset s).ie = false := rfl
@[simp] theorem softReset_rngsrc (s : State) : (softReset s).rngsrc = .entropy := rfl
@[simp] theorem softReset_cmd (s : State) : (softReset s).cmd = 0 := rfl
@[simp] theorem softReset_done (s : State) : (softReset s).done = false := rfl
@[simp] theorem softReset_result (s : State) : (softReset s).result = false := rfl
@[simp] theorem softReset_overrun (s : State) : (softReset s).overrun = false := rfl
@[simp] theorem softReset_rngovf (s : State) : (softReset s).rngovf = false := rfl
@[simp] theorem softReset_accerr (s : State) : (softReset s).accerr = false := rfl
@[simp] theorem softReset_errcode (s : State) : (softReset s).errcode = .ok := rfl
@[simp] theorem softReset_mrRounds (s : State) : (softReset s).mrRounds = 5 := rfl
@[simp] theorem softReset_keysize (s : State) : (softReset s).keysize = 0 := rfl
@[simp] theorem softReset_lena (s : State) : (softReset s).lena = 0 := rfl
@[simp] theorem softReset_lenb (s : State) : (softReset s).lenb = 0 := rfl
@[simp] theorem softReset_fifo (s : State) : (softReset s).fifo = [] := rfl
@[simp] theorem softReset_rngCount (s : State) : (softReset s).rngCount = 0 := rfl
@[simp] theorem softReset_engine (s : State) : (softReset s).engine = .idle := rfl
@[simp] theorem softReset_schedule (s : State) : (softReset s).schedule = s.schedule := rfl
@[simp] theorem softReset_entropy (s : State) : (softReset s).entropy = s.entropy := rfl
@[simp] theorem softReset_entropyCount (s : State) : (softReset s).entropyCount = s.entropyCount := rfl
@[simp] theorem softReset_platformReads (s : State) : (softReset s).platformReads = s.platformReads := rfl
@[simp] theorem softReset_readData (s : State) : (softReset s).readData = s.readData := rfl

/-! ### A word taken from its source (rules R47, R48) -/

@[simp] theorem dropOldest_params (c : Running) (s : State) : (dropOldest c s).params = s.params := by unfold dropOldest; split <;> rfl
@[simp] theorem dropOldest_z (c : Running) (s : State) : (dropOldest c s).z = s.z := by unfold dropOldest; split <;> rfl
@[simp] theorem dropOldest_ie (c : Running) (s : State) : (dropOldest c s).ie = s.ie := by unfold dropOldest; split <;> rfl
@[simp] theorem dropOldest_rngsrc (c : Running) (s : State) : (dropOldest c s).rngsrc = s.rngsrc := by unfold dropOldest; split <;> rfl
@[simp] theorem dropOldest_cmd (c : Running) (s : State) : (dropOldest c s).cmd = s.cmd := by unfold dropOldest; split <;> rfl
@[simp] theorem dropOldest_done (c : Running) (s : State) : (dropOldest c s).done = s.done := by unfold dropOldest; split <;> rfl
@[simp] theorem dropOldest_result (c : Running) (s : State) : (dropOldest c s).result = s.result := by unfold dropOldest; split <;> rfl
@[simp] theorem dropOldest_overrun (c : Running) (s : State) : (dropOldest c s).overrun = s.overrun := by unfold dropOldest; split <;> rfl
@[simp] theorem dropOldest_rngovf (c : Running) (s : State) : (dropOldest c s).rngovf = s.rngovf := by unfold dropOldest; split <;> rfl
@[simp] theorem dropOldest_accerr (c : Running) (s : State) : (dropOldest c s).accerr = s.accerr := by unfold dropOldest; split <;> rfl
@[simp] theorem dropOldest_errcode (c : Running) (s : State) : (dropOldest c s).errcode = s.errcode := by unfold dropOldest; split <;> rfl
@[simp] theorem dropOldest_mrRounds (c : Running) (s : State) : (dropOldest c s).mrRounds = s.mrRounds := by unfold dropOldest; split <;> rfl
@[simp] theorem dropOldest_keysize (c : Running) (s : State) : (dropOldest c s).keysize = s.keysize := by unfold dropOldest; split <;> rfl
@[simp] theorem dropOldest_lena (c : Running) (s : State) : (dropOldest c s).lena = s.lena := by unfold dropOldest; split <;> rfl
@[simp] theorem dropOldest_lenb (c : Running) (s : State) : (dropOldest c s).lenb = s.lenb := by unfold dropOldest; split <;> rfl
@[simp] theorem dropOldest_rngCount (c : Running) (s : State) : (dropOldest c s).rngCount = s.rngCount := by unfold dropOldest; split <;> rfl
@[simp] theorem dropOldest_engine (c : Running) (s : State) : (dropOldest c s).engine = s.engine := by unfold dropOldest; split <;> rfl
@[simp] theorem dropOldest_schedule (c : Running) (s : State) : (dropOldest c s).schedule = s.schedule := by unfold dropOldest; split <;> rfl
@[simp] theorem dropOldest_entropyCount (c : Running) (s : State) : (dropOldest c s).entropyCount = s.entropyCount := by unfold dropOldest; split <;> rfl
@[simp] theorem dropOldest_platformReads (c : Running) (s : State) : (dropOldest c s).platformReads = s.platformReads := by unfold dropOldest; split <;> rfl
@[simp] theorem dropOldest_readData (c : Running) (s : State) : (dropOldest c s).readData = s.readData := by unfold dropOldest; split <;> rfl

/-! ### The draw step (rule R232) -/

@[simp] theorem drawStep_params (c : Running) (s : State) : (drawStep c s).params = s.params := by unfold drawStep; split <;> simp
@[simp] theorem drawStep_z (c : Running) (s : State) : (drawStep c s).z = s.z := by unfold drawStep; split <;> simp
@[simp] theorem drawStep_ie (c : Running) (s : State) : (drawStep c s).ie = s.ie := by unfold drawStep; split <;> simp
@[simp] theorem drawStep_rngsrc (c : Running) (s : State) : (drawStep c s).rngsrc = s.rngsrc := by unfold drawStep; split <;> simp
@[simp] theorem drawStep_cmd (c : Running) (s : State) : (drawStep c s).cmd = s.cmd := by unfold drawStep; split <;> simp
@[simp] theorem drawStep_done (c : Running) (s : State) : (drawStep c s).done = s.done := by unfold drawStep; split <;> simp
@[simp] theorem drawStep_result (c : Running) (s : State) : (drawStep c s).result = s.result := by unfold drawStep; split <;> simp
@[simp] theorem drawStep_overrun (c : Running) (s : State) : (drawStep c s).overrun = s.overrun := by unfold drawStep; split <;> simp
@[simp] theorem drawStep_rngovf (c : Running) (s : State) : (drawStep c s).rngovf = s.rngovf := by unfold drawStep; split <;> simp
@[simp] theorem drawStep_accerr (c : Running) (s : State) : (drawStep c s).accerr = s.accerr := by unfold drawStep; split <;> simp
@[simp] theorem drawStep_errcode (c : Running) (s : State) : (drawStep c s).errcode = s.errcode := by unfold drawStep; split <;> simp
@[simp] theorem drawStep_mrRounds (c : Running) (s : State) : (drawStep c s).mrRounds = s.mrRounds := by unfold drawStep; split <;> simp
@[simp] theorem drawStep_keysize (c : Running) (s : State) : (drawStep c s).keysize = s.keysize := by unfold drawStep; split <;> simp
@[simp] theorem drawStep_lena (c : Running) (s : State) : (drawStep c s).lena = s.lena := by unfold drawStep; split <;> simp
@[simp] theorem drawStep_lenb (c : Running) (s : State) : (drawStep c s).lenb = s.lenb := by unfold drawStep; split <;> simp
@[simp] theorem drawStep_schedule (c : Running) (s : State) : (drawStep c s).schedule = s.schedule := by unfold drawStep; split <;> simp
@[simp] theorem drawStep_entropyCount (c : Running) (s : State) : (drawStep c s).entropyCount = s.entropyCount := by unfold drawStep; split <;> simp
@[simp] theorem drawStep_platformReads (c : Running) (s : State) : (drawStep c s).platformReads = s.platformReads := by unfold drawStep; split <;> simp
@[simp] theorem drawStep_readData (c : Running) (s : State) : (drawStep c s).readData = s.readData := by unfold drawStep; split <;> simp

/-! ### Abort (rule R212) -/

@[simp] theorem abort_params (s : State) : (abort s).params = s.params := by unfold abort; split <;> rfl
@[simp] theorem abort_z (s : State) : (abort s).z = s.z := by unfold abort; split <;> rfl
@[simp] theorem abort_ie (s : State) : (abort s).ie = s.ie := by unfold abort; split <;> rfl
@[simp] theorem abort_rngsrc (s : State) : (abort s).rngsrc = s.rngsrc := by unfold abort; split <;> rfl
@[simp] theorem abort_cmd (s : State) : (abort s).cmd = s.cmd := by unfold abort; split <;> rfl
@[simp] theorem abort_result (s : State) : (abort s).result = s.result := by unfold abort; split <;> rfl
@[simp] theorem abort_overrun (s : State) : (abort s).overrun = s.overrun := by unfold abort; split <;> rfl
@[simp] theorem abort_rngovf (s : State) : (abort s).rngovf = s.rngovf := by unfold abort; split <;> rfl
@[simp] theorem abort_accerr (s : State) : (abort s).accerr = s.accerr := by unfold abort; split <;> rfl
@[simp] theorem abort_mrRounds (s : State) : (abort s).mrRounds = s.mrRounds := by unfold abort; split <;> rfl
@[simp] theorem abort_keysize (s : State) : (abort s).keysize = s.keysize := by unfold abort; split <;> rfl
@[simp] theorem abort_lena (s : State) : (abort s).lena = s.lena := by unfold abort; split <;> rfl
@[simp] theorem abort_lenb (s : State) : (abort s).lenb = s.lenb := by unfold abort; split <;> rfl
@[simp] theorem abort_fifo (s : State) : (abort s).fifo = s.fifo := by unfold abort; split <;> rfl
@[simp] theorem abort_rngCount (s : State) : (abort s).rngCount = s.rngCount := by unfold abort; split <;> rfl
@[simp] theorem abort_schedule (s : State) : (abort s).schedule = s.schedule := by unfold abort; split <;> rfl
@[simp] theorem abort_entropy (s : State) : (abort s).entropy = s.entropy := by unfold abort; split <;> rfl
@[simp] theorem abort_entropyCount (s : State) : (abort s).entropyCount = s.entropyCount := by unfold abort; split <;> rfl
@[simp] theorem abort_platformReads (s : State) : (abort s).platformReads = s.platformReads := by unfold abort; split <;> rfl
@[simp] theorem abort_readData (s : State) : (abort s).readData = s.readData := by unfold abort; split <;> rfl

/-! ### Acceptance (rules R230, R231) -/

@[simp] theorem accept_params (w : Word) (s : State) : (accept w s).params = s.params := by unfold accept; dsimp only; split <;> rfl
@[simp] theorem accept_z (w : Word) (s : State) : (accept w s).z = s.z := by unfold accept; dsimp only; split <;> rfl
@[simp] theorem accept_ie (w : Word) (s : State) : (accept w s).ie = s.ie := by unfold accept; dsimp only; split <;> rfl
@[simp] theorem accept_rngsrc (w : Word) (s : State) : (accept w s).rngsrc = s.rngsrc := by unfold accept; dsimp only; split <;> rfl
@[simp] theorem accept_cmd (w : Word) (s : State) : (accept w s).cmd = w := by unfold accept; dsimp only; split <;> rfl
@[simp] theorem accept_result (w : Word) (s : State) : (accept w s).result = false := by unfold accept; dsimp only; split <;> rfl
@[simp] theorem accept_overrun (w : Word) (s : State) : (accept w s).overrun = s.overrun := by unfold accept; dsimp only; split <;> rfl
@[simp] theorem accept_rngovf (w : Word) (s : State) : (accept w s).rngovf = s.rngovf := by unfold accept; dsimp only; split <;> rfl
@[simp] theorem accept_accerr (w : Word) (s : State) : (accept w s).accerr = s.accerr := by unfold accept; dsimp only; split <;> rfl
@[simp] theorem accept_mrRounds (w : Word) (s : State) : (accept w s).mrRounds = s.mrRounds := by unfold accept; dsimp only; split <;> rfl
@[simp] theorem accept_keysize (w : Word) (s : State) : (accept w s).keysize = s.keysize := by unfold accept; dsimp only; split <;> rfl
@[simp] theorem accept_lena (w : Word) (s : State) : (accept w s).lena = s.lena := by unfold accept; dsimp only; split <;> rfl
@[simp] theorem accept_lenb (w : Word) (s : State) : (accept w s).lenb = s.lenb := by unfold accept; dsimp only; split <;> rfl
@[simp] theorem accept_fifo (w : Word) (s : State) : (accept w s).fifo = s.fifo := by unfold accept; dsimp only; split <;> rfl
@[simp] theorem accept_rngCount (w : Word) (s : State) : (accept w s).rngCount = 0 := by unfold accept; dsimp only; split <;> rfl
@[simp] theorem accept_schedule (w : Word) (s : State) : (accept w s).schedule = s.schedule := by unfold accept; dsimp only; split <;> rfl
@[simp] theorem accept_entropy (w : Word) (s : State) : (accept w s).entropy = s.entropy := by unfold accept; dsimp only; split <;> rfl
@[simp] theorem accept_entropyCount (w : Word) (s : State) : (accept w s).entropyCount = s.entropyCount := by unfold accept; dsimp only; split <;> rfl
@[simp] theorem accept_platformReads (w : Word) (s : State) : (accept w s).platformReads = s.platformReads := by unfold accept; dsimp only; split <;> rfl
@[simp] theorem accept_readData (w : Word) (s : State) : (accept w s).readData = s.readData := by unfold accept; dsimp only; split <;> rfl
/-! ### BUSY (rules R39, R54) -/

theorem busy_eq_false_iff (s : State) : s.busy = false ↔ s.engine = .idle := by
  unfold State.busy; cases s.engine <;> simp

theorem busy_eq_true_iff (s : State) : s.busy = true ↔ ∃ c, s.engine = .busy c := by
  unfold State.busy; cases s.engine <;> simp

end Sys2Proof.Machine
end

