-- ==== Sys2Proof/Laws/Lifecycle.lean ====
section
/-! SUPPORT. What one engine step, one host access and one step of the machine can do, each said once. -/

namespace Sys2Proof.Machine

/-- Every arm of exec is one engine step of the command's rule (rule R232). -/
theorem exec_eq_engineStep (i : Instr) (s : State) : exec i s = engineStep (runCommand i) s := by
  cases i <;> rfl

theorem engineStep_idle {run : CommandRun} {s : State} (h : s.engine = .idle) : engineStep run s = .next s := by
  simp [engineStep, h]

theorem engineStep_needWord {run : CommandRun} {s : State} {c : Running} (h : s.engine = .busy c)
    (hr : run s.params c.snap c.drawn = .needWord) : engineStep run s = .next (drawStep c s) := by
  simp [engineStep, h, hr]

theorem engineStep_success {run : CommandRun} {s : State} {c : Running} {w : Writes} (h : s.engine = .busy c)
    (hr : run s.params c.snap c.drawn = .success w) : engineStep run s = .next (completeOk w s) := by
  simp [engineStep, h, hr]

theorem engineStep_error {run : CommandRun} {s : State} {c : Running} {code : ErrCode} (h : s.engine = .busy c)
    (hr : run s.params c.snap c.drawn = .error code) : engineStep run s = .next (completeError code s) := by
  simp [engineStep, h, hr]

/-- An engine step always answers a next state: the engine has no trap (rule R249). -/
theorem engineStep_total (run : CommandRun) (s : State) : ∃ t, engineStep run s = .next t := by
  unfold engineStep
  split
  · exact ⟨_, rfl⟩
  · split <;> exact ⟨_, rfl⟩

/-- Everything an engine step can do. -/
theorem engineStep_cases {run : CommandRun} {s t : State} (h : engineStep run s = .next t) :
    (s.engine = .idle ∧ t = s) ∨
    ∃ c, s.engine = .busy c ∧
      ((run s.params c.snap c.drawn = .needWord ∧ t = drawStep c s) ∨
       (∃ w, run s.params c.snap c.drawn = .success w ∧ t = completeOk w s) ∨
       (∃ code, run s.params c.snap c.drawn = .error code ∧ t = completeError code s)) := by
  unfold engineStep at h
  split at h
  · next he => exact .inl ⟨he, by simpa using h.symm⟩
  · next c he =>
    refine .inr ⟨c, he, ?_⟩
    split at h
    · next hr => exact .inl ⟨hr, by simpa using h.symm⟩
    · next w hr => exact .inr (.inl ⟨w, hr, by simpa using h.symm⟩)
    · next code hr => exact .inr (.inr ⟨code, hr, by simpa using h.symm⟩)

/-- Everything a draw step can do: it waits, or it takes the oldest available word. -/
theorem drawStep_cases (c : Running) (s : State) :
    (available c s = [] ∧ drawStep c s = s) ∨
    ∃ w ws, available c s = w :: ws ∧
      drawStep c s = { dropOldest c s with
        engine := .busy { c with drawn := c.drawn ++ [w] }
        rngCount := countUp s.rngCount } := by
  unfold drawStep
  split
  · next h => exact .inl ⟨h, rfl⟩
  · next w ws h => exact .inr ⟨w, ws, h, rfl⟩

/-- The FIFO only ever loses words by a draw. -/
theorem dropOldest_fifo_length_le (c : Running) (s : State) : (dropOldest c s).fifo.length ≤ s.fifo.length := by
  unfold dropOldest
  split <;> simp

/-- Acceptance of a command (rules R230, R231). -/
theorem accept_command {w : Word} {i : Instr} (h : decode w = .ok i) (s : State) :
    accept w s = { s with
      cmd := w
      done := false
      result := false
      errcode := .ok
      rngCount := 0
      engine := .busy { cmd := w, snap := s.snapshot, drawn := [] } } := by
  simp [accept, h]

/-- A word that is no command completes at once (rule R231). -/
theorem accept_illegal {w : Word} {e : DecodeReject} (h : decode w = .error e) (s : State) :
    accept w s = finish .illegalCommand { s with cmd := w, done := false, result := false, errcode := .ok, rngCount := 0 } := by
  simp [accept, h]

/-- Everything a host access can do: it is outside the window (a read the platform answers, or a write), refused, or a
defined read or write. -/
theorem hostAccess_cases (a : Access) (s : State) :
    (∃ bits addr, hostAccess a s = .next (platformAnswer bits addr s)) ∨
    hostAccess a s = .next s ∨
    (∃ v, hostAccess a s = .next { refuseAccess s with readData := some v }) ∨
    hostAccess a s = .next (refuseAccess s) ∨
    (∃ off, hostAccess a s = .next { (readWindow off s).2 with readData := some (readWindow off s).1 }) ∨
    (∃ off v, hostAccess a s = .next (writeWindow off v s)) := by
  cases a with
  | read bits addr =>
    simp only [hostAccess]
    split
    · exact .inl ⟨bits, addr, rfl⟩
    · next off h =>
      by_cases hd : definedAccess bits off = true
      · exact .inr (.inr (.inr (.inr (.inl ⟨off, by simp [hd]⟩))))
      · exact .inr (.inr (.inl ⟨0, by simp [hd]⟩))
  | write bits addr v =>
    simp only [hostAccess]
    split
    · exact .inr (.inl rfl)
    · next off h =>
      by_cases hd : definedAccess bits off = true
      · exact .inr (.inr (.inr (.inr (.inr ⟨off, v, by simp [hd]⟩))))
      · exact .inr (.inr (.inr (.inl (by simp [hd]))))

/-- Everything one step can do (rule R72). -/
theorem step_cases (s : State) :
    (s.schedule = [] ∧ waitsForEntropy s = true ∧ step s = .next (entropyAnswerFree s)) ∨
    (s.schedule = [] ∧ waitsForEntropy s = false ∧ step s = engineTurn s) ∨
    (∃ a rest, s.schedule = .host a :: rest ∧ step s = hostAccess a { s with schedule := rest }) ∨
    (∃ rest, s.schedule = .engine :: rest ∧ step s = engineTurn { s with schedule := rest }) ∨
    (∃ w rest, s.schedule = .entropy w :: rest ∧ step s = .next (entropyAnswer w { s with schedule := rest })) ∨
    (∃ rest, s.schedule = .resetInput :: rest ∧ step s = .next (softReset { s with schedule := rest })) := by
  unfold step
  split
  · next h =>
    by_cases hw : waitsForEntropy s = true
    · exact .inl ⟨h, hw, by simp [hw]⟩
    · exact .inr (.inl ⟨h, by simpa using hw, by simp [hw]⟩)
  · next e rest h =>
    cases e with
    | host a => exact .inr (.inr (.inl ⟨a, rest, h, rfl⟩))
    | engine => exact .inr (.inr (.inr (.inl ⟨rest, h, rfl⟩)))
    | entropy w => exact .inr (.inr (.inr (.inr (.inl ⟨w, rest, h, rfl⟩))))
    | resetInput => exact .inr (.inr (.inr (.inr (.inr ⟨rest, h, rfl⟩))))

/-- Everything the engine's turn can do. -/
theorem engineTurn_cases (s : State) :
    (s.engine = .idle ∧ engineTurn s = .next s) ∨
    (∃ c i, s.engine = .busy c ∧ decode c.cmd = .ok i ∧ engineTurn s = engineStep (runCommand i) s) ∨
    (∃ c e, s.engine = .busy c ∧ decode c.cmd = .error e ∧ engineTurn s = .next (completeError .illegalCommand s)) := by
  unfold engineTurn
  split
  · next h => exact .inl ⟨h, rfl⟩
  · next c h =>
    split
    · next i hi => exact .inr (.inl ⟨c, i, h, hi, exec_eq_engineStep i s⟩)
    · next e he => exact .inr (.inr ⟨c, e, h, he, rfl⟩)

end Sys2Proof.Machine
end

