-- ==== Sys2Proof/Laws/PerInstr.lean ====
section
/-! SUPPORT. One lemma per command: its word passes the checks of rules R93, R94 and R96. -/

namespace Sys2Proof.Laws.EncodeWellFormed

/-- The encoded word of `i` is a well-formed command word (rules R93, R94, R96). -/
def Statement (i : Instr) : Prop := CommandWord.wf (encode i) = true

/-- A format C word whose opcode is known and whose unused fields are 0 is well formed. -/
theorem of_formatC (opc : Nat) (h : opc < 256) (rd rs1 rs2 rs3 : ZReg) (u : FieldUse) (hu : fieldUse opc = some u)
    (hrd : u.rd = true ∨ rd = 0) (h1 : u.rs1 = true ∨ rs1 = 0) (h2 : u.rs2 = true ∨ rs2 = 0)
    (h3 : u.rs3 = true ∨ rs3 = 0) : CommandWord.wf (formatC opc rd rs1 rs2 rs3) = true := by
  have hw := formatC_toNat opc h rd rs1 rs2 rs3
  have bd := rd.isLt
  have b1 := rs1.isLt
  have b2 := rs2.isLt
  have b3 := rs3.isLt
  have hopc : (formatC opc rd rs1 rs2 rs3).toNat % 256 = opc := by rw [hw]; omega
  have bit : ∀ k, (formatC opc rd rs1 rs2 rs3).toNat / 2 ^ k % 2 = 0 →
      (formatC opc rd rs1 rs2 rs3).getLsbD k = false := by
    intro k hk
    simp [BitVec.getLsbD, Nat.testBit_eq_decide_div_mod_eq, hk]
  have r11 := bit 11 (by rw [hw]; omega)
  have r15 := bit 15 (by rw [hw]; omega)
  have r19 := bit 19 (by rw [hw]; omega)
  have f : ∀ k (r : ZReg) (b : Bool), (formatC opc rd rs1 rs2 rs3).toNat / 2 ^ k % 8 = r.val → b = true ∨ r = 0 →
      (b || decide ((formatC opc rd rs1 rs2 rs3).toNat / 2 ^ k % 8 = 0)) = true := by
    intro k r b hk hb
    rcases hb with hb | hb
    · simp [hb]
    · simp [hk, hb]
  simp only [CommandWord.wf, CommandWord.opcodeKnown, CommandWord.reservedClear, CommandWord.unusedClear, hopc, hu, r11, r15, r19]
  simp only [Option.isSome_some, Bool.not_false, Bool.true_and, Bool.and_eq_true, decide_eq_true_eq]
  refine ⟨by rw [hw]; omega, ⟨⟨f 8 rd _ ?_ hrd, f 12 rs1 _ ?_ h1⟩, f 16 rs2 _ ?_ h2⟩, f 20 rs3 _ ?_ h3⟩ <;> (rw [hw]; omega)

theorem nop : Statement .nop := of_formatC 0x00 (by decide) 0 0 0 0 _ rfl (by simp) (by simp) (by simp) (by simp)
theorem zeroize : Statement .zeroize := of_formatC 0x01 (by decide) 0 0 0 0 _ rfl (by simp) (by simp) (by simp) (by simp)
theorem montmul (rd rs1 rs2 rs3 : ZReg) : Statement (.montmul rd rs1 rs2 rs3) :=
  of_formatC 0x10 (by decide) rd rs1 rs2 rs3 _ rfl (by simp) (by simp) (by simp) (by simp)
theorem modmul (rd rs1 rs2 rs3 : ZReg) : Statement (.modmul rd rs1 rs2 rs3) :=
  of_formatC 0x11 (by decide) rd rs1 rs2 rs3 _ rfl (by simp) (by simp) (by simp) (by simp)
theorem rsq (rd rs3 : ZReg) : Statement (.rsq rd rs3) :=
  of_formatC 0x12 (by decide) rd 0 0 rs3 _ rfl (by simp) (by simp) (by simp) (by simp)
theorem modexp (rd rs1 rs2 rs3 : ZReg) : Statement (.modexp rd rs1 rs2 rs3) :=
  of_formatC 0x13 (by decide) rd rs1 rs2 rs3 _ rfl (by simp) (by simp) (by simp) (by simp)
theorem gcd (rd rs1 rs2 : ZReg) : Statement (.gcd rd rs1 rs2) :=
  of_formatC 0x20 (by decide) rd rs1 rs2 0 _ rfl (by simp) (by simp) (by simp) (by simp)
theorem modinv (rd rs1 rs3 : ZReg) : Statement (.modinv rd rs1 rs3) :=
  of_formatC 0x21 (by decide) rd rs1 0 rs3 _ rfl (by simp) (by simp) (by simp) (by simp)
theorem isprime (rs1 : ZReg) : Statement (.isprime rs1) :=
  of_formatC 0x22 (by decide) 0 rs1 0 0 _ rfl (by simp) (by simp) (by simp) (by simp)
theorem keygen : Statement .keygen := of_formatC 0x30 (by decide) 0 0 0 0 _ rfl (by simp) (by simp) (by simp) (by simp)
theorem xor (rd rs1 rs2 : ZReg) : Statement (.xor rd rs1 rs2) :=
  of_formatC 0x40 (by decide) rd rs1 rs2 0 _ rfl (by simp) (by simp) (by simp) (by simp)
theorem mgf1 (rd rs1 : ZReg) : Statement (.mgf1 rd rs1) :=
  of_formatC 0x41 (by decide) rd rs1 0 0 _ rfl (by simp) (by simp) (by simp) (by simp)
theorem oaepEnc (rd rs1 : ZReg) : Statement (.oaepEnc rd rs1) :=
  of_formatC 0x42 (by decide) rd rs1 0 0 _ rfl (by simp) (by simp) (by simp) (by simp)
theorem oaepDec (rd rs1 : ZReg) : Statement (.oaepDec rd rs1) :=
  of_formatC 0x43 (by decide) rd rs1 0 0 _ rfl (by simp) (by simp) (by simp) (by simp)

end Sys2Proof.Laws.EncodeWellFormed
end

