-- ==== Sys2Proof/Laws/Window.lean ====
section
/-! SUPPORT. Host accesses at an offset of the window, whatever BASE is (rules R60, R64). -/

namespace Sys2Proof.Machine

@[simp] theorem windowOffset_base_add (p : Params) (off : Nat) (h : off < 0x1800) :
    windowOffset p (p.base + off) = some off := by
  simp [windowOffset, h]

theorem windowOffset_eq_none (p : Params) (addr : Nat) :
    windowOffset p addr = none ↔ ¬(p.base ≤ addr ∧ addr < p.base + 0x1800) := by
  unfold windowOffset
  split <;> simp [*]

/-- A defined read returns what the window holds (rule R64). -/
theorem hostAccess_read (s : State) (off : Nat) (h : off < 0x1800) (h4 : off % 4 = 0) :
    hostAccess (.read 32 (s.params.base + off)) s
      = .next { (readWindow off s).2 with readData := some (readWindow off s).1 } := by
  simp [hostAccess, h, definedAccess, h4]

/-- A defined write does what the window does (rule R64). -/
theorem hostAccess_write (s : State) (off : Nat) (v : Word) (h : off < 0x1800) (h4 : off % 4 = 0) :
    hostAccess (.write 32 (s.params.base + off) v) s = .next (writeWindow off v s) := by
  simp [hostAccess, h, definedAccess, h4]

/-- An access outside the window keeps the engine's state (rule R61). -/
theorem hostAccess_outside (s : State) (bits addr : Nat) (v : Word) (h : windowOffset s.params addr = none) :
    hostAccess (.read bits addr) s = .next (platformAnswer bits addr s) ∧ hostAccess (.write bits addr v) s = .next s := by
  simp [hostAccess, h]

/-- Any other access inside the window is refused (rule R64). -/
theorem hostAccess_undefined (s : State) (bits off : Nat) (v : Word) (h : off < 0x1800) (hd : definedAccess bits off = false) :
    hostAccess (.read bits (s.params.base + off)) s = .next { refuseAccess s with readData := some 0 } ∧
    hostAccess (.write bits (s.params.base + off) v) s = .next (refuseAccess s) := by
  simp [hostAccess, h, hd]

end Sys2Proof.Machine
end

