-- ==== Sys2Proof/Tests/Slice0.lean ====
section
/-! SUPPORT. The model's own tests: the well-formedness smoke, decoding of words written out from the spec, the spec's own vectors
(95_test_vectors.md), and for every statement with hypotheses a concrete state and operands that meet them. -/

namespace Sys2Proof.Tests

open Sys2Proof.Machine Sys2Proof.Certificates

set_option Elab.async false

/-! ### Small states -/

/-- The contents of Busy for `i` on the registers `regs`, with `ws` already drawn, in the state `cfg` makes of reset. -/
def running (i : Instr) (regs : List (ZReg × Nat)) (cfg : State → State) (ws : List Word) : Running :=
  { cmd := encode i, snap := (cfg { State.reset with z := applyZ State.reset.z regs }).snapshot, drawn := ws }

/-- The state in which that command runs. -/
def ready (i : Instr) (regs : List (ZReg × Nat)) (cfg : State → State) (ws : List Word) : State :=
  { cfg { State.reset with z := applyZ State.reset.z regs } with
    cmd := encode i
    rngCount := BitVec.ofNat 32 ws.length
    engine := .busy (running i regs cfg ws) }

theorem ready_busy (i : Instr) (regs : List (ZReg × Nat)) (cfg : State → State) (ws : List Word) :
    (ready i regs cfg ws).engine = .busy (running i regs cfg ws) := rfl

/-- The next state an outcome holds. -/
def next? : Host.Outcome State Fault Refusal → Option State
  | .next t => some t
  | _ => none

theorem next_of {o : Host.Outcome State Fault Refusal} {t : State} (h : next? o = some t) : o = .next t := by
  cases o <;> simp_all [next?]

/-- An outcome whose next state meets a test. -/
theorem exists_next {o : Host.Outcome State Fault Refusal} {p : State → Bool} (h : (next? o).any p = true) :
    ∃ t, o = .next t ∧ p t = true := by
  cases o <;> simp_all [next?]

/-- The next state of one engine step of a running command meets a test. -/
def after (i : Instr) (regs : List (ZReg × Nat)) (cfg : State → State) (ws : List Word) (p : State → Bool) : Bool :=
  (next? (exec i (ready i regs cfg ws))).any p

/-- A completion with a code and a value in a big register. -/
def ends (code : ErrCode) (r : ZReg) (v : Nat) (t : State) : Bool :=
  decide (t.engine = .idle) && t.done && decide (t.errcode = code) && decide (t.z[r] = v)

/-- The schedule `es` from reset. -/
def scheduled (es : List Event) : State := { State.reset with schedule := es }

/-- A host write of 32 bits as an event. -/
def wr (off : Nat) (v : Word) : Event := .host (.write 32 off v)
/-- A host read of 32 bits as an event. -/
def rd (off : Nat) : Event := .host (.read 32 off)

/-- One step, then a test. -/
def stepped (s : State) (p : State → Bool) : Bool := (next? (step s)).any p

/-! ### Well-formedness: an ill-formed word for each check -/

theorem test_wf_refuses_unknown_opcode : CommandWord.opcodeKnown 0x00000002 = false ∧ CommandWord.wf 0x00000002 = false := by decide
theorem test_wf_refuses_reserved_bits :
    CommandWord.wf 0x00000810 = false ∧ CommandWord.wf 0x00008010 = false ∧ CommandWord.wf 0x00080010 = false ∧
    CommandWord.wf 0x00800010 = false ∧ CommandWord.wf 0x80000010 = false ∧ CommandWord.reservedClear 0x00800010 = false := by decide
theorem test_wf_refuses_unused_fields :
    CommandWord.wf 0x00000130 = false ∧ CommandWord.wf 0x00001012 = false ∧ CommandWord.wf 0x00010022 = false ∧
    CommandWord.wf 0x00100020 = false ∧ CommandWord.unusedClear 0x00000130 = false := by decide
theorem test_wf_accepts_a_command : CommandWord.wf 0x00773713 = true := by decide

/-! ### Decoding: words written out from rules R90, R95 and R98 -/

theorem test_decode_nop : decode 0x00000000 = .ok .nop := by decide
theorem test_decode_zeroize : decode 0x00000001 = .ok .zeroize := by decide
theorem test_decode_montmul : decode 0x00310210 = .ok (.montmul 2 0 1 3) := by decide
theorem test_decode_modmul : decode 0x00654711 = .ok (.modmul 7 4 5 6) := by decide
theorem test_decode_rsq : decode 0x00600112 = .ok (.rsq 1 6) := by decide
theorem test_decode_modexp : decode 0x00012313 = .ok (.modexp 3 2 1 0) := by decide
theorem test_decode_gcd : decode 0x00054620 = .ok (.gcd 6 4 5) := by decide
theorem test_decode_modinv : decode 0x00701221 = .ok (.modinv 2 1 7) := by decide
theorem test_decode_isprime : decode 0x00005022 = .ok (.isprime 5) := by decide
theorem test_decode_keygen : decode 0x00000030 = .ok .keygen := by decide
theorem test_decode_xor : decode 0x00021340 = .ok (.xor 3 1 2) := by decide
theorem test_decode_mgf1 : decode 0x00006541 = .ok (.mgf1 5 6) := by decide
theorem test_decode_oaepEnc : decode 0x00003442 = .ok (.oaepEnc 4 3) := by decide
theorem test_decode_oaepDec : decode 0x00006743 = .ok (.oaepDec 7 6) := by decide
/-- One command is four bytes, lane 0 first (rules R65, R90). -/
theorem test_decode_bytes :
    decodeBytes [0x13, 0x23, 0x01, 0x00, 0xAA] = .ok (.modexp 3 2 1 0, [0xAA]) ∧ decodeBytes [0x13, 0x23] = .error .notOneWord := by
  decide
theorem test_decode_table_word : decodeTableWord 32 0x00012313 = some (.modexp 3 2 1 0) ∧ decodeTableWord 32 2 = none := by decide

/-! ### Vectors of 95_test_vectors.md, one engine step each -/

/-- M35: every field may name one register; the operands are those read at acceptance. -/
theorem test_montmul_M35 : after (.montmul 2 2 2 0) [(2, 2790), (0, 3233)] id [] (ends .ok 2 1827) = true := by decide +kernel
/-- M8: a modulus of 33 bits has two digits. -/
theorem test_montmul_M8 : after (.montmul 2 0 1 3) [(0, 2), (1, 3), (3, 2 ^ 32 + 15)] id [] (ends .ok 2 2462447925) = true := by
  decide +kernel
theorem test_modmul_M21 : after (.modmul 2 0 1 3) [(0, 65), (1, 65), (3, 3233)] id [] (ends .ok 2 992) = true := by decide +kernel
/-- M11's order: the even modulus is reported before the residues. -/
theorem test_modmul_even_modulus : after (.modmul 2 0 1 3) [(0, 20), (1, 20), (3, 12)] id [] (ends .modulusInvalid 2 0) = true := by
  decide +kernel
theorem test_rsq_M16 : after (.rsq 1 3) [(3, 2 ^ 32 + 15)] id [] (ends .ok 1 50625) = true := by decide +kernel
theorem test_rsq_M18 : after (.rsq 1 3) [(1, 9)] id [] (ends .modulusInvalid 1 9) = true := by decide +kernel
theorem test_modexp_M23 : after (.modexp 3 2 1 0) [(2, 4), (1, 13), (0, 497)] id [] (ends .ok 3 445) = true := by decide +kernel
/-- M30: the exponent is wider than the modulus. -/
theorem test_modexp_M30 : after (.modexp 3 2 1 0) [(2, 2), (1, 2 ^ 64), (0, 2 ^ 61 - 1)] id [] (ends .ok 3 65536) = true := by
  decide +kernel
theorem test_gcd_G2 : after (.gcd 2 0 1) [(0, 12), (1, 18)] id [] (ends .ok 2 6) = true := by decide +kernel
theorem test_gcd_G3 : after (.gcd 2 0 1) [(2, 5)] id [] (ends .ok 2 0) = true := by decide +kernel
theorem test_modinv_G5 : after (.modinv 2 0 3) [(0, 17), (3, 3120)] id [] (ends .ok 2 2753) = true := by decide +kernel
theorem test_modinv_G8 : after (.modinv 2 0 3) [(0, 5), (2, 7), (3, 1)] id [] (ends .ok 2 0) = true := by decide +kernel
/-- P-1: rejected bases, high bits discarded. -/
theorem test_isprime_P1 :
    after (.isprime 5) [(5, 101)] id [5, 0x63, 0x64, 0xFF, 0x12345602, 0x0A, 0x03] (fun t => t.result && ends .ok 5 101 t) = true := by
  decide +kernel
/-- P-6: the base 7 is a witness in the fourth round. -/
theorem test_isprime_P6 :
    after (.isprime 5) [(5, 25326001)] id [2, 3, 5, 7] (fun t => !t.result && ends .ok 5 25326001 t) = true := by decide +kernel
theorem test_keygen_K2 :
    after .keygen [] (fun s => { s with keysize := 4 }) [2, 2, 4, 7]
      (fun t => decide (t.z.toList = [143, 7, 103, 11, 13, 120, 0, 0])) = true := by decide +kernel
theorem test_keygen_K3 :
    after .keygen [] (fun s => { s with keysize := 8 })
      [0, 2, 7, 11, 13, 17, 19, 2, 3, 5, 6, 8, 9, 0xF6, 0x88, 0xFFFFFF02, 3, 4, 5, 7, 4, 0x00010003]
      (fun t => decide (t.z.toList = [17947, 3, 11787, 131, 137, 17680, 0, 0])) = true := by decide +kernel
theorem test_xor_X1 : after (.xor 2 0 1) [(0, 0x00FF), (1, 0x0F0F)] id [] (ends .ok 2 0x0FF0) = true := by decide +kernel
theorem test_mgf1_G1 :
    after (.mgf1 1 0) [(0, 0x000102030405060708090a0b0c0d0e0f10111213)] (fun s => { s with lena := 20, lenb := 23 }) []
      (ends .ok 1 0x028553d821db1e8d1bc66ba574c0e3103105293199f372) = true := by decide +kernel
/-- The block EM1 of vectors O1 and O4. -/
def em1 : Nat := 0x00648b3c712617d449f30768707d630f3c31a62f4bd8bcf0367fb055802993d44ae1a0fb809edd2e38989b1b
/-- The seed words of section 2.6. -/
def sWords : List Word := [0x00010203, 0x04050607, 0x08090A0B, 0x0C0D0E0F, 0x10111213]
theorem test_oaepEnc_O1 :
    after (.oaepEnc 4 3) [(3, 0x6869)] (fun s => { s with keysize := 176, lena := 2 }) sWords (ends .ok 4 em1) = true := by
  decide +kernel
/-- O14: the bound is compared as signed integers. -/
theorem test_oaepEnc_O14 :
    after (.oaepEnc 4 3) [] (fun s => { s with keysize := 160 }) [] (ends .messageTooLong 4 0) = true := by decide +kernel
theorem test_oaepDec_O4 :
    after (.oaepDec 7 6) [(6, em1)] (fun s => { s with keysize := 176 }) []
      (fun t => ends .ok 7 0x6869 t && decide (t.lenb = 2)) = true := by decide +kernel
/-- O9: the label hash matches and the leading byte is 1. -/
theorem test_oaepDec_O9 :
    after (.oaepDec 7 6) [(6, em1 + 256 ^ 43)] (fun s => { s with keysize := 176 }) [] (ends .paddingError 7 0) = true := by
  decide +kernel
/-- C-2. -/
theorem test_zeroize_C2 :
    after .zeroize [(0, 143), (7, 1)] (fun s => { s with lenb := 9 }) []
      (fun t => decide (t.z.toList = List.replicate 8 0) && decide (t.lenb = 9)) = true := by decide +kernel
/-- C-1. -/
theorem test_nop_C1 : after .nop [(7, 1)] id [] (fun t => ends .ok 7 1 t && decide (statusWord t = 2)) = true := by decide +kernel

/-! ### The window (sections 2.7 and P5) -/

/-- C-3: an unknown opcode completes at once. -/
theorem test_illegal_C3 :
    stepped (scheduled [wr 0x14 2]) (fun t => decide (statusWord t = 0x0902) && decide (t.cmd = 2)) = true := by decide +kernel
/-- P5: ISPRIME on 101^2 waits for its first base: BUSY and RNGWAIT. -/
theorem test_stalled_P5 :
    decide (statusWord (ready (.isprime 5) [(5, 10201)] (fun s => { s with rngsrc := .fifo }) []) = 0x11) = true := by decide +kernel
/-- C-11: IE is set, the change of RNGSRC refused, the command aborted, and IRQ rises. -/
theorem test_ctrl_C11 :
    (next? (hostWrite (ready (.isprime 5) [(5, 10201)] (fun s => { s with rngsrc := .fifo }) []) 0x10 5)).any
      (fun t => irq t && decide (statusWord t = 0x0C42) && decide (t.rngsrc = .fifo)) = true := by decide +kernel
/-- C-16 and C-17. -/
theorem test_param_C16 : stepped (scheduled [rd 0x8]) (fun t => decide (t.readData = some 0x08101440)) = true := by decide +kernel
theorem test_rounds_C17 : stepped (scheduled [wr 0x1C 3]) (fun t => decide (t.mrRounds = 5)) = true := by decide +kernel
/-- C-18, the second of its writes. -/
theorem test_words_C18 :
    stepped { scheduled [wr 0x1004 0x01234567] with z := State.reset.z.set 0 0x89ABCDEF }
      (fun t => decide (t.z[(0 : ZReg)] = 0x0123456789ABCDEF)) = true := by decide +kernel
/-- C-21. -/
theorem test_w1c_C21 :
    stepped { scheduled [wr 0x18 0x4A] with done := true, overrun := true, accerr := true, errcode := .noInverse }
      (fun t => decide (statusWord t = 0x0800)) = true := by decide +kernel
/-- C-13 and C-14. -/
theorem test_randbits :
    (randBits 7 [0x12345602]).map Prod.fst = some 2 ∧
    (randBits 40 [0x11111111, 0x22222222]).map Prod.fst = some 0x2211111111 := by decide +kernel

/-! ### Witnesses: a concrete state and operands that meet the hypotheses of each statement -/

/-- A running MONTMUL, its contents of Busy, and variants of them. -/
def sMont : State := ready (.montmul 2 0 1 3) [(0, 7), (1, 5), (3, 13)] id []
/-- What runs in `sMont`. -/
def cMont : Running := running (.montmul 2 0 1 3) [(0, 7), (1, 5), (3, 13)] id []
/-- ISPRIME on a prime, under the FIFO, waiting for its first base. -/
def sWait : State := ready (.isprime 5) [(5, 101)] (fun s => { s with rngsrc := .fifo }) []
/-- What runs in `sWait`. -/
def cWait : Running := running (.isprime 5) [(5, 101)] (fun s => { s with rngsrc := .fifo }) []
/-- The same under the entropy source. -/
def sAsk : State := ready (.isprime 5) [(5, 101)] id []
/-- What runs in `sAsk`. -/
def cAsk : Running := running (.isprime 5) [(5, 101)] id []
/-- A machine with the smallest big registers (rule R6). -/
def sSmall : State := State.resetOf { maxw := 16, fifoDepth := 1, base := 0x2000 }

theorem witness_EncodeAndDecodeAgree : decode 0x00773713 = .ok (.modexp 7 3 7 7) := by decide
theorem witness_EveryWordIsOneRowOrRejected :
    (opcodeRows.any fun r => r.matches 0x00773713) = true ∧ (opcodeRows.any fun r => r.matches 0x000000FF) = false := by decide
theorem witness_EngineTurnRunsTheDecodedCommand :
    { sMont with schedule := [.engine] }.engine = .busy cMont ∧ decode cMont.cmd = .ok (.montmul 2 0 1 3) ∧ sMont.schedule = [] ∧
    runCommand (.montmul 2 0 1 3) sMont.params cMont.snap cMont.drawn ≠ .needWord ∧
    sAsk.engine = .busy cAsk ∧ decode cAsk.cmd = .ok (.isprime 5) ∧ sAsk.schedule = [] ∧
    runCommand (.isprime 5) sAsk.params cAsk.snap cAsk.drawn = .needWord ∧ cAsk.snap.rngsrc = .entropy ∧ sAsk.entropy = [] := by
  decide +kernel
theorem witness_ScheduledEventsTakeEffectInOrder :
    (scheduled [rd 0x17FC]).schedule = .host (.read 32 0x17FC) :: [] ∧ (scheduled [.entropy 7]).schedule = .entropy 7 :: [] ∧
    (scheduled [.engine]).schedule = .engine :: [] ∧ (scheduled [.engine]).engine = .idle ∧
    State.reset.schedule = [] ∧ State.reset.engine = .idle := by decide +kernel
/-- The addresses just past the window's two ends, in a machine whose window is at 0x2000. -/
theorem witness_EveryStepAnswersANextState :
    { sSmall with schedule := [rd 0x3800] }.schedule = .host (.read 32 0x3800) :: [] ∧ ¬inWindow sSmall.params 0x3800 ∧
    { sSmall with schedule := [wr 0x1FFF 9] }.schedule = .host (.write 32 0x1FFF 9) :: [] ∧ ¬inWindow sSmall.params 0x1FFF ∧
    inWindow sSmall.params 0x37FF ∧ inWindow sSmall.params 0x2000 := by
  unfold inWindow
  decide +kernel
theorem witness_ResetPutsEveryRegisterAtItsValue :
    (0xFFFFFFFF : Word).getLsbD 3 = true ∧ { sMont with schedule := [.resetInput] }.schedule = .resetInput :: [] := by decide +kernel
theorem witness_CmdWriteAcceptsRejectsOrIsDropped :
    State.reset.engine = .idle ∧ CommandWord.wf 0x00005022 = true ∧ CommandWord.wf 0x00005122 = false ∧
    sMont.engine = .busy cMont := by decide +kernel
theorem witness_EngineStepDrawsWaitsOrCommits :
    sWait.engine = .busy cWait ∧ runCommand (.isprime 5) sWait.params cWait.snap cWait.drawn = .needWord ∧
    cWait.snap.rngsrc = .fifo ∧ sWait.fifo = [] ∧ { sWait with fifo := [9, 8] }.fifo = 9 :: [8] ∧
    sAsk.engine = .busy cAsk ∧ runCommand (.isprime 5) sAsk.params cAsk.snap cAsk.drawn = .needWord ∧
    cAsk.snap.rngsrc = .entropy ∧ sAsk.entropy = [] ∧ { sAsk with entropy := [9] }.entropy = 9 :: [] ∧
    sMont.engine = .busy cMont ∧
    runCommand (.montmul 2 0 1 3) sMont.params cMont.snap cMont.drawn = .success { z := [(2, 1)] } ∧
    runCommand (.montmul 2 0 1 3) sMont.params { cMont.snap with z := cMont.snap.z.set 3 12 } [] = .error .modulusInvalid := by
  decide +kernel
/-- A command that fails, for the statements about errors: M11. -/
def sFail : State := ready (.montmul 2 0 1 3) [(0, 20), (1, 20), (3, 12)] id []
theorem witness_FailedCommandsArePrecise :
    sFail.engine = .busy (running (.montmul 2 0 1 3) [(0, 20), (1, 20), (3, 12)] id []) ∧
    ∃ t, exec (.montmul 2 0 1 3) sFail = .next t ∧ (decide (t.engine = .idle) && decide (t.errcode ≠ .ok)) = true :=
  ⟨rfl, exists_next (by decide +kernel)⟩
theorem witness_CommandsWriteOnlyTheirDestinations :
    (∃ t, exec (.montmul 2 0 1 3) sMont = .next t ∧ (decide (t.z[(2 : ZReg)] = 1) && decide ((3 : ZReg) ∉ destinations (.montmul 2 0 1 3)))
      = true) ∧ drawsWords (.montmul 2 0 1 3) = false ∧
    ∃ t, exec (.isprime 5) { sWait with fifo := [9, 8] } = .next t ∧ decide (t.fifo = [8]) = true :=
  ⟨exists_next (by decide +kernel), rfl, exists_next (by decide +kernel)⟩
theorem witness_ResultsDependOnlyOnSnapshotAndWords :
    sMont.engine = .busy cMont ∧ { sMont with lenb := 3, z := State.reset.z }.engine = .busy cMont ∧
    sMont.params = { sMont with lenb := 3, z := State.reset.z }.params ∧
    (∃ t, exec (.montmul 2 0 1 3) sMont = .next t ∧ decide (t.engine = .idle) = true) ∧
    ∃ t, exec (.montmul 2 0 1 3) { sMont with lenb := 3, z := State.reset.z } = .next t ∧ decide (t.engine = .idle) = true :=
  ⟨rfl, rfl, rfl, exists_next (by decide +kernel), exists_next (by decide +kernel)⟩
theorem witness_ChecksComeBeforeDraws :
    runCommand (.oaepEnc 4 3) Params.reference (running (.oaepEnc 4 3) [] (fun s => { s with keysize := 160 }) []).snap []
      = .error .messageTooLong := by decide +kernel
theorem witness_AFinishNeedsNoFurtherWord :
    runCommand (.isprime 5) Params.reference (running (.isprime 5) [(5, 10403)] id []).snap [2] ≠ .needWord := by decide +kernel
theorem witness_UnreachableCodesAreNeverRaised :
    { sMont with schedule := [.engine] }.errcode ≠ .keyGenError ∧ { sMont with schedule := [.engine] }.errcode ≠ .keyRecordParseError ∧
    ∃ t, step { sMont with schedule := [.engine] } = .next t ∧ decide (t.engine = .idle) = true :=
  ⟨by decide, by decide, exists_next (by decide +kernel)⟩
theorem witness_CtrlWriteActsInOrder :
    (0xFFFFFFFF : Word).getLsbD 3 = true ∧ (0xFFFFFFF7 : Word).getLsbD 3 = false ∧ State.reset.engine = .idle ∧
    sMont.engine = .busy cMont := by decide +kernel
theorem witness_CompletionRaisesTheInterrupt :
    sMont.engine = .busy cMont ∧ (∃ t, exec (.montmul 2 0 1 3) sMont = .next t ∧ decide (t.engine = .idle) = true) ∧
    ((5 : Word).getLsbD 3 = false ∧ (5 : Word).getLsbD 2 = true) ∧
    (State.reset.engine = .idle ∧ CommandWord.wf 0x00005122 = false ∧ CommandWord.wf 0x00005022 = true) ∧
    (2 : Word).getLsbD 1 = true ∧ (0 : Word).getLsbD 0 = false ∧ (8 : Word).getLsbD 3 = true ∧
    (scheduled [.resetInput]).schedule = .resetInput :: [] :=
  ⟨rfl, exists_next (by decide +kernel), by decide, ⟨rfl, by decide, by decide⟩, by decide, by decide, by decide, rfl⟩
theorem witness_IdentityRegistersAreConstant : State.reset.params.wf = true ∧ sSmall.params.wf = true := by decide +kernel
theorem witness_ReservedOffsetsReadZero :
    0x00C % 4 = 0 ∧ (0x038 % 4 = 0 ∧ 0x038 ≤ 0x038 ∧ 0x038 < 0x1000) ∧ (0xFFC % 4 = 0 ∧ 0x038 ≤ 0xFFC ∧ 0xFFC < 0x1000) := by decide
theorem witness_BigRegisterWordsReadAndWrite :
    State.reset.engine = .idle ∧ 63 < 64 ∧ 63 < State.reset.params.maxw ∧ sSmall.engine = .idle ∧ 15 < sSmall.params.maxw ∧
    sSmall.params.maxw ≤ 16 ∧ sSmall.params.maxw ≤ 63 := by decide +kernel
theorem witness_BigRegisterIsTheSumOfItsWords : 2 ^ 512 - 1 < 2 ^ (32 * sSmall.params.maxw) := by decide +kernel
theorem witness_OperandsAreClosedWhileBusy :
    sMont.engine = .busy cMont ∧ (0x1000 ≤ 0x1000 ∧ 0x1000 < 0x1800 ∧ 0x1000 % 4 = 0) ∧
    (0x1000 ≤ 0x17FC ∧ 0x17FC < 0x1800 ∧ 0x17FC % 4 = 0) ∧ (0xFFC < 0x1000 ∧ 0xFFC % 4 = 0) := by decide +kernel
theorem witness_UndefinedAccessesAreRefused :
    (0x17FF < 0x1800 ∧ (32 ≠ 32 ∨ 0x17FF % 4 ≠ 0)) ∧ (0 < 0x1800 ∧ (64 ≠ 32 ∨ 0 % 4 ≠ 0)) := by decide
theorem witness_ConfigurationRegistersStoreTheirFields : State.reset.engine = .idle := rfl
theorem witness_RngDataFeedsTheFifo :
    sSmall.fifo.length < sSmall.params.fifoDepth ∧
    { sSmall with fifo := [1] }.params.fifoDepth ≤ { sSmall with fifo := [1] }.fifo.length ∧ sSmall.fifo.length ≤ 255 := by decide +kernel
theorem witness_NopCompletes : (ready .nop [] id []).engine = .busy (running .nop [] id []) := rfl
theorem witness_ZeroizeClearsEveryBigRegister : (ready .zeroize [(7, 1)] id []).engine = .busy (running .zeroize [(7, 1)] id []) := rfl

/-- The snapshot with three operands in Z0, Z1 and Z3. -/
def operands (a b n : Nat) : Snapshot := (running .nop [(0, a), (1, b), (3, n)] id []).snap

/-- MONTMUL and MODMUL: residues at their limit, an even modulus, a modulus below 3, a residue that equals the modulus. -/
theorem witness_Montmul_and_Modmul :
    (ready (.montmul 2 0 1 3) [(0, 12), (1, 12), (3, 13)] id []).engine
      = .busy (running (.montmul 2 0 1 3) [(0, 12), (1, 12), (3, 13)] id []) ∧
    (let c := operands 12 12 13; c.z[(3 : ZReg)] % 2 = 1 ∧ 3 ≤ c.z[(3 : ZReg)] ∧ c.z[(0 : ZReg)] < c.z[(3 : ZReg)] ∧ c.z[(1 : ZReg)] < c.z[(3 : ZReg)]) ∧
    (let c := operands 2 2 3; c.z[(3 : ZReg)] % 2 = 1 ∧ 3 ≤ c.z[(3 : ZReg)] ∧ c.z[(0 : ZReg)] < c.z[(3 : ZReg)] ∧ c.z[(1 : ZReg)] < c.z[(3 : ZReg)]) ∧
    (let c := operands 1 1 12; ¬(c.z[(3 : ZReg)] % 2 = 1 ∧ 3 ≤ c.z[(3 : ZReg)])) ∧
    (let c := operands 0 0 1; ¬(c.z[(3 : ZReg)] % 2 = 1 ∧ 3 ≤ c.z[(3 : ZReg)])) ∧
    (let c := operands 1 13 13; c.z[(3 : ZReg)] % 2 = 1 ∧ 3 ≤ c.z[(3 : ZReg)] ∧ (c.z[(3 : ZReg)] ≤ c.z[(0 : ZReg)] ∨ c.z[(3 : ZReg)] ≤ c.z[(1 : ZReg)])) ∧
    (let c := operands 13 1 13; c.z[(3 : ZReg)] % 2 = 1 ∧ 3 ≤ c.z[(3 : ZReg)] ∧ (c.z[(3 : ZReg)] ≤ c.z[(0 : ZReg)] ∨ c.z[(3 : ZReg)] ≤ c.z[(1 : ZReg)])) := by
  decide +kernel
/-- RSQ and MODEXP: the smallest modulus, an invalid one, a base that equals the modulus. -/
theorem witness_Rsq_and_Modexp :
    (ready (.rsq 1 3) [(3, 3)] id []).engine = .busy (running (.rsq 1 3) [(3, 3)] id []) ∧
    (let c := operands 2 0 3; c.z[(3 : ZReg)] % 2 = 1 ∧ 3 ≤ c.z[(3 : ZReg)] ∧ c.z[(0 : ZReg)] < c.z[(3 : ZReg)]) ∧
    (let c := operands 0 0 0; ¬(c.z[(3 : ZReg)] % 2 = 1 ∧ 3 ≤ c.z[(3 : ZReg)])) ∧
    (let c := operands 3 1 3; c.z[(3 : ZReg)] % 2 = 1 ∧ 3 ≤ c.z[(3 : ZReg)] ∧ c.z[(3 : ZReg)] ≤ c.z[(0 : ZReg)]) := by decide +kernel
theorem witness_Gcd_and_Xor :
    (ready (.gcd 2 0 1) [(0, 12), (1, 18)] id []).engine = .busy (running (.gcd 2 0 1) [(0, 12), (1, 18)] id []) ∧
    (ready (.xor 2 0 1) [(0, 12), (1, 18)] id []).engine = .busy (running (.xor 2 0 1) [(0, 12), (1, 18)] id []) := ⟨rfl, rfl⟩
/-- MODINV: an inverse, the modulus 1, the modulus 0, no inverse. -/
theorem witness_ModinvComputesTheInverse :
    (ready (.modinv 2 0 3) [(0, 20), (3, 11)] id []).engine = .busy (running (.modinv 2 0 3) [(0, 20), (3, 11)] id []) ∧
    (let c := operands 20 0 11; 1 ≤ c.z[(3 : ZReg)] ∧ Nat.gcd (c.z[(0 : ZReg)] % c.z[(3 : ZReg)]) c.z[(3 : ZReg)] = 1) ∧
    (let c := operands 5 0 1; 1 ≤ c.z[(3 : ZReg)] ∧ Nat.gcd (c.z[(0 : ZReg)] % c.z[(3 : ZReg)]) c.z[(3 : ZReg)] = 1) ∧
    (let c := operands 3 0 0; c.z[(3 : ZReg)] = 0) ∧
    (let c := operands 0 0 5; 1 ≤ c.z[(3 : ZReg)] ∧ Nat.gcd (c.z[(0 : ZReg)] % c.z[(3 : ZReg)]) c.z[(3 : ZReg)] ≠ 1) := by decide +kernel
theorem witness_ReferenceDatapathAgrees :
    13 % 2 = 1 ∧ 3 ≤ 13 ∧ 12 < 13 ∧ montMulCios 12 12 13 = 3 ∧ modMulMont 12 12 13 = 1 ∧ powModMont 12 5 13 = 12 := by decide +kernel
/-- The key of vector K1, on the largest residue. -/
theorem witness_RsaDecryptsWhatItEncrypts :
    Nat.Prime 11 ∧ Nat.Prime 13 ∧ 11 ≠ 13 ∧ 11 % 2 = 1 ∧ 13 % 2 = 1 ∧ 103 * 7 % ((11 - 1) * (13 - 1)) = 1 ∧ 142 < 11 * 13 ∧
    (ready (.modexp 2 0 1 3) [(0, 142), (1, 7), (3, 143)] id []).engine
      = .busy (running (.modexp 2 0 1 3) [(0, 142), (1, 7), (3, 143)] id []) ∧
    (operands 142 7 143).z[(0 : ZReg)] = 142 ∧ (operands 142 7 143).z[(1 : ZReg)] = 7 ∧ (operands 142 7 143).z[(3 : ZReg)] = 11 * 13 ∧
    ∃ t, exec (.modexp 2 0 1 3) (ready (.modexp 2 0 1 3) [(0, 142), (1, 7), (3, 143)] id []) = .next t ∧
      decide (t.z[(2 : ZReg)] = (operands 142 103 143).z[(0 : ZReg)]) = true :=
  ⟨by norm_num, by norm_num, by decide, by decide, by decide, by decide, by decide, rfl, by decide +kernel, by decide +kernel,
    by decide +kernel, exists_next (by decide +kernel)⟩
/-- The limits of the table: 100, and 9409 = 97^2. -/
theorem witness_IsprimeDecidesSmallValuesWithoutDraws :
    sAsk.engine = .busy cAsk ∧ (operands 100 0 0).z[(0 : ZReg)] ≤ 100 ∧ Nat.Prime 97 ∧ 97 < 100 ∧ 97 ∣ (operands 9409 0 0).z[(0 : ZReg)] ∧
    100 < (operands 9409 0 0).z[(0 : ZReg)] :=
  ⟨rfl, by decide +kernel, by norm_num, by decide, by decide +kernel, by decide +kernel⟩
/-- The smallest value that reaches the rounds: 101 = 2^2·25 + 1, of 7 bits, with bases 5, 99, 2, 10, 3 and the rejected 100. -/
theorem witness_IsprimeRunsEveryRound_prime :
    (2 ≤ 101 ∧ (∀ p, p.Prime → p < 100 → ¬p ∣ 101) ∧ 101 - 1 = 2 ^ 2 * 25 ∧ 25 % 2 = 1 ∧ 1 ≤ 7 ∧ 2 ^ (7 - 1) ≤ 101 ∧ 101 < 2 ^ 7) ∧
    (∀ ch ∈ ([[5], [0x63], [0x64], [2], [10], [3]] : List (List Word)), ch.length = (7 + 31) / 32) ∧
    ([] : List Word).length < (7 + 31) / 32 ∧
    (running (.isprime 5) [(5, 101)] id [5, 0x63, 0x64, 2, 10, 3]).drawn = ([[5], [0x63], [0x64], [2], [10], [3]] : List (List Word)).flatten ++ [] ∧
    (([[5], [0x63], [0x64], [2], [10], [3]] : List (List Word)).map (wordsValue 7)).filter (fun a => decide (2 ≤ a ∧ a ≤ 101 - 2))
      = [5, 99, 2, 10, 3] ∧ (running (.isprime 5) [(5, 101)] id []).snap.mrRounds.toNat ≤ 5 := by
  refine ⟨⟨by decide, ?_, by decide, by decide, by decide, by decide, by decide⟩, by decide, by decide, by decide, by decide +kernel, by decide +kernel⟩
  intro p hp h
  interval_cases p <;> first | omega | (norm_num at hp)
/-- `2^32 + 15` has 33 bits: after one whole draw, of two words, the engine stands inside the second one. -/
theorem witness_IsprimeRunsEveryRound_inside_a_draw :
    (2 ≤ 2 ^ 32 + 15 ∧ (∀ p, p.Prime → p < 100 → ¬p ∣ 2 ^ 32 + 15) ∧ 2 ^ 32 + 15 - 1 = 2 ^ 1 * 2147483655 ∧ 2147483655 % 2 = 1 ∧
      1 ≤ 33 ∧ 2 ^ (33 - 1) ≤ 2 ^ 32 + 15 ∧ 2 ^ 32 + 15 < 2 ^ 33) ∧
    (∀ ch ∈ ([[5, 0]] : List (List Word)), ch.length = (33 + 31) / 32) ∧ ([7] : List Word).length < (33 + 31) / 32 ∧
    (running (.isprime 5) [(5, 2 ^ 32 + 15)] id [5, 0, 7]).drawn = ([[5, 0]] : List (List Word)).flatten ++ [7] ∧
    after (.isprime 5) [(5, 2 ^ 32 + 15)] (fun s => { s with rngsrc := .fifo }) [5, 0, 7] (fun t => t.busy) = true := by
  refine ⟨⟨by decide, ?_, by decide, by decide, by decide, by decide, by decide⟩, by decide, by decide, by decide, by decide +kernel⟩
  intro p hp h
  interval_cases p <;> first | omega | (norm_num at hp)
/-- When `n - 1` has one factor 2, a base whose power is neither 1 nor `n - 1` is a witness. -/
theorem witness_of_power {n a odd : Nat} (hn : 0 < n) (h1 : powMod a odd n ≠ 1) (h2 : powMod a odd n ≠ n - 1) :
    ¬notWitness n a 1 odd := by
  rw [powMod_eq _ _ _ hn] at h1 h2
  rintro (h | ⟨j, hj, h⟩)
  · exact h1 h
  · obtain rfl : j = 0 := by omega
    rw [Nat.pow_zero, Nat.one_mul] at h
    exact h2 h
/-- Those bases are no witnesses, and 4 is a witness against 10403 = 2·5201 + 1 (both sides of the second condition). -/
theorem witness_IsprimeRunsEveryRound_rounds :
    (∀ a ∈ [5, 99, 2, 10, 3], notWitness 101 a 2 25) ∧ ¬notWitness 10403 2 1 5201 := by
  constructor
  · intro a ha
    fin_cases ha <;> first | exact .inl (by decide +kernel) | exact .inr ⟨0, by decide, by decide +kernel⟩ | exact .inr ⟨1, by decide, by decide +kernel⟩
  · exact witness_of_power (by decide) (by decide +kernel) (by decide +kernel)
theorem witness_IsprimeNeverRejectsAPrime :
    (running (.isprime 5) [(5, 101)] id []).snap.z[(5 : ZReg)] = 101 ∧ Nat.Prime 101 ∧
    ∃ t, exec (.isprime 5) (ready (.isprime 5) [(5, 101)] id [5, 0x63, 2, 10, 3]) = .next t ∧ decide (t.engine = .idle) = true :=
  ⟨by decide +kernel, by norm_num, exists_next (by decide +kernel)⟩
theorem witness_RandBitsAssemblesItsWords :
    1 ≤ 33 ∧ (33 + 31) / 32 ≤ ([7, 3] : List Word).length ∧ ([7] : List Word).length < (33 + 31) / 32 ∧ 1 ≤ 32 ∧
    (32 + 31) / 32 ≤ ([7] : List Word).length := by decide
theorem witness_DrawUntilTakesTheFirstAccepted :
    1 ≤ 7 ∧ drawUntil 7 (baseInRange 101) [0x64, 0xFF, 2, 3] = some (2, [3]) := by decide +kernel
theorem witness_KeygenRefusesAnIllegalKeySize :
    (ready .keygen [] id []).engine = .busy (running .keygen [] id []) ∧
    ¬legalKeySize Params.reference 0 ∧ ¬legalKeySize Params.reference 6 ∧ ¬legalKeySize Params.reference 1028 := by
  unfold legalKeySize
  decide +kernel
/-- The configuration with a key size. -/
def withKey (ks : Nat) (s : State) : State := { s with keysize := BitVec.ofNat 16 ks }
theorem witness_KeygenCommitsItsKeyPair :
    (running .keygen [] (withKey 4) [2, 4, 7]).snap.keysize = 4 ∧ State.reset.params.wf = true ∧
    legalKeySize Params.reference 4 ∧
    (drawPrime 4 5 [2, 4, 7] = some (11, [4, 7]) ∧ drawOtherPrime 4 5 11 [4, 7] = some (13, [7]) ∧
      (1 ≤ 7 ∧ 2 ^ (7 - 1) ≤ 120 ∧ 120 < 2 ^ 7) ∧
      drawUntil 7 (fun x => decide (2 ≤ x ∧ x ≤ 120 - 1 ∧ Nat.gcd x 120 = 1)) [7] = some (7, [])) ∧
    ((2 : Word).toNat % 16 ||| 9 = 11 ∧ (4 : Word).toNat % 16 ||| 9 = 13 ∧ 2 ≤ (119 : Word).toNat % 128 ∧ (119 : Word).toNat % 128 ≤ 119 ∧
      Nat.gcd ((119 : Word).toNat % 128) 120 = 1) := by
  unfold legalKeySize
  decide +kernel
/-- K3's first two candidates, 129 = 3·43 and 131, and the five bases its test takes from the nineteen words left. -/
theorem witness_KeygenCommitsItsKeyPair_candidates :
    candidateOf 8 [0, 2, 7] = 129 ∧ candidateOf 8 [2, 7] = 131 ∧ isPrime 129 5 [2, 7] = some (false, [2, 7]) ∧
    isPrime 131 5 [7, 11, 13, 17, 19, 2] = some (true, [2]) ∧ drawPrime 8 5 [0, 2, 7, 11, 13, 17, 19, 2] = some (131, [2]) := by
  decide +kernel
theorem witness_KeygenResultsMeetTheKeyInvariants :
    ∃ t, exec .keygen (ready .keygen [] (withKey 4) [2, 4, 7]) = .next t ∧
      (decide (t.engine = .idle) && decide (t.errcode = .ok)) = true := exists_next (by decide +kernel)
theorem witness_KeygenMayRunForEver :
    (ready .keygen [] (withKey 4) (List.replicate 3 2)).engine = .busy (running .keygen [] (withKey 4) (List.replicate 3 2)) ∧
    (ready .keygen [] (withKey 4) (List.replicate 3 2)).params.wf = true ∧
    (running .keygen [] (withKey 4) (List.replicate 3 2)).snap.keysize = 4 ∧
    (running .keygen [] (withKey 4) (List.replicate 3 2)).drawn = List.replicate 3 (2 : Word) := by decide +kernel
theorem witness_Mgf1MaskBytes : 19 < 21 ∧ 20 < 21 := by decide
/-- The seed of 256 bytes at the limit, the empty seed, and each of the three errors. -/
theorem witness_Mgf1CommandWritesTheMask :
    (ready (.mgf1 1 0) [] id []).engine = .busy (running (.mgf1 1 0) [] id []) ∧
    (256 ≤ 4 * Params.reference.maxw ∧ (List.replicate 256 (0xFF : Byte)).length = 256 ∧
      os2ip (List.replicate 256 (0xFF : Byte)) = 256 ^ 256 - 1) ∧ os2ip [] = 0 ∧
    4 * Params.reference.maxw < 257 ∧ 256 ^ 1 ≤ 0x100 := by decide +kernel
/-- Each clause of OAEP_ENC, at k = 44: an illegal size, three bytes of message, a value of 256^2, four words, and O1's inputs. -/
theorem witness_OaepEncWritesTheBlock :
    (ready (.oaepEnc 4 3) [(3, 0x6869)] (withKey 176) sWords).engine = .busy (running (.oaepEnc 4 3) [(3, 0x6869)] (withKey 176) sWords) ∧
    ¬legalKeySize Params.reference 0 ∧ legalKeySize Params.reference 176 ∧ 176 / 4 < 3 + 42 ∧
    (2 + 42 ≤ 176 / 4 ∧ 256 ^ 2 ≤ 0x10000 ∧ 0x6869 < 256 ^ 2 ∧ (sWords.take 4).length < 5) ∧
    (([0x68, 0x69] : List Byte).length = 2 ∧ os2ip [0x68, 0x69] = 0x6869 ∧
      sWords = [0x00010203, 0x04050607, 0x08090A0B, 0x0C0D0E0F, 0x10111213] ∧
      (bytesOf 20 0x000102030405060708090A0B0C0D0E0F10111213).length = 20 ∧
      os2ip (bytesOf 20 0x000102030405060708090A0B0C0D0E0F10111213)
        = 0x00010203 * 2 ^ 128 + 0x04050607 * 2 ^ 96 + 0x08090A0B * 2 ^ 64 + 0x0C0D0E0F * 2 ^ 32 + 0x10111213) := by
  unfold legalKeySize
  decide +kernel
/-- The block of O1, whose message fills its capacity. -/
theorem witness_OaepDecRecoversTheMessage :
    legalKeySize Params.reference 176 ∧ ([0x68, 0x69] : List Byte).length + 42 ≤ 176 / 4 ∧ (bytesOf 20 0x000102030405060708090A0B0C0D0E0F10111213).length = 20 ∧
    (running (.oaepDec 7 6) [(6, em1)] (withKey 176) []).snap.keysize.toNat = 176 ∧
    (running (.oaepDec 7 6) [(6, em1)] (withKey 176) []).snap.z[(6 : ZReg)]
      = os2ip (oaepEncode [0x68, 0x69] 44 (bytesOf 20 0x000102030405060708090A0B0C0D0E0F10111213)) := by
  unfold legalKeySize
  decide +kernel
theorem witness_OaepDecAcceptsOnlyEncodedBlocks :
    ∃ t, exec (.oaepDec 7 6) (ready (.oaepDec 7 6) [(6, em1)] (withKey 176) []) = .next t ∧
      (decide (t.engine = .idle) && decide (t.errcode = .ok)) = true := exists_next (by decide +kernel)
/-- O16, O17, O7, O9, O10b and O10: a block for each clause. -/
theorem witness_OaepDecErrorsInOrder :
    (ready (.oaepDec 7 6) [(6, em1)] (withKey 176) []).engine = .busy (running (.oaepDec 7 6) [(6, em1)] (withKey 176) []) ∧
    (legalKeySize Params.reference 160 ∧ ¬42 ≤ 160 / 4) ∧ (legalKeySize Params.reference 176 ∧ 42 ≤ 176 / 4) ∧ 256 ^ 44 ≤ 256 ^ 44 ∧
    (let em := bytesOf 44 (em1 ^^^ 2 ^ (8 * 13)); (0x00 :: em.tail).length = 44 ∧ os2ip (0x00 :: em.tail) = em1 ^^^ 2 ^ (8 * 13) ∧
      (unmaskedDb (0x00 :: em.tail) 44).take 20 ≠ lHash) ∧
    (let em := bytesOf 44 em1; (0x01 :: em.tail).length = 44 ∧ (unmaskedDb (0x01 :: em.tail) 44).take 20 = lHash ∧ (0x01 : Byte) ≠ 0x00) ∧
    (let em := bytesOf 44 0x001b3ebd26d9f534ce58516cc978a1114310159e18d8bcf0367fb055802993d44ae1a0fb809edd2e3899f372;
      (unmaskedDb (0x00 :: em.tail) 44).take 20 = lHash ∧ (∀ b ∈ (unmaskedDb (0x00 :: em.tail) 44).drop 20, b = 0x00)) ∧
    (let em := bytesOf 44 0x00b1f0cae53ecfe9f37ad4ed0e63902fd519531b34d8bcf0367fb055802993d44ae1a0fb809edd2e3899f11a;
      (unmaskedDb (0x00 :: em.tail) 44).take 20 = lHash ∧
      (unmaskedDb (0x00 :: em.tail) 44).drop 20 = List.replicate 1 0x00 ++ 0x02 :: [0x68] ∧ (0x02 : Byte) ≠ 0x00 ∧ (0x02 : Byte) ≠ 0x01) := by
  unfold legalKeySize
  decide +kernel

/-- R68's example, and the limit of one byte. -/
theorem witness_CodecFramesByteStrings :
    os2ip [0x68, 0x69] = 0x6869 ∧ i2osp 0x6869 2 = some [0x68, 0x69] ∧ 255 < 256 ^ 1 ∧ 256 ^ 1 ≤ 256 ∧ 0 < 256 ^ 0 := by decide +kernel

/-! A key of 168-bit primes for the round trip, the smallest size at which OAEP_ENC accepts a message. -/

/-- Lucas's test with the prime factors 2 and 3 of `p - 1`. -/
theorem prime_of_lucas (p a x y : Nat) (hp : 2 ≤ p) (hxy : p - 1 = 2 ^ x * 3 ^ y) (h1 : powMod a (p - 1) p = 1)
    (h2 : powMod a ((p - 1) / 2) p ≠ 1) (h3 : powMod a ((p - 1) / 3) p ≠ 1) : p.Prime := by
  have cast_pow : ∀ k, ((a : ZMod p)) ^ k = ((powMod a k p : Nat) : ZMod p) := by
    intro k
    rw [powMod_eq _ _ _ (by omega), ZMod.natCast_mod, Nat.cast_pow]
  have one_iff : ∀ k, ((a : ZMod p)) ^ k = 1 → powMod a k p = 1 := by
    intro k hk
    rw [cast_pow, ← Nat.cast_one, ZMod.natCast_eq_natCast_iff] at hk
    have hlt : powMod a k p < p := by rw [powMod_eq _ _ _ (by omega)]; exact Nat.mod_lt _ (by omega)
    rwa [Nat.ModEq, Nat.mod_eq_of_lt hlt, Nat.mod_eq_of_lt (by omega)] at hk
  refine lucas_primality p (a : ZMod p) (by rw [cast_pow, h1, Nat.cast_one]) fun q hq hd => ?_
  rw [hxy] at hd
  rcases (Nat.Prime.dvd_mul hq).1 hd with h | h
  · obtain rfl := (Nat.prime_dvd_prime_iff_eq hq Nat.prime_two).1 (hq.dvd_of_dvd_pow h)
    exact fun h => h2 (one_iff _ h)
  · obtain rfl := (Nat.prime_dvd_prime_iff_eq hq Nat.prime_three).1 (hq.dvd_of_dvd_pow h)
    exact fun h => h3 (one_iff _ h)

/-- `2^106·3^39 + 1`, a prime of 168 bits. -/
def bigP : Nat := 2 ^ 106 * 3 ^ 39 + 1
/-- `2^123·3^28 + 1`, a prime of 168 bits. -/
def bigQ : Nat := 2 ^ 123 * 3 ^ 28 + 1

theorem bigP_prime : bigP.Prime :=
  prime_of_lucas bigP 7 106 39 (by decide +kernel) (by decide +kernel) (by decide +kernel) (by decide +kernel) (by decide +kernel)
theorem bigQ_prime : bigQ.Prime :=
  prime_of_lucas bigQ 7 123 28 (by decide +kernel) (by decide +kernel) (by decide +kernel) (by decide +kernel) (by decide +kernel)

/-- The private exponent for `e = 7`. -/
def bigD : Nat := 0x14e54b1dc9bf015311716f64450db6db6db6db6db6db6db6db6db6db6db6db6db6db6db6db6db6db6db7

/-- One engine step of a running command and the register it leaves. -/
def leaves (i : Instr) (regs : List (ZReg × Nat)) (ws : List Word) (r : ZReg) : Nat :=
  match exec i (ready i regs (withKey 168) ws) with
  | .next t => t.z[r]
  | _ => 0

/-- The block of the empty message, and its ciphertext. -/
def bigBlock : Nat := leaves (.oaepEnc 1 0) [] sWords 1
/-- The ciphertext of `bigBlock`. -/
def bigCipher : Nat := leaves (.modexp 4 1 2 3) [(1, bigBlock), (2, 7), (3, bigP * bigQ)] [] 4

/-- The whole chain of the round trip, from the empty message at KEYSIZE 168 to LENB = 0. -/
theorem witness_OaepRoundTripThroughRsa :
    bigP.Prime ∧ bigQ.Prime ∧ bigP ≠ bigQ ∧ bigP % 2 = 1 ∧ bigQ % 2 = 1 ∧ 2 ^ (168 - 1) < bigP ∧ bigP < 2 ^ 168 ∧ 2 ^ (168 - 1) < bigQ ∧
    bigQ < 2 ^ 168 ∧ bigD * 7 % ((bigP - 1) * (bigQ - 1)) = 1 ∧ legalKeySize Params.reference 168 ∧
    ([] : List Byte).length + 42 ≤ 168 / 4 ∧
    (let c := running (.oaepEnc 1 0) [] (withKey 168) sWords;
      c.snap.keysize.toNat = 168 ∧ c.snap.lena.toNat = ([] : List Byte).length ∧ c.snap.z[(0 : ZReg)] = os2ip [] ∧ c.drawn.length = 5) ∧
    leaves (.modexp 5 4 2 3) [(4, bigCipher), (2, bigD), (3, bigP * bigQ)] [] 5 = bigBlock ∧ bigBlock ≠ 0 ∧
    after (.oaepDec 6 5) [(5, bigBlock)] (withKey 168) [] (fun t => ends .ok 6 0 t && decide (t.lenb = 0)) = true :=
  ⟨bigP_prime, bigQ_prime, by decide +kernel, by decide +kernel, by decide +kernel, by decide +kernel, by decide +kernel, by decide +kernel,
    by decide +kernel, by decide +kernel, by unfold legalKeySize; decide +kernel, by decide, by decide +kernel, by decide +kernel,
    by decide +kernel, by decide +kernel⟩

/-- The invariant's witness: a machine just out of reset whose host starts a command. -/
theorem witness_EveryStepKeepsTheInvariant :
    Inv (scheduled [wr 0x14 0x00005022]) ∧ ∃ t, step (scheduled [wr 0x14 0x00005022]) = .next t ∧ t.busy = true := by
  refine ⟨⟨by decide, ?_, by decide, by decide, by decide, by decide, ?_⟩, exists_next (by decide +kernel)⟩
  · intro r
    have : (scheduled [wr 0x14 0x00005022]).z[r] = 0 := by revert r; decide
    rw [this]
    exact Nat.two_pow_pos _
  · intro c h
    cases h

end Sys2Proof.Tests
end

section
/-! SUPPORT. What each command's rule may answer (rules R22, R232, R236, R241): the registers it writes and their bound, who draws
words, and which codes are raised. Each rule is walked through once, here. -/

namespace Sys2Proof.Machine

open Sys2Proof.Certificates

/-! ### Bounds of what the commands compute -/

/-- Every big register of the snapshot is in range (rule R21). -/
def Snapshot.Fits (p : Params) (c : Snapshot) : Prop := ∀ r : ZReg, c.read r < 2 ^ (32 * p.maxw)

theorem ksLegal_iff {p : Params} {ks : Nat} : ksLegal p ks = true ↔ legalKeySize p ks := by
  simp [ksLegal, legalKeySize, and_assoc]

/-- `CAP` bytes fill a big register (rule R53). -/
theorem os2ip_lt_of_length_le_cap {p : Params} {s : List Byte} (h : s.length ≤ cap p) : os2ip s < 2 ^ (32 * p.maxw) := by
  have hle : (256 : Nat) ^ s.length ≤ 256 ^ cap p := Nat.pow_le_pow_right (by decide) h
  have hcap : (256 : Nat) ^ cap p = 2 ^ (32 * p.maxw) := by
    rw [cap, show (256 : Nat) = 2 ^ 8 by rfl, ← Nat.pow_mul]
    congr 1
    omega
  calc os2ip s < 256 ^ s.length := os2ip_lt s
    _ ≤ 2 ^ (32 * p.maxw) := hcap ▸ hle

theorem modulusBytes_le_cap {p : Params} {ks : Nat} (h : ksLegal p ks = true) : modulusBytes ks ≤ cap p := by
  obtain ⟨-, -, hle⟩ := ksLegal_iff.mp h
  simp only [modulusBytes, cap]
  omega

theorem candidate_lt {ks x : Nat} {ws rest : List Word} (hk : 1 ≤ ks) (h : candidate ks ws = some (x, rest)) : x < 2 ^ ks := by
  unfold candidate at h
  split at h
  · simp at h
  · next y r hr =>
    simp only [Option.some.injEq, Prod.mk.injEq] at h
    rw [← h.1]
    have htop : 2 ^ (ks - 1) < 2 ^ ks := Nat.pow_lt_pow_right (by decide) (by omega)
    exact Nat.or_lt_two_pow (Nat.or_lt_two_pow (randBits_lt hr) htop) (Nat.one_lt_two_pow (by omega))

theorem drawPrimeFuel_lt {ks rounds f x : Nat} {ws rest : List Word} (hk : 1 ≤ ks)
    (h : drawPrimeFuel ks rounds f ws = some (x, rest)) : x < 2 ^ ks := by
  induction f generalizing ws with
  | zero => simp [drawPrimeFuel] at h
  | succ f ih =>
    rw [drawPrimeFuel] at h
    split at h
    · simp at h
    · next y r hr =>
      split at h
      · simp at h
      · simp only [Option.some.injEq, Prod.mk.injEq] at h
        exact h.1 ▸ candidate_lt hk hr
      · exact ih h

/-- A prime of KEYGEN has at most `KS` bits (rule R162). -/
theorem drawPrime_lt {ks rounds x : Nat} {ws rest : List Word} (hk : 1 ≤ ks) (h : drawPrime ks rounds ws = some (x, rest)) :
    x < 2 ^ ks :=
  drawPrimeFuel_lt hk h

theorem drawOtherPrimeFuel_lt {ks rounds p f x : Nat} {ws rest : List Word} (hk : 1 ≤ ks)
    (h : drawOtherPrimeFuel ks rounds p f ws = some (x, rest)) : x < 2 ^ ks := by
  induction f generalizing ws with
  | zero => simp [drawOtherPrimeFuel] at h
  | succ f ih =>
    rw [drawOtherPrimeFuel] at h
    split at h
    · simp at h
    · next q r hr =>
      split at h
      · simp only [Option.some.injEq, Prod.mk.injEq] at h
        exact h.1 ▸ drawPrime_lt hk hr
      · exact ih h

/-- And so has the second one (rule R163). -/
theorem drawOtherPrime_lt {ks rounds p x : Nat} {ws rest : List Word} (hk : 1 ≤ ks)
    (h : drawOtherPrime ks rounds p ws = some (x, rest)) : x < 2 ^ ks :=
  drawOtherPrimeFuel_lt hk h

theorem exponentOk_iff {phi x : Nat} : exponentOk phi x = true ↔ 2 ≤ x ∧ x ≤ phi - 1 ∧ Nat.gcd x phi = 1 := by
  simp [exponentOk, and_assoc]

/-- For an exponent that passed its test the inverse exists, so KEYGEN's defensive check never fires (rule R236). -/
theorem keyPair_success {p q e : Nat} (h : exponentOk ((p - 1) * (q - 1)) e = true) :
    ∃ d, modInverse e ((p - 1) * (q - 1)) = some d ∧ d < (p - 1) * (q - 1) ∧
      keyPair p q e = .success { z := [(0, p * q), (1, e), (2, d), (3, p), (4, q), (5, (p - 1) * (q - 1))] } := by
  obtain ⟨h2, hle, hg⟩ := exponentOk_iff.mp h
  have hsome : (modInverse e ((p - 1) * (q - 1))).isSome = true := by
    rw [modInverse_isSome, decide_eq_true_eq, ← Nat.gcd_rec, Nat.gcd_comm]
    exact hg
  obtain ⟨d, hd⟩ := Option.isSome_iff_exists.mp hsome
  exact ⟨d, hd, (modInverse_spec (by omega) hd).1, by simp [keyPair, hg, hd]⟩

theorem afterSeparator_error {s : List Byte} {code : ErrCode} (h : afterSeparator s = .error code) : code = .paddingError := by
  induction s with
  | nil => simpa [afterSeparator] using h.symm
  | cons b rest ih =>
    rw [afterSeparator] at h
    split at h
    · exact ih h
    · split at h
      · cases h
      · simpa using h.symm

theorem afterSeparator_length_le {s msg : List Byte} (h : afterSeparator s = .ok msg) : msg.length ≤ s.length := by
  induction s with
  | nil => simp [afterSeparator] at h
  | cons b rest ih =>
    rw [afterSeparator] at h
    split at h
    · exact (ih h).trans (by simp)
    · split at h
      · simp only [Except.ok.injEq] at h
        simp [h]
      · cases h

theorem oaepDecode_error {em : List Byte} {k : Nat} {code : ErrCode} (h : oaepDecode em k = .error code) :
    code = .integrityError ∨ code = .paddingError := by
  unfold oaepDecode at h
  dsimp only at h
  split at h
  · exact .inl (by simpa using h.symm)
  · split at h
    · exact .inr (by simpa using h.symm)
    · exact .inr (afterSeparator_error h)

/-- A recovered message is no longer than its block. -/
theorem oaepDecode_length_le {em msg : List Byte} {k : Nat} (h : oaepDecode em k = .ok msg) : msg.length ≤ em.length := by
  unfold oaepDecode at h
  dsimp only at h
  split at h
  · cases h
  · split at h
    · cases h
    · have hlen := afterSeparator_length_le h
      simp only [List.length_drop, xorBytes_length] at hlen
      omega

/-! ### What a command may answer -/

/-- The writes of a success of `i`: only its destinations (rule R22), each in range where the snapshot is (rule R21). -/
structure WritesOk (p : Params) (c : Snapshot) (i : Instr) (w : Writes) : Prop where
  dest : ∀ x ∈ w.z, x.1 ∈ destinations i
  fits : c.Fits p → ∀ x ∈ w.z, x.2 < 2 ^ (32 * p.maxw)
  lenb : (∀ rd rs1, i ≠ .oaepDec rd rs1) → w.lenb = none
  result : (∀ rs1, i ≠ .isprime rs1) → w.result = none

/-- What the rule of `i` may answer: a request for a word only if it draws, a success with legal writes, or an error with a code
other than the two unreachable ones (rules R236, R241). -/
def AnswerOk (p : Params) (c : Snapshot) (i : Instr) : RunResult → Prop
  | .needWord => drawsWords i = true
  | .success w => WritesOk p c i w
  | .error code => code ≠ .keyGenError ∧ code ≠ .keyRecordParseError

theorem WritesOk.single {p : Params} {c : Snapshot} {i : Instr} {rd : ZReg} {v : Nat} (hd : rd ∈ destinations i)
    (hv : c.Fits p → v < 2 ^ (32 * p.maxw)) : WritesOk p c i { z := [(rd, v)] } where
  dest := by simpa using hd
  fits := by simpa using hv
  lenb _ := rfl
  result _ := rfl

section Answers

variable (p : Params) (c : Snapshot) (ws : List Word) (rd rs1 rs2 rs3 : ZReg)

/-- The answer of the four commands with a modulus (rules R110, R111), whose result is a residue. -/
theorem withModulus_answerOk {i : Instr} {residues : List Nat} {v : Nat} (hd : rd ∈ destinations i)
    (hv : 0 < c.read rs3 → v < c.read rs3) : AnswerOk p c i (withModulus (c.read rs3) residues rd v) := by
  unfold withModulus
  split
  · simp [AnswerOk]
  · next hm =>
    split
    · simp [AnswerOk]
    · have hpos : 0 < c.read rs3 := by
        simp only [modValid, Bool.not_eq_true, Bool.not_eq_false', Bool.and_eq_true, decide_eq_true_eq] at hm
        omega
      exact .single hd fun hc => (hv hpos).trans (hc rs3)

theorem runNop_answerOk : AnswerOk p c .nop (runNop p c ws) :=
  ⟨by simp, by simp, fun _ => rfl, fun _ => rfl⟩

theorem runZeroize_answerOk : AnswerOk p c .zeroize (runZeroize p c ws) :=
  ⟨by decide, by simp, fun _ => rfl, fun _ => rfl⟩

theorem runMontmul_answerOk : AnswerOk p c (.montmul rd rs1 rs2 rs3) (runMontmul rd rs1 rs2 rs3 p c ws) :=
  withModulus_answerOk p c rd rs3 (by simp [destinations]) fun h => Nat.mod_lt _ h

theorem runModmul_answerOk : AnswerOk p c (.modmul rd rs1 rs2 rs3) (runModmul rd rs1 rs2 rs3 p c ws) :=
  withModulus_answerOk p c rd rs3 (by simp [destinations]) fun h => Nat.mod_lt _ h

theorem runRsq_answerOk : AnswerOk p c (.rsq rd rs3) (runRsq rd rs3 p c ws) :=
  withModulus_answerOk p c rd rs3 (by simp [destinations]) fun h => Nat.mod_lt _ h

theorem runModexp_answerOk : AnswerOk p c (.modexp rd rs1 rs2 rs3) (runModexp rd rs1 rs2 rs3 p c ws) :=
  withModulus_answerOk p c rd rs3 (by simp [destinations]) fun h => powMod_eq _ _ _ h ▸ Nat.mod_lt _ h

theorem runGcd_answerOk : AnswerOk p c (.gcd rd rs1 rs2) (runGcd rd rs1 rs2 p c ws) := by
  refine WritesOk.single (by simp [destinations]) fun hc => ?_
  rcases Nat.eq_zero_or_pos (c.read rs1) with h0 | hpos
  · simpa [h0] using hc rs2
  · exact (Nat.gcd_le_left _ hpos).trans_lt (hc rs1)

theorem runModinv_answerOk : AnswerOk p c (.modinv rd rs1 rs3) (runModinv rd rs1 rs3 p c ws) := by
  unfold runModinv
  dsimp only
  split
  · simp [AnswerOk]
  · next hm =>
    split
    · simp [AnswerOk]
    · next x hx =>
      have hlt := (modInverse_spec (Nat.pos_of_ne_zero hm) hx).1
      exact WritesOk.single (by simp [destinations]) fun hc => hlt.trans (hc rs3)

theorem runIsprime_answerOk : AnswerOk p c (.isprime rs1) (runIsprime rs1 p c ws) := by
  unfold runIsprime
  split
  · rfl
  · exact ⟨by simp, by simp, fun _ => rfl, fun h => absurd rfl (h rs1)⟩

theorem runKeygen_answerOk : AnswerOk p c .keygen (runKeygen p c ws) := by
  unfold runKeygen
  dsimp only
  split
  · simp [AnswerOk]
  · next hks =>
    obtain ⟨-, h4, hmax⟩ := ksLegal_iff.mp (by simpa using hks)
    split
    · rfl
    · next p' ws1 hp =>
      split
      · rfl
      · next q ws2 hq =>
        split
        · rfl
        · next e rest he =>
          obtain ⟨d, -, hd, hpair⟩ := keyPair_success (drawUntil_accepts he).1
          rw [hpair]
          refine ⟨by simp [destinations], fun _ => ?_, fun _ => rfl, fun _ => rfl⟩
          have hp2 := drawPrime_lt (by omega) hp
          have hq2 := drawOtherPrime_lt (by omega) hq
          have hn : p' * q < 2 ^ (32 * p.maxw) := by
            calc p' * q < 2 ^ c.keysize.toNat * 2 ^ c.keysize.toNat := Nat.mul_lt_mul'' hp2 hq2
              _ = 2 ^ (c.keysize.toNat + c.keysize.toNat) := (Nat.pow_add ..).symm
              _ ≤ 2 ^ (32 * p.maxw) := Nat.pow_le_pow_right (by decide) (by omega)
          have hphi : (p' - 1) * (q - 1) ≤ p' * q := Nat.mul_le_mul (Nat.sub_le ..) (Nat.sub_le ..)
          have hkey : 2 ^ c.keysize.toNat ≤ 2 ^ (32 * p.maxw) := Nat.pow_le_pow_right (by decide) (by omega)
          have hele := (exponentOk_iff.mp (drawUntil_accepts he).1).2.1
          simp only [List.forall_mem_cons]
          refine ⟨hn, ?_, ?_, ?_, ?_, ?_, by simp⟩ <;> omega

theorem runXor_answerOk : AnswerOk p c (.xor rd rs1 rs2) (runXor rd rs1 rs2 p c ws) :=
  WritesOk.single (by simp [destinations]) fun hc => Nat.xor_lt_two_pow (hc rs1) (hc rs2)

theorem runMgf1_answerOk : AnswerOk p c (.mgf1 rd rs1) (runMgf1 rd rs1 p c ws) := by
  unfold runMgf1
  dsimp only
  split
  · simp [AnswerOk]
  · split
    · simp [AnswerOk]
    · next hml =>
      split
      · simp [AnswerOk]
      · exact WritesOk.single (by simp [destinations]) fun _ => os2ip_lt_of_length_le_cap (by simpa using hml)

theorem runOaepEnc_answerOk : AnswerOk p c (.oaepEnc rd rs1) (runOaepEnc rd rs1 p c ws) := by
  unfold runOaepEnc
  dsimp only
  split
  · simp [AnswerOk]
  · next hks =>
    split
    · simp [AnswerOk]
    · next hlen =>
      split
      · simp [AnswerOk]
      · next msg hmsg =>
        split
        · rfl
        · next seed hseed =>
          refine WritesOk.single (by simp [destinations]) fun _ => os2ip_lt_of_length_le_cap ?_
          have hml : msg.length = c.lena.toNat := by rw [(i2osp_eq_some.mp hmsg).2, bytesOf_length]
          rw [oaepEncode_length msg seed _ (oaepSeed_length hseed) (by omega)]
          exact modulusBytes_le_cap (by simpa using hks)

theorem runOaepDec_answerOk : AnswerOk p c (.oaepDec rd rs1) (runOaepDec rd rs1 p c ws) := by
  unfold runOaepDec
  dsimp only
  split
  · simp [AnswerOk]
  · next hks =>
    split
    · simp [AnswerOk]
    · split
      · simp [AnswerOk]
      · next em hem =>
        split
        · next code hcode => rcases oaepDecode_error hcode with rfl | rfl <;> simp [AnswerOk]
        · next msg hmsg =>
          refine ⟨by simp [destinations], fun _ => ?_, fun h => absurd rfl (h rd rs1), fun _ => rfl⟩
          have hlen : em.length = modulusBytes c.keysize.toNat := by rw [(i2osp_eq_some.mp hem).2, bytesOf_length]
          have hle := (hlen ▸ oaepDecode_length_le hmsg).trans (modulusBytes_le_cap (p := p) (by simpa using hks))
          simpa using os2ip_lt_of_length_le_cap hle

end Answers

/-- Every command's rule answers as rules R22, R232, R236 and R241 allow. -/
theorem runCommand_answerOk (i : Instr) (p : Params) (c : Snapshot) (ws : List Word) :
    AnswerOk p c i (runCommand i p c ws) := by
  cases i with
  | nop => exact runNop_answerOk p c ws
  | zeroize => exact runZeroize_answerOk p c ws
  | montmul rd rs1 rs2 rs3 => exact runMontmul_answerOk p c ws rd rs1 rs2 rs3
  | modmul rd rs1 rs2 rs3 => exact runModmul_answerOk p c ws rd rs1 rs2 rs3
  | rsq rd rs3 => exact runRsq_answerOk p c ws rd rs3
  | modexp rd rs1 rs2 rs3 => exact runModexp_answerOk p c ws rd rs1 rs2 rs3
  | gcd rd rs1 rs2 => exact runGcd_answerOk p c ws rd rs1 rs2
  | modinv rd rs1 rs3 => exact runModinv_answerOk p c ws rd rs1 rs3
  | isprime rs1 => exact runIsprime_answerOk p c ws rs1
  | keygen => exact runKeygen_answerOk p c ws
  | xor rd rs1 rs2 => exact runXor_answerOk p c ws rd rs1 rs2
  | mgf1 rd rs1 => exact runMgf1_answerOk p c ws rd rs1
  | oaepEnc rd rs1 => exact runOaepEnc_answerOk p c ws rd rs1
  | oaepDec rd rs1 => exact runOaepDec_answerOk p c ws rd rs1

theorem drawsWords_of_needWord {i : Instr} {p : Params} {c : Snapshot} {ws : List Word}
    (h : runCommand i p c ws = .needWord) : drawsWords i = true := by
  simpa [h, AnswerOk] using runCommand_answerOk i p c ws

theorem writesOk_of_success {i : Instr} {p : Params} {c : Snapshot} {ws : List Word} {w : Writes}
    (h : runCommand i p c ws = .success w) : WritesOk p c i w := by
  simpa [h, AnswerOk] using runCommand_answerOk i p c ws

theorem code_reachable_of_error {i : Instr} {p : Params} {c : Snapshot} {ws : List Word} {code : ErrCode}
    (h : runCommand i p c ws = .error code) : code ≠ .keyGenError ∧ code ≠ .keyRecordParseError := by
  simpa [h, AnswerOk] using runCommand_answerOk i p c ws

/-! ### The scheduled big-register writes (rule R233) -/

theorem applyZ_of_not_written {ws : List (ZReg × Nat)} {r : ZReg} (h : ∀ x ∈ ws, x.1 ≠ r) (z : Vector Nat 8) :
    (applyZ z ws)[r] = z[r] := by
  induction ws generalizing z with
  | nil => rfl
  | cons x ws ih =>
    obtain ⟨hx, hws⟩ := List.forall_mem_cons.mp h
    rw [applyZ, ih hws]
    exact Vector.getElem_set_ne _ _ fun he => hx (Fin.ext he)

/-- A register that is written holds the same afterwards, whatever stood in the registers before. -/
theorem applyZ_of_written {ws : List (ZReg × Nat)} {r : ZReg} (h : ∃ x ∈ ws, x.1 = r) (z z' : Vector Nat 8) :
    (applyZ z ws)[r] = (applyZ z' ws)[r] := by
  induction ws generalizing z z' with
  | nil => simp at h
  | cons x ws ih =>
    rw [applyZ, applyZ]
    by_cases hlater : ∃ y ∈ ws, y.1 = r
    · exact ih hlater _ _
    · have hr : x.1 = r := by simpa [hlater] using h
      have hnot : ∀ y ∈ ws, y.1 ≠ r := fun y hy he => hlater ⟨y, hy, he⟩
      rw [applyZ_of_not_written hnot, applyZ_of_not_written hnot]
      subst hr
      simp

theorem applyZ_lt {ws : List (ZReg × Nat)} {b : Nat} (hws : ∀ x ∈ ws, x.2 < b) {z : Vector Nat 8} (hz : ∀ r : ZReg, z[r] < b)
    (r : ZReg) : (applyZ z ws)[r] < b := by
  induction ws generalizing z with
  | nil => exact hz r
  | cons x ws ih =>
    obtain ⟨hx, hws⟩ := List.forall_mem_cons.mp hws
    refine ih hws fun r => ?_
    simp only [Fin.getElem_fin, Vector.getElem_set]
    split
    · exact hx
    · exact hz r

end Sys2Proof.Machine
end

section
/-! SUPPORT. The invariant, one lemma per operation of the machine, and the step lemma assembled from them (O58). -/

namespace Sys2Proof.Machine

/-! ### What a CTRL write and a read do -/

/-- The first two actions of a CTRL write without SOFTRST (rule R214): IE, then RNGSRC, refused while busy where it would change. -/
def setCtrlFields (v : Word) (s : State) : State :=
  if !s.busy then { s with ie := v.getLsbD 0, rngsrc := rngSourceOf v }
  else if rngSourceOf v ≠ s.rngsrc then refuseAccess { s with ie := v.getLsbD 0 }
  else { s with ie := v.getLsbD 0 }

/-- A CTRL write as its actions in the order of rule R214. -/
theorem writeCtrl_eq (v : Word) (s : State) :
    writeCtrl v s =
      if v.getLsbD 3 then softReset s
      else
        let s' := if v.getLsbD 4 then flushFifo (setCtrlFields v s) else setCtrlFields v s
        if v.getLsbD 2 then abort s' else s' := rfl

/-- A defined read changes nothing, or it is refused (rule R70). -/
theorem readWindow_state (off : Nat) (s : State) : (readWindow off s).2 = s ∨ (readWindow off s).2 = refuseAccess s := by
  unfold readWindow
  split
  · exact .inl rfl
  · split
    · exact .inr rfl
    · exact .inl rfl

/-! ### What the invariant reads -/

/-- `s` with every field the invariant does not read, and the FIFO, at a fixed value. -/
def State.core (s : State) : State :=
  { s with
    ie := false, overrun := false, rngovf := false, accerr := false, fifo := [], schedule := [], entropy := [],
    entropyCount := 0, platformReads := 0, readData := none }

/-- The invariant speaks of the core and of the FIFO's length alone. -/
theorem inv_iff_core (s : State) : Inv s ↔ Inv s.core ∧ s.fifo.length ≤ s.params.fifoDepth := by
  constructor
  · rintro ⟨hp, hz, hr, hf, hk, hk', hrun⟩
    refine ⟨⟨hp, hz, hr, Nat.zero_le _, hk, hk', fun c hc => ?_⟩, hf⟩
    obtain ⟨h1, h2, h3, h4, h5, h6, h7, h8⟩ := hrun c hc
    exact ⟨h1, h2, h3, h4, h5, h6, h7, h8⟩
  · rintro ⟨⟨hp, hz, hr, -, hk, hk', hrun⟩, hf⟩
    refine ⟨hp, hz, hr, hf, hk, hk', fun c hc => ?_⟩
    obtain ⟨h1, h2, h3, h4, h5, h6, h7, h8⟩ := hrun c hc
    exact ⟨h1, h2, h3, h4, h5, h6, h7, h8⟩

theorem Inv.of_core_eq {s t : State} (h : Inv s) (hcore : t.core = s.core) (hf : t.fifo.length ≤ t.params.fifoDepth) : Inv t :=
  (inv_iff_core t).mpr ⟨hcore ▸ ((inv_iff_core s).mp h).1, hf⟩

theorem Inv.withSchedule {s : State} (h : Inv s) (es : List Event) : Inv { s with schedule := es } := h.of_core_eq rfl h.fifo

theorem Inv.withReadData {s : State} (h : Inv s) (d : Option Word) : Inv { s with readData := d } := h.of_core_eq rfl h.fifo

theorem Inv.refuseAccess {s : State} (h : Inv s) : Inv (refuseAccess s) := h.of_core_eq rfl h.fifo

theorem Inv.flushFifo {s : State} (h : Inv s) : Inv (flushFifo s) := h.of_core_eq rfl (Nat.zero_le _)

theorem Inv.entropyAnswer {s : State} (h : Inv s) (w : Word) : Inv (entropyAnswer w s) := h.of_core_eq rfl h.fifo

theorem Inv.entropyAnswerFree {s : State} (h : Inv s) : Inv (entropyAnswerFree s) := h.of_core_eq rfl h.fifo

theorem Inv.platformAnswer {s : State} (h : Inv s) (bits addr : Nat) : Inv (platformAnswer bits addr s) :=
  h.of_core_eq rfl h.fifo

/-! ### Reset, completion and acceptance -/

theorem Inv.softReset {s : State} (h : Inv s) : Inv (softReset s) where
  params := h.params
  z r := by simp
  rounds := by simp
  fifo := by simp
  noKeyGenError := by simp
  noKeyRecordParseError := by simp
  running c hc := by simp at hc

/-- Every completion keeps the invariant: no command runs afterwards. -/
theorem Inv.finish {s : State} (h : Inv s) {code : ErrCode} (hk : code ≠ .keyGenError) (hk' : code ≠ .keyRecordParseError) :
    Inv (finish code s) where
  params := h.params
  z := h.z
  rounds := h.rounds
  fifo := h.fifo
  noKeyGenError := hk
  noKeyRecordParseError := hk'
  running c hc := by simp at hc

theorem Inv.abort {s : State} (h : Inv s) : Inv (abort s) := by
  unfold Machine.abort
  split
  · exact h.finish (by simp) (by simp)
  · exact h

theorem Inv.clearDone {s : State} (h : Inv s) : Inv (clearDone s) where
  params := h.params
  z := h.z
  rounds := h.rounds
  fifo := h.fifo
  noKeyGenError := h.noKeyGenError
  noKeyRecordParseError := h.noKeyRecordParseError
  running c hc := by
    obtain ⟨hcmd, hdec, hsnap, hcount, hcalled, -, hresult, herr⟩ := h.running c hc
    exact ⟨hcmd, hdec, hsnap, hcount, hcalled, rfl, hresult, herr⟩

theorem Inv.accept {s : State} (h : Inv s) (w : Word) : Inv (accept w s) := by
  rcases hd : decode w with e | i
  · rw [accept_illegal hd]
    exact ⟨h.params, h.z, h.rounds, h.fifo, by simp, by simp, fun c hc => by simp at hc⟩
  · rw [accept_command hd]
    refine ⟨h.params, h.z, h.rounds, h.fifo, by simp, by simp, fun c hc => ?_⟩
    obtain rfl : _ = c := Engine.busy.inj hc
    exact ⟨rfl, ⟨i, hd⟩, rfl, by simp, by simp, rfl, rfl, rfl⟩

/-! ### Engine steps -/

/-- The snapshot of a running command is in range, because it equals the live values (rule R54). -/
theorem Inv.snapshot_fits {s : State} (h : Inv s) {c : Running} (hc : s.engine = .busy c) : c.snap.Fits s.params := by
  rw [(h.running c hc).snap]
  exact h.z

theorem Inv.completeOk {s : State} (h : Inv s) {w : Writes} (hw : ∀ x ∈ w.z, x.2 < 2 ^ (32 * s.params.maxw)) :
    Inv (completeOk w s) where
  params := h.params
  z := applyZ_lt hw h.z
  rounds := h.rounds
  fifo := h.fifo
  noKeyGenError := by simp
  noKeyRecordParseError := by simp
  running c hc := by simp at hc

/-- RNG_COUNT after one more word, holding at its top (rule R49). -/
theorem countUp_toNat (n : Word) : (countUp n).toNat = min (n.toNat + 1) (2 ^ 32 - 1) := by
  unfold countUp
  split
  · next htop =>
    subst htop
    rfl
  · next htop =>
    have hne : n.toNat ≠ 2 ^ 32 - 1 := fun he => htop (BitVec.eq_of_toNat_eq he)
    have hlt : n.toNat + 1 < 2 ^ 32 := by omega
    rw [BitVec.toNat_add, show (1 : Word).toNat = 1 from rfl, Nat.mod_eq_of_lt hlt]
    omega

/-- A draw step that the command called for keeps the running command consistent. -/
theorem Inv.drawStep {s : State} (h : Inv s) {c : Running} (hc : s.engine = .busy c) {i : Instr} (hi : decode c.cmd = .ok i)
    (hneed : runCommand i s.params c.snap c.drawn = .needWord) : Inv (drawStep c s) := by
  rcases drawStep_cases c s with ⟨-, heq⟩ | ⟨w, ws, -, heq⟩
  · rwa [heq]
  · obtain ⟨hcmd, hdec, hsnap, hcount, hcalled, hdone, hresult, herr⟩ := h.running c hc
    rw [heq]
    refine ⟨by simpa using h.params, by simpa using h.z, by simpa using h.rounds, ?_, by simpa using h.noKeyGenError,
      by simpa using h.noKeyRecordParseError, fun c' hc' => ?_⟩
    · simpa using (dropOldest_fifo_length_le c s).trans h.fifo
    · obtain rfl : _ = c' := Engine.busy.inj hc'
      refine ⟨by simpa using hcmd, hdec, by simpa [State.snapshot] using hsnap, ?_, ?_, by simpa using hdone,
        by simpa using hresult, by simpa using herr⟩
      · rw [List.length_append, List.length_singleton, countUp_toNat, hcount]
        omega
      · intro j hj k hk
        obtain rfl : i = j := by simpa [hi] using hj
        simp only [List.length_append, List.length_singleton] at hk
        dsimp only
        rw [List.take_append_of_le_length (by omega), dropOldest_params]
        rcases Nat.lt_or_ge k c.drawn.length with hlt | hge
        · exact hcalled i hi k hlt
        · rwa [List.take_of_length_le hge]

theorem Inv.engineStep {s t : State} (h : Inv s) {c : Running} (hc : s.engine = .busy c) {i : Instr} (hi : decode c.cmd = .ok i)
    (ht : engineStep (runCommand i) s = .next t) : Inv t := by
  rcases engineStep_cases ht with ⟨hidle, rfl⟩ | ⟨c', hc', hcase⟩
  · exact h
  · obtain rfl : c = c' := by simpa [hc] using hc'
    rcases hcase with ⟨hneed, rfl⟩ | ⟨w, hok, rfl⟩ | ⟨code, herr, rfl⟩
    · exact h.drawStep hc hi hneed
    · exact h.completeOk ((writesOk_of_success hok).fits (h.snapshot_fits hc))
    · obtain ⟨hk, hk'⟩ := code_reachable_of_error herr
      exact h.finish hk hk'

theorem Inv.engineTurn {s t : State} (h : Inv s) (ht : engineTurn s = .next t) : Inv t := by
  rcases engineTurn_cases s with ⟨-, heq⟩ | ⟨c, i, hc, hi, heq⟩ | ⟨c, e, -, -, heq⟩ <;> rw [heq] at ht
  · cases ht
    exact h
  · exact h.engineStep hc hi ht
  · cases ht
    exact h.finish (by simp) (by simp)

/-! ### Host writes -/

/-- While Idle, what a command would read may change within its bounds. -/
theorem Inv.withOperands {s : State} (h : Inv s) (hidle : s.engine = .idle) {z : Vector Nat 8}
    (hz : ∀ r : ZReg, z[r] < 2 ^ (32 * s.params.maxw)) {mr : BitVec 8} (hmr : 5 ≤ mr.toNat) (ks la lb : BitVec 16)
    (src : RngSource) :
    Inv { s with z := z, mrRounds := mr, keysize := ks, lena := la, lenb := lb, rngsrc := src } where
  params := h.params
  z := hz
  rounds := hmr
  fifo := h.fifo
  noKeyGenError := h.noKeyGenError
  noKeyRecordParseError := h.noKeyRecordParseError
  running c hc := by simp [hidle] at hc

theorem Inv.unlessBusy {s : State} (h : Inv s) {write : State → State} (hw : s.engine = .idle → Inv (write s)) :
    Inv (unlessBusy write s) := by
  unfold Machine.unlessBusy
  split
  · exact h.refuseAccess
  · next hb => exact hw ((busy_eq_false_iff s).mp (by simpa using hb))

theorem Inv.setCtrlFields {s : State} (h : Inv s) (v : Word) : Inv (setCtrlFields v s) := by
  have hie : Inv { s with ie := v.getLsbD 0 } := h.of_core_eq rfl h.fifo
  unfold Machine.setCtrlFields
  split
  · next hb =>
    have hidle : s.engine = .idle := (busy_eq_false_iff s).mp (by simpa using hb)
    exact hie.withOperands hidle h.z h.rounds s.keysize s.lena s.lenb (rngSourceOf v)
  · split
    · exact hie.refuseAccess
    · exact hie

theorem Inv.writeCtrl {s : State} (h : Inv s) (v : Word) : Inv (writeCtrl v s) := by
  have hflush : Inv (if v.getLsbD 4 then Machine.flushFifo (Machine.setCtrlFields v s) else Machine.setCtrlFields v s) := by
    split
    · exact (h.setCtrlFields v).flushFifo
    · exact h.setCtrlFields v
  rw [writeCtrl_eq]
  dsimp only
  split
  · exact h.softReset
  · split
    · exact hflush.abort
    · exact hflush

theorem Inv.writeCmd {s : State} (h : Inv s) (v : Word) : Inv (writeCmd v s) := by
  unfold Machine.writeCmd
  split
  · exact h.of_core_eq rfl h.fifo
  · exact h.accept v

theorem Inv.writeStatus {s : State} (h : Inv s) (v : Word) : Inv (writeStatus v s) := by
  unfold Machine.writeStatus
  split
  · exact h.clearDone.of_core_eq rfl h.fifo
  · exact h.of_core_eq rfl h.fifo

theorem Inv.writeMrRounds {s : State} (h : Inv s) (hidle : s.engine = .idle) (v : Word) : Inv (writeMrRounds v s) := by
  refine h.withOperands hidle h.z ?_ s.keysize s.lena s.lenb s.rngsrc
  split
  · decide
  · next hge => exact BitVec.not_lt.mp hge

theorem Inv.writeRngData {s : State} (h : Inv s) (v : Word) : Inv (writeRngData v s) := by
  unfold Machine.writeRngData
  split
  · next hlt => exact h.of_core_eq rfl (by simpa using hlt)
  · exact h.of_core_eq rfl h.fifo

theorem Inv.writeZ {s : State} (h : Inv s) (hidle : s.engine = .idle) (r : ZReg) (j : Nat) (v : Word) : Inv (writeZ r j v s) := by
  unfold Machine.writeZ
  split
  · next hj =>
    refine h.withOperands hidle (applyZ_lt (ws := [(r, setWord s.z[r] j v)]) ?_ h.z) h.rounds s.keysize s.lena s.lenb s.rngsrc
    simpa using setWord_lt _ _ _ v hj (h.z r)
  · exact h

theorem Inv.writeCsr {s : State} (h : Inv s) (off : Nat) (v : Word) : Inv (writeCsr off v s) := by
  unfold Machine.writeCsr
  split
  · exact h.writeCtrl v
  · exact h.writeCmd v
  · exact h.writeStatus v
  · exact h.unlessBusy fun hidle => h.writeMrRounds hidle v
  · exact h.unlessBusy fun hidle => h.withOperands hidle h.z h.rounds (v.setWidth 16) s.lena s.lenb s.rngsrc
  · exact h.unlessBusy fun hidle => h.withOperands hidle h.z h.rounds s.keysize (v.setWidth 16) s.lenb s.rngsrc
  · exact h.unlessBusy fun hidle => h.withOperands hidle h.z h.rounds s.keysize s.lena (v.setWidth 16) s.rngsrc
  · exact h.writeRngData v
  · exact h

theorem Inv.writeWindow {s : State} (h : Inv s) (off : Nat) (v : Word) : Inv (writeWindow off v s) := by
  unfold Machine.writeWindow
  split
  · exact h.writeCsr off v
  · exact h.unlessBusy fun hidle => h.writeZ hidle _ _ v

/-! ### One access and one step -/

theorem Inv.readWindow {s : State} (h : Inv s) (off : Nat) : Inv (readWindow off s).2 := by
  rcases readWindow_state off s with heq | heq <;> rw [heq]
  · exact h
  · exact h.refuseAccess

theorem Inv.hostAccess {s t : State} (h : Inv s) {a : Access} (ht : hostAccess a s = .next t) : Inv t := by
  rcases hostAccess_cases a s with ⟨bits, addr, heq⟩ | heq | ⟨d, heq⟩ | heq | ⟨off, heq⟩ | ⟨off, v, heq⟩ <;>
    rw [heq] at ht <;> cases ht
  · exact h.platformAnswer bits addr
  · exact h
  · exact h.refuseAccess.withReadData _
  · exact h.refuseAccess
  · exact (h.readWindow off).withReadData _
  · exact h.writeWindow off v

theorem Inv.step {s t : State} (h : Inv s) (ht : step s = .next t) : Inv t := by
  rcases step_cases s with ⟨-, -, heq⟩ | ⟨-, -, heq⟩ | ⟨a, rest, -, heq⟩ | ⟨rest, -, heq⟩ | ⟨w, rest, -, heq⟩ | ⟨rest, -, heq⟩ <;>
    rw [heq] at ht
  · cases ht
    exact h.entropyAnswerFree
  · exact h.engineTurn ht
  · exact (h.withSchedule rest).hostAccess ht
  · exact (h.withSchedule rest).engineTurn ht
  · cases ht
    exact (h.withSchedule rest).entropyAnswer w
  · cases ht
    exact (h.withSchedule rest).softReset

/-! ### No step changes the parameters (rule R6) -/

@[simp] theorem unlessBusy_params {write : State → State} {s : State} (hw : (write s).params = s.params) :
    (unlessBusy write s).params = s.params := by
  unfold unlessBusy
  split
  · rfl
  · exact hw

@[simp] theorem setCtrlFields_params (v : Word) (s : State) : (setCtrlFields v s).params = s.params := by
  unfold setCtrlFields
  split
  · rfl
  · split <;> rfl

@[simp] theorem writeCtrl_params (v : Word) (s : State) : (writeCtrl v s).params = s.params := by
  rw [writeCtrl_eq]
  split
  · rfl
  · simp [apply_ite State.params]

@[simp] theorem writeCmd_params (v : Word) (s : State) : (writeCmd v s).params = s.params := by
  simp [writeCmd, apply_ite State.params]

@[simp] theorem writeStatus_params (v : Word) (s : State) : (writeStatus v s).params = s.params := by
  simp [writeStatus, apply_ite State.params]

@[simp] theorem writeRngData_params (v : Word) (s : State) : (writeRngData v s).params = s.params := by
  simp [writeRngData, apply_ite State.params]

@[simp] theorem writeZ_params (r : ZReg) (j : Nat) (v : Word) (s : State) : (writeZ r j v s).params = s.params := by
  simp [writeZ, apply_ite State.params]

@[simp] theorem writeWindow_params (off : Nat) (v : Word) (s : State) : (writeWindow off v s).params = s.params := by
  unfold writeWindow
  split
  · unfold writeCsr
    split <;> simp [writeMrRounds]
  · simp

@[simp] theorem readWindow_params (off : Nat) (s : State) : (readWindow off s).2.params = s.params := by
  rcases readWindow_state off s with heq | heq <;> rw [heq]
  rfl

theorem hostAccess_params {a : Access} {s t : State} (ht : hostAccess a s = .next t) : t.params = s.params := by
  rcases hostAccess_cases a s with ⟨bits, addr, heq⟩ | heq | ⟨d, heq⟩ | heq | ⟨off, heq⟩ | ⟨off, v, heq⟩ <;>
    rw [heq] at ht <;> cases ht <;> simp

theorem engineStep_params {run : CommandRun} {s t : State} (ht : engineStep run s = .next t) : t.params = s.params := by
  rcases engineStep_cases ht with ⟨-, rfl⟩ | ⟨c, -, ⟨-, rfl⟩ | ⟨w, -, rfl⟩ | ⟨code, -, rfl⟩⟩ <;> simp

theorem engineTurn_params {s t : State} (ht : engineTurn s = .next t) : t.params = s.params := by
  rcases engineTurn_cases s with ⟨-, heq⟩ | ⟨c, i, -, -, heq⟩ | ⟨c, e, -, -, heq⟩ <;> rw [heq] at ht
  · cases ht
    rfl
  · exact engineStep_params ht
  · cases ht
    rfl

theorem step_params {s t : State} (ht : step s = .next t) : t.params = s.params := by
  rcases step_cases s with ⟨-, -, heq⟩ | ⟨-, -, heq⟩ | ⟨a, rest, -, heq⟩ | ⟨rest, -, heq⟩ | ⟨w, rest, -, heq⟩ | ⟨rest, -, heq⟩ <;>
    rw [heq] at ht
  · cases ht
    rfl
  · exact engineTurn_params ht
  · simpa using hostAccess_params ht
  · simpa using engineTurn_params ht
  · cases ht
    rfl
  · cases ht
    rfl

/-- Settles O58: each operation keeps the invariant, and a step is one of them. -/
theorem everyStepKeepsTheInvariant : Obligations.EveryStepKeepsTheInvariant :=
  fun _ _ hs ht => ⟨hs.step ht, step_params ht⟩

end Sys2Proof.Machine
end

section
/-! SUPPORT. What an engine step of a command leaves unchanged (O13), and what its results depend on (O14). -/

namespace Sys2Proof.Machine

open Sys2Proof.Certificates

/-- Everything an engine step of a command can do. -/
theorem exec_cases {i : Instr} {s t : State} (h : exec i s = .next t) :
    (s.engine = .idle ∧ t = s) ∨
    ∃ c, s.engine = .busy c ∧
      ((runCommand i s.params c.snap c.drawn = .needWord ∧ t = drawStep c s) ∨
       (∃ w, runCommand i s.params c.snap c.drawn = .success w ∧ t = completeOk w s) ∨
       (∃ code, runCommand i s.params c.snap c.drawn = .error code ∧ t = completeError code s)) :=
  engineStep_cases (exec_eq_engineStep i s ▸ h)

/-! ### Frame -/

/-- What no engine step changes (rules R56, R233). -/
structure EngineFrame (s t : State) : Prop where
  params : t.params = s.params
  ie : t.ie = s.ie
  rngsrc : t.rngsrc = s.rngsrc
  cmd : t.cmd = s.cmd
  overrun : t.overrun = s.overrun
  rngovf : t.rngovf = s.rngovf
  accerr : t.accerr = s.accerr
  mrRounds : t.mrRounds = s.mrRounds
  keysize : t.keysize = s.keysize
  lena : t.lena = s.lena
  schedule : t.schedule = s.schedule
  entropyCount : t.entropyCount = s.entropyCount
  platformReads : t.platformReads = s.platformReads
  readData : t.readData = s.readData

theorem EngineFrame.refl (s : State) : EngineFrame s s := by constructor <;> rfl

theorem EngineFrame.completeOk (w : Writes) (s : State) : EngineFrame s (completeOk w s) := by constructor <;> rfl

theorem EngineFrame.completeError (code : ErrCode) (s : State) : EngineFrame s (completeError code s) := by constructor <;> rfl

theorem EngineFrame.drawStep (c : Running) (s : State) : EngineFrame s (drawStep c s) := by constructor <;> simp

theorem exec_frame {i : Instr} {s t : State} (h : exec i s = .next t) : EngineFrame s t := by
  rcases exec_cases h with ⟨-, rfl⟩ | ⟨c, -, ⟨-, rfl⟩ | ⟨w, -, rfl⟩ | ⟨code, -, rfl⟩⟩
  · exact .refl _
  · exact .drawStep c s
  · exact .completeOk w s
  · exact .completeError code s

/-- A draw step takes at most the oldest word of each source (rules R47, R48). -/
theorem drawStep_sources (c : Running) (s : State) :
    ((drawStep c s).fifo = s.fifo ∨ ∃ w, s.fifo = w :: (drawStep c s).fifo) ∧
    ((drawStep c s).entropy = s.entropy ∨ ∃ w, s.entropy = w :: (drawStep c s).entropy) := by
  rcases drawStep_cases c s with ⟨-, heq⟩ | ⟨w, ws, hav, heq⟩ <;> rw [heq]
  · exact ⟨.inl rfl, .inl rfl⟩
  · cases hsrc : c.snap.rngsrc <;> simp only [available, hsrc] at hav <;> simp [dropOldest, hsrc, hav]

theorem exec_sources {i : Instr} {s t : State} (h : exec i s = .next t) :
    (t.fifo = s.fifo ∨ ∃ w, s.fifo = w :: t.fifo) ∧ (t.entropy = s.entropy ∨ ∃ w, s.entropy = w :: t.entropy) := by
  rcases exec_cases h with ⟨-, rfl⟩ | ⟨c, -, ⟨-, rfl⟩ | ⟨w, -, rfl⟩ | ⟨code, -, rfl⟩⟩
  · exact ⟨.inl rfl, .inl rfl⟩
  · exact drawStep_sources c s
  · exact ⟨.inl rfl, .inl rfl⟩
  · exact ⟨.inl rfl, .inl rfl⟩

/-- A command that draws no words takes none (rule R232). -/
theorem exec_draws_nothing {i : Instr} {s t : State} (h : exec i s = .next t) (hi : drawsWords i = false) :
    t.fifo = s.fifo ∧ t.entropy = s.entropy ∧ t.rngCount = s.rngCount := by
  rcases exec_cases h with ⟨-, rfl⟩ | ⟨c, -, ⟨hneed, -⟩ | ⟨w, -, rfl⟩ | ⟨code, -, rfl⟩⟩
  · exact ⟨rfl, rfl, rfl⟩
  · exact absurd (drawsWords_of_needWord hneed) (by simp [hi])
  · exact ⟨rfl, rfl, rfl⟩
  · exact ⟨rfl, rfl, rfl⟩

/-- A big register that is no destination keeps its value (rule R22). -/
theorem exec_z_of_not_destination {i : Instr} {s t : State} (h : exec i s = .next t) {r : ZReg} (hr : r ∉ destinations i) :
    t.z[r] = s.z[r] := by
  rcases exec_cases h with ⟨-, rfl⟩ | ⟨c, -, ⟨-, rfl⟩ | ⟨w, hok, rfl⟩ | ⟨code, -, rfl⟩⟩
  · rfl
  · simp
  · exact applyZ_of_not_written (r := r) (fun x hx he => hr (he ▸ (writesOk_of_success hok).dest x hx)) s.z
  · rfl

theorem exec_lenb_of_not_oaepDec {i : Instr} {s t : State} (h : exec i s = .next t) (hi : ∀ rd rs1, i ≠ .oaepDec rd rs1) :
    t.lenb = s.lenb := by
  rcases exec_cases h with ⟨-, rfl⟩ | ⟨c, -, ⟨-, rfl⟩ | ⟨w, hok, rfl⟩ | ⟨code, -, rfl⟩⟩
  · rfl
  · simp
  · simp [(writesOk_of_success hok).lenb hi]
  · rfl

theorem exec_result_of_not_isprime {i : Instr} {s t : State} (h : exec i s = .next t) (hi : ∀ rs1, i ≠ .isprime rs1) :
    t.result = s.result := by
  rcases exec_cases h with ⟨-, rfl⟩ | ⟨c, -, ⟨-, rfl⟩ | ⟨w, hok, rfl⟩ | ⟨code, -, rfl⟩⟩
  · rfl
  · simp
  · simp [(writesOk_of_success hok).result hi]
  · rfl

/-- Settles O13: the frame of every engine step, and the writes of every command's success. -/
theorem commandsWriteOnlyTheirDestinations : Obligations.CommandsWriteOnlyTheirDestinations := by
  intro i s t h
  obtain ⟨hparams, hie, hsrc, hcmd, hover, hovf, hacc, hmr, hks, hlena, hsched, hcount, hplat, hread⟩ := exec_frame h
  obtain ⟨hfifo, hentropy⟩ := exec_sources h
  exact ⟨fun _ hr => exec_z_of_not_destination h hr, exec_lenb_of_not_oaepDec h, exec_result_of_not_isprime h, hparams, hie, hsrc,
    hcmd, hover, hovf, hacc, hmr, hks, hlena, hsched, hcount, hplat, hread, hfifo, hentropy, exec_draws_nothing h⟩

/-! ### Dependence -/

/-- After a draw step the command still runs. -/
theorem drawStep_busy {c : Running} {s : State} (hc : s.engine = .busy c) : (drawStep c s).engine ≠ .idle := by
  rcases drawStep_cases c s with ⟨-, heq⟩ | ⟨w, ws, -, heq⟩ <;> simp [heq, hc]

/-- A running command that is Idle after its engine step succeeded or failed in it (rule R232). -/
theorem exec_completion_cases {i : Instr} {s t : State} {c : Running} (hc : s.engine = .busy c) (h : exec i s = .next t)
    (hidle : t.engine = .idle) :
    (∃ w, runCommand i s.params c.snap c.drawn = .success w ∧ t = completeOk w s) ∨
    (∃ code, runCommand i s.params c.snap c.drawn = .error code ∧ t = completeError code s) := by
  rcases exec_cases h with ⟨hi, -⟩ | ⟨c', hc', hcase⟩
  · simp [hc] at hi
  · obtain rfl : c = c' := by simpa [hc] using hc'
    rcases hcase with ⟨-, rfl⟩ | hdone
    · exact absurd hidle (drawStep_busy hc)
    · exact hdone

theorem exec_of_success {i : Instr} {s : State} {c : Running} {w : Writes} (hc : s.engine = .busy c)
    (hr : runCommand i s.params c.snap c.drawn = .success w) : exec i s = .next (completeOk w s) := by
  rw [exec_eq_engineStep, engineStep_success hc hr]

theorem exec_of_error {i : Instr} {s : State} {c : Running} {code : ErrCode} (hc : s.engine = .busy c)
    (hr : runCommand i s.params c.snap c.drawn = .error code) : exec i s = .next (completeError code s) := by
  rw [exec_eq_engineStep, engineStep_error hc hr]

/-- The same writes in two states leave each big register equal, or leave it alone in both. -/
theorem applyZ_equal_or_unchanged (ws : List (ZReg × Nat)) (z z' : Vector Nat 8) (r : ZReg) :
    (applyZ z ws)[r] = (applyZ z' ws)[r] ∨ ((applyZ z ws)[r] = z[r] ∧ (applyZ z' ws)[r] = z'[r]) := by
  by_cases hw : ∃ x ∈ ws, x.1 = r
  · exact .inl (applyZ_of_written hw z z')
  · have hnot : ∀ x ∈ ws, x.1 ≠ r := fun x hx he => hw ⟨x, hx, he⟩
    exact .inr ⟨applyZ_of_not_written hnot z, applyZ_of_not_written hnot z'⟩

/-- An optional write in two states leaves the field equal, or leaves it alone in both. -/
theorem getD_equal_or_unchanged {α : Type} (o : Option α) (a b : α) : o.getD a = o.getD b ∨ (o.getD a = a ∧ o.getD b = b) := by
  cases o with
  | none => exact .inr ⟨rfl, rfl⟩
  | some x => exact .inl rfl

/-- Settles O14: both machines evaluate the same rule on the same arguments, so they make the same completion. -/
theorem resultsDependOnlyOnSnapshotAndWords : Obligations.ResultsDependOnlyOnSnapshotAndWords := by
  intro i s₁ s₂ t₁ t₂ c hc₁ hc₂ hparams h₁ h₂ hidle
  rcases exec_completion_cases hc₁ h₁ hidle with ⟨w, hok, rfl⟩ | ⟨code, herr, rfl⟩
  · rw [exec_of_success hc₂ (hparams ▸ hok)] at h₂
    cases h₂
    exact ⟨rfl, rfl, applyZ_equal_or_unchanged w.z s₁.z s₂.z, getD_equal_or_unchanged w.lenb _ _,
      getD_equal_or_unchanged w.result _ _⟩
  · rw [exec_of_error hc₂ (hparams ▸ herr)] at h₂
    cases h₂
    exact ⟨rfl, rfl, fun _ => .inr ⟨rfl, rfl⟩, .inr ⟨rfl, rfl⟩, .inr ⟨rfl, rfl⟩⟩

end Sys2Proof.Machine
end

section
/-! SUPPORT. The control and status registers through the bus: what each reads as and stores (O20, O21, O27, O28). -/

namespace Sys2Proof.Machine

open Sys2Proof.Certificates

/-! ### Host accesses to a control or status register -/

/-- A defined read of a control or status register changes nothing but the value returned (rules R62, R64). -/
theorem hostRead_csr (s : State) (off : Nat) {v : Word} (hv : readCsr off s = v) (h : off < 0x1000 := by decide)
    (h4 : off % 4 = 0 := by decide) : hostRead s off = .next { s with readData := some v } := by
  rw [hostRead, hostAccess_read s off (by omega) h4, readWindow, if_pos h, hv]

/-- A defined write of a control or status register (rules R62, R64). -/
theorem hostWrite_csr (s : State) (off : Nat) (v : Word) {t : State} (ht : writeCsr off v s = t) (h : off < 0x1000 := by decide)
    (h4 : off % 4 = 0 := by decide) : hostWrite s off v = .next t := by
  rw [hostWrite, hostAccess_write s off v (by omega) h4, writeWindow, if_pos h, ht]

theorem unlessBusy_idle {s : State} (h : s.engine = .idle) (write : State → State) : unlessBusy write s = write s := by
  simp [unlessBusy, (busy_eq_false_iff s).mpr h]

/-! ### Words of flags -/

theorem flagBit_getLsbD (b : Bool) {k : Nat} (hk : k < 32) (j : Nat) : (flagBit b k).getLsbD j = (b && decide (j = k)) := by
  cases b with
  | false => simp [flagBit]
  | true =>
    simp only [flagBit, if_true, BitVec.natCast_eq_ofNat, BitVec.getLsbD_ofNat, Nat.one_shiftLeft, Nat.testBit_two_pow, Bool.true_and]
    grind

/-- Bit `j` of STATUS (rule R38). -/
theorem statusWord_getLsbD (s : State) (j : Nat) :
    (statusWord s).getLsbD j =
      ((s.busy && decide (j = 0)) || (s.done && decide (j = 1)) || (s.result && decide (j = 2)) ||
        (s.overrun && decide (j = 3)) || (rngWait s && decide (j = 4)) || (s.rngovf && decide (j = 5)) ||
        (s.accerr && decide (j = 6)) || (decide (8 ≤ j) && s.errcode.toByte.getLsbD (j - 8))) := by
  have hcode : (s.errcode.toByte.setWidth 32 <<< 8).getLsbD j = (decide (8 ≤ j) && s.errcode.toByte.getLsbD (j - 8)) := by
    have hhigh : 8 ≤ j - 8 → s.errcode.toByte.getLsbD (j - 8) = false := s.errcode.toByte.getLsbD_of_ge _
    simp only [BitVec.getLsbD_shiftLeft, BitVec.getLsbD_setWidth]
    grind
  simp only [statusWord, BitVec.getLsbD_or, hcode, flagBit_getLsbD _ (by decide : 0 < 32), flagBit_getLsbD _ (by decide : 1 < 32),
    flagBit_getLsbD _ (by decide : 2 < 32), flagBit_getLsbD _ (by decide : 3 < 32), flagBit_getLsbD _ (by decide : 4 < 32),
    flagBit_getLsbD _ (by decide : 5 < 32), flagBit_getLsbD _ (by decide : 6 < 32)]

/-- From bit 8 on STATUS holds ERRCODE, and 0 above it. -/
theorem statusWord_getLsbD_of_ge (s : State) {j : Nat} (h : 8 ≤ j) :
    (statusWord s).getLsbD j = s.errcode.toByte.getLsbD (j - 8) := by
  have hne : ∀ k, k < 8 → j ≠ k := by omega
  rw [statusWord_getLsbD]
  simp [h, hne]

theorem statusWord_errcode (s : State) : (statusWord s).extractLsb' 8 8 = s.errcode.toByte := by
  refine BitVec.eq_of_getLsbD_eq fun i hi => ?_
  rw [BitVec.getLsbD_extractLsb', statusWord_getLsbD_of_ge s (by omega), decide_eq_true hi, Bool.true_and, Nat.add_sub_cancel_left]

theorem statusWord_high (s : State) : (statusWord s).extractLsb' 16 16 = 0 := by
  refine BitVec.eq_of_getLsbD_eq fun i hi => ?_
  rw [BitVec.getLsbD_extractLsb', statusWord_getLsbD_of_ge s (by omega), BitVec.getLsbD_of_ge _ _ (by omega)]
  simp

/-- Bit `j` of CTRL as read (rule R29). -/
theorem ctrlWord_getLsbD (s : State) (j : Nat) :
    (ctrlWord s).getLsbD j = ((s.ie && decide (j = 0)) || (decide (s.rngsrc = .fifo) && decide (j = 1))) := by
  simp only [ctrlWord, BitVec.getLsbD_or, flagBit_getLsbD _ (by decide : 0 < 32), flagBit_getLsbD _ (by decide : 1 < 32)]

/-- RNGWAIT is 1 exactly while the running command needs a word and its source has none (rule R43, log 8). -/
theorem rngWait_iff (s : State) :
    rngWait s = true ↔ ∃ c i, s.engine = .busy c ∧ decode c.cmd = .ok i ∧
      runCommand i s.params c.snap c.drawn = .needWord ∧
      ((c.snap.rngsrc = .fifo ∧ s.fifo = []) ∨ (c.snap.rngsrc = .entropy ∧ s.entropy = [])) := by
  unfold rngWait
  cases he : s.engine with
  | idle => simp
  | busy c =>
    have hempty : (available c s).isEmpty = true ↔
        (c.snap.rngsrc = .fifo ∧ s.fifo = []) ∨ (c.snap.rngsrc = .entropy ∧ s.entropy = []) := by
      cases hsrc : c.snap.rngsrc <;> simp [available, hsrc]
    have hneed : runningNeedsWord s.params c = true ↔
        ∃ i, decode c.cmd = .ok i ∧ runCommand i s.params c.snap c.drawn = .needWord := by
      unfold runningNeedsWord
      cases decode c.cmd <;> simp
    simp only [Bool.and_eq_true, hneed, hempty, Engine.busy.injEq]
    constructor
    · rintro ⟨⟨i, hi, hr⟩, hsrc⟩
      exact ⟨c, i, rfl, hi, hr, hsrc⟩
    · rintro ⟨_, i, rfl, hi, hr, hsrc⟩
      exact ⟨⟨i, hi, hr⟩, hsrc⟩

theorem writeStatus_eq (v : Word) (s : State) :
    writeStatus v s = { s with
      done := s.done && !v.getLsbD 1
      overrun := s.overrun && !v.getLsbD 3
      rngovf := s.rngovf && !v.getLsbD 5
      accerr := s.accerr && !v.getLsbD 6 } := by
  unfold writeStatus
  cases v.getLsbD 1 <;> simp [clearDone]

/-- PARAM as a number: a byte for each of MAXW, HLEN, FIFO_DEPTH and NZ (rule R28). -/
theorem paramWord_toNat {p : Params} (h : p.wf = true) :
    (paramWord p).toNat = ((8 * 256 + p.fifoDepth) * 256 + 20) * 256 + p.maxw := by
  simp only [Params.wf, Bool.and_eq_true, decide_eq_true_eq] at h
  obtain ⟨⟨⟨⟨-, hmaxw⟩, -⟩, hdepth⟩, -⟩ := h
  have happ : ∀ {n : Nat} (x : BitVec n) (k : Nat), k < 256 → (x ++ BitVec.ofNat 8 k).toNat = x.toNat * 256 + k := by
    intro n x k hk
    rw [BitVec.toNat_append, BitVec.toNat_ofNat, Nat.mod_eq_of_lt hk, ← Nat.shiftLeft_add_eq_or_of_lt hk, Nat.shiftLeft_eq]
  rw [paramWord, happ _ _ (by omega), happ _ _ (by decide), happ _ _ (by omega)]
  rfl

/-- Settles O20: STATUS bit by bit, and its W1C write. -/
theorem statusFieldsAndW1C : Obligations.StatusFieldsAndW1C := by
  refine ⟨fun code => by cases code <;> rfl, fun s => ?_⟩
  refine ⟨hostRead_csr s 0x18 rfl, ?_, ?_, ?_, ?_, ?_, ?_, ?_, statusWord_errcode s, statusWord_high s, ?_, fun v => ?_⟩
  case refine_9 => exact hostWrite_csr s 0x18 v (writeStatus_eq v s)
  case refine_8 => rw [← rngWait_iff, statusWord_getLsbD]; simp
  all_goals rw [statusWord_getLsbD]; simp

/-- Settles O21: the three constants, PARAM a byte each, and the writes that are ignored. -/
theorem identityRegistersAreConstant : Obligations.IdentityRegistersAreConstant := by
  intro s hwf
  have hparam := paramWord_toNat hwf
  simp only [Params.wf, Bool.and_eq_true, decide_eq_true_eq] at hwf
  obtain ⟨⟨⟨⟨-, hmaxw⟩, -⟩, hdepth⟩, -⟩ := hwf
  refine ⟨paramWord s.params, hostRead_csr s 0x000 rfl, hostRead_csr s 0x004 rfl, hostRead_csr s 0x008 rfl, ?_, ?_, ?_, ?_, ?_⟩
  case refine_5 => rintro off v (rfl | rfl | rfl | rfl | rfl) <;> exact hostWrite_csr s _ v rfl
  all_goals
    rw [BitVec.extractLsb'_toNat, hparam, Nat.shiftRight_eq_div_pow]
    omega

/-- MR_ROUNDS is clamped from below at 5 (rule R34). -/
theorem writeMrRounds_eq (v : Word) (s : State) :
    writeMrRounds v s = { s with mrRounds := BitVec.ofNat 8 (max (v.toNat % 256) 5) } := by
  have hclamp : (if (v.setWidth 8 : BitVec 8) < 5 then 5 else v.setWidth 8) = BitVec.ofNat 8 (max (v.toNat % 256) 5) := by
    apply BitVec.eq_of_toNat_eq
    simp only [BitVec.lt_def, apply_ite BitVec.toNat, BitVec.toNat_setWidth, BitVec.toNat_ofNat, show (5 : BitVec 8).toNat = 5 from rfl]
    split <;> omega
  rw [writeMrRounds, hclamp]

/-- Settles O27: each register's write while Idle, and its read at any time. -/
theorem configurationRegistersStoreTheirFields : Obligations.ConfigurationRegistersStoreTheirFields := by
  intro s
  refine ⟨fun v hidle => ⟨hostWrite_csr s 0x01C v ?_, hostWrite_csr s 0x020 v ?_, hostWrite_csr s 0x024 v ?_,
      hostWrite_csr s 0x028 v ?_⟩, ⟨ctrlWord s, hostRead_csr s 0x010 rfl, ?_, ?_, fun k hk => ?_⟩, hostRead_csr s 0x014 rfl,
    hostRead_csr s 0x01C (BitVec.ofNat_toNat _ _).symm, hostRead_csr s 0x020 (BitVec.ofNat_toNat _ _).symm,
    hostRead_csr s 0x024 (BitVec.ofNat_toNat _ _).symm, hostRead_csr s 0x028 (BitVec.ofNat_toNat _ _).symm,
    hostRead_csr s 0x034 rfl⟩
  · exact (unlessBusy_idle hidle _).trans (writeMrRounds_eq v s)
  · rw [← BitVec.setWidth_eq_extractLsb' (by decide)]
    exact unlessBusy_idle hidle fun s => { s with keysize := v.setWidth 16 }
  · rw [← BitVec.setWidth_eq_extractLsb' (by decide)]
    exact unlessBusy_idle hidle fun s => { s with lena := v.setWidth 16 }
  · rw [← BitVec.setWidth_eq_extractLsb' (by decide)]
    exact unlessBusy_idle hidle fun s => { s with lenb := v.setWidth 16 }
  · rw [ctrlWord_getLsbD]
    simp
  · rw [ctrlWord_getLsbD]
    simp
  · rw [ctrlWord_getLsbD]
    simp [show k ≠ 0 by omega, show k ≠ 1 by omega]

/-- Settles O28: the two cases of a write of RNG_DATA, and the two reads. -/
theorem rngDataFeedsTheFifo : Obligations.RngDataFeedsTheFifo := by
  intro s v
  refine ⟨fun hroom => hostWrite_csr s 0x02C v (if_pos hroom), fun hfull => hostWrite_csr s 0x02C v (if_neg (Nat.not_lt.mpr hfull)),
    hostRead_csr s 0x02C rfl, fun hlevel => hostRead_csr s 0x030 ?_⟩
  simp only [readCsr, rngLevelWord, Nat.mod_eq_of_lt (Nat.lt_succ_of_le hlevel)]

end Sys2Proof.Machine
end

section
/-! SUPPORT. The words that decode are the well-formed ones (rules R93, R94, R96): a row's mask selects the opcode, the reserved
bits and the fields the row's command does not use. -/

namespace Sys2Proof

/-! ### Masks -/

/-- A mask of `len` bits at bit `lo`. -/
def bitsMask (lo len : Nat) : Word := BitVec.ofNat 32 ((2 ^ len - 1) <<< lo)

theorem and_bitsMask_toNat (w : Word) {lo len : Nat} (h : lo + len ≤ 32) :
    (w &&& bitsMask lo len).toNat = (w.toNat / 2 ^ lo % 2 ^ len) <<< lo := by
  have hlt : (2 ^ len - 1) <<< lo < 2 ^ 32 := by
    rw [Nat.shiftLeft_eq]
    calc (2 ^ len - 1) * 2 ^ lo < 2 ^ len * 2 ^ lo := Nat.mul_lt_mul_of_pos_right (Nat.sub_one_lt (by positivity)) (by positivity)
      _ = 2 ^ (len + lo) := (Nat.pow_add ..).symm
      _ ≤ 2 ^ 32 := Nat.pow_le_pow_right (by decide) (by omega)
  rw [bitsMask, BitVec.toNat_and, BitVec.toNat_ofNat, Nat.mod_eq_of_lt hlt, ← Nat.shiftRight_eq_div_pow]
  refine Nat.eq_of_testBit_eq fun i => ?_
  simp only [Nat.testBit_and, Nat.testBit_shiftLeft, Nat.testBit_two_pow_sub_one, Nat.testBit_mod_two_pow, Nat.testBit_shiftRight]
  by_cases hi : lo ≤ i
  · simp [hi, Bool.and_comm]
  · simp [hi]

/-- A word is 0 under a mask exactly when the masked bits, as a number, are 0. -/
theorem and_bitsMask_eq_zero_iff (w : Word) {lo len : Nat} (h : lo + len ≤ 32) :
    w &&& bitsMask lo len = 0 ↔ w.toNat / 2 ^ lo % 2 ^ len = 0 := by
  rw [← BitVec.toNat_inj, and_bitsMask_toNat w h]
  simp

theorem and_lowByte_eq_iff (w m : Word) : w &&& 0xFF = m ↔ w.toNat % 256 = m.toNat := by
  have hlow : (w &&& 0xFF).toNat = w.toNat % 256 := by
    rw [BitVec.toNat_and]
    exact Nat.and_two_pow_sub_one_eq_mod w.toNat 8
  rw [← BitVec.toNat_inj, hlow]

theorem and_or_eq_zero_iff (w a b : Word) : w &&& (a ||| b) = 0 ↔ w &&& a = 0 ∧ w &&& b = 0 := by
  rw [BitVec.and_or_distrib_left]
  exact BitVec.or_eq_zero_iff

/-- Under two disjoint masks a word is a value of the first exactly when it is that value under the first and 0 under the second. -/
theorem and_or_eq_iff {w a b m : Word} (hab : a &&& b = 0) (hm : m &&& a = m) : w &&& (a ||| b) = m ↔ w &&& a = m ∧ w &&& b = 0 := by
  constructor
  · intro h
    have ha : w &&& a = w &&& (a ||| b) &&& a := by
      ext i hi
      simp only [BitVec.getElem_and, BitVec.getElem_or]
      cases a[i] <;> simp
    have hb : w &&& b = w &&& (a ||| b) &&& b := by
      ext i hi
      simp only [BitVec.getElem_and, BitVec.getElem_or]
      cases b[i] <;> simp
    refine ⟨by rw [ha, h, hm], ?_⟩
    rw [hb, h, ← hm, BitVec.and_assoc, hab]
    exact BitVec.and_zero
  · rintro ⟨ha, hb⟩
    rw [BitVec.and_or_distrib_left, ha, hb]
    exact BitVec.or_zero

/-! ### The rows of the opcode map -/

/-- The bits rule R93 reserves. -/
def reservedMask : Word := bitsMask 11 1 ||| bitsMask 15 1 ||| bitsMask 19 1 ||| bitsMask 23 9

/-- The fields a command does not use (rule R94). -/
def unusedMask (u : FieldUse) : Word :=
  (if u.rd then 0 else bitsMask 8 3) ||| (if u.rs1 then 0 else bitsMask 12 3) ||| (if u.rs2 then 0 else bitsMask 16 3) |||
    (if u.rs3 then 0 else bitsMask 20 3)

theorem and_reservedMask_eq_zero_iff (w : Word) : w &&& reservedMask = 0 ↔ CommandWord.reservedClear w = true := by
  have hbit : ∀ k, w.getLsbD k = false ↔ w.toNat / 2 ^ k % 2 ^ 1 = 0 := by
    intro k
    simp [BitVec.getLsbD, Nat.testBit_eq_decide_div_mod_eq]
  have hhigh : w.toNat / 2 ^ 23 % 2 ^ 9 = w.toNat / 2 ^ 23 := Nat.mod_eq_of_lt (by omega)
  simp only [reservedMask, and_or_eq_zero_iff, and_bitsMask_eq_zero_iff w (by decide : 11 + 1 ≤ 32),
    and_bitsMask_eq_zero_iff w (by decide : 15 + 1 ≤ 32), and_bitsMask_eq_zero_iff w (by decide : 19 + 1 ≤ 32),
    and_bitsMask_eq_zero_iff w (by decide : 23 + 9 ≤ 32), hhigh, CommandWord.reservedClear, Bool.and_eq_true, Bool.not_eq_true',
    decide_eq_true_eq, hbit]

theorem and_unusedMask_eq_zero_iff (w : Word) (u : FieldUse) (hu : fieldUse (w.toNat % 256) = some u) :
    w &&& unusedMask u = 0 ↔ CommandWord.unusedClear w = true := by
  have hfield : ∀ (b : Bool) {lo : Nat}, lo + 3 ≤ 32 →
      (w &&& (if b then 0 else bitsMask lo 3) = 0 ↔ (b || decide (w.toNat / 2 ^ lo % 8 = 0)) = true) := by
    intro b lo hlo
    cases b
    · simpa using and_bitsMask_eq_zero_iff w hlo
    · simp
  simp only [unusedMask, and_or_eq_zero_iff, hfield _ (by decide : 8 + 3 ≤ 32),
    hfield _ (by decide : 12 + 3 ≤ 32), hfield _ (by decide : 16 + 3 ≤ 32), hfield _ (by decide : 20 + 3 ≤ 32),
    CommandWord.unusedClear, hu, Bool.and_eq_true]

/-- Every row's match is its opcode, and its mask the opcode byte, the reserved bits and the unused fields (rule R95). -/
theorem opcodeRows_mask : ∀ r ∈ opcodeRows, r.matchWord.toNat < 256 ∧
    (fieldUse r.matchWord.toNat).map (fun u => 0xFF ||| (reservedMask ||| unusedMask u)) = some r.mask := by
  decide

/-- Every known opcode has a row. -/
theorem exists_row_of_fieldUse {opc : Nat} (h : (fieldUse opc).isSome = true) : ∃ r ∈ opcodeRows, r.matchWord.toNat = opc := by
  have hmem : opc ∈ opcodeRows.map fun r => r.matchWord.toNat := by
    unfold fieldUse at h
    split at h
    on_goal 15 => cases h
    all_goals decide
  exact List.mem_map.mp hmem

/-- A row's word is its opcode in a well-formed word. -/
theorem matches_iff {r : OpcodeRow} (hr : r ∈ opcodeRows) (w : Word) :
    r.matches w = true ↔
      w.toNat % 256 = r.matchWord.toNat ∧ CommandWord.reservedClear w = true ∧ CommandWord.unusedClear w = true := by
  obtain ⟨hopc, hmask⟩ := opcodeRows_mask r hr
  obtain ⟨u, hu, hmask⟩ := Option.map_eq_some_iff.mp hmask
  have hdisj : (0xFF : Word) &&& (reservedMask ||| unusedMask u) = 0 := by
    rcases u with ⟨_ | _, _ | _, _ | _, _ | _⟩ <;> rfl
  have hself : r.matchWord &&& 0xFF = r.matchWord := (and_lowByte_eq_iff _ _).mpr (Nat.mod_eq_of_lt hopc)
  rw [OpcodeRow.matches, beq_iff_eq, ← hmask, and_or_eq_iff hdisj hself, and_lowByte_eq_iff, and_or_eq_zero_iff,
    and_reservedMask_eq_zero_iff]
  refine and_congr_right fun hw => and_congr_right fun _ => ?_
  exact and_unusedMask_eq_zero_iff w u (hw ▸ hu)

/-- A word decodes exactly when it is a row's command. -/
theorem decode_ok_iff_matches (w : Word) : (∃ i, decode w = .ok i) ↔ ∃ r ∈ opcodeRows, r.matches w = true := by
  rw [← List.find?_isSome]
  unfold decode
  cases opcodeRows.find? (fun r => r.matches w) <;> simp

/-- A word decodes exactly when it is well formed (rules R93, R94, R96). -/
theorem decode_ok_iff_wf (w : Word) : (∃ i, decode w = .ok i) ↔ CommandWord.wf w = true := by
  rw [decode_ok_iff_matches]
  simp only [CommandWord.wf, CommandWord.opcodeKnown, Bool.and_eq_true, and_assoc]
  constructor
  · rintro ⟨r, hr, hw⟩
    obtain ⟨hopc, hclear⟩ := (matches_iff hr w).mp hw
    obtain ⟨u, hu, -⟩ := Option.map_eq_some_iff.mp (opcodeRows_mask r hr).2
    exact ⟨by rw [hopc, hu]; rfl, hclear⟩
  · rintro ⟨hknown, hclear⟩
    obtain ⟨r, hr, hopc⟩ := exists_row_of_fieldUse hknown
    exact ⟨r, hr, (matches_iff hr w).mpr ⟨hopc.symm, hclear⟩⟩

theorem decode_error_of_not_wf {w : Word} (h : CommandWord.wf w = false) : ∃ e, decode w = .error e := by
  cases hd : decode w with
  | error e => exact ⟨e, rfl⟩
  | ok i => simp [(decode_ok_iff_wf w).mp ⟨i, hd⟩] at h

end Sys2Proof
end

section
/-! SUPPORT. The interrupt output at a completion and where it is lowered (O19). -/

namespace Sys2Proof.Machine

open Sys2Proof.Certificates

/-! ### IRQ (rules R50, R252) -/

@[simp] theorem irq_finish (code : ErrCode) (s : State) : irq (finish code s) = s.ie := by simp [irq]

@[simp] theorem irq_completeOk (w : Writes) (s : State) : irq (completeOk w s) = s.ie := by simp [irq]

@[simp] theorem irq_completeError (code : ErrCode) (s : State) : irq (completeError code s) = s.ie := by simp [irq]

@[simp] theorem irq_softReset (s : State) : irq (softReset s) = false := by simp [irq]

/-! ### CTRL and CMD writes -/

@[simp] theorem setCtrlFields_ie (v : Word) (s : State) : (setCtrlFields v s).ie = v.getLsbD 0 := by
  unfold setCtrlFields
  split
  · rfl
  · split <;> rfl

@[simp] theorem setCtrlFields_engine (v : Word) (s : State) : (setCtrlFields v s).engine = s.engine := by
  unfold setCtrlFields
  split
  · rfl
  · split <;> rfl

theorem writeCtrl_softReset {v : Word} (h : v.getLsbD 3 = true) (s : State) : writeCtrl v s = softReset s := by
  rw [writeCtrl_eq, if_pos h]

/-- IE after a CTRL write: the bit written, or 0 after a soft reset (rules R29, R214). -/
theorem writeCtrl_ie (v : Word) (s : State) : (writeCtrl v s).ie = (!v.getLsbD 3 && v.getLsbD 0) := by
  rw [writeCtrl_eq]
  split
  · next h3 =>
    rw [h3]
    rfl
  · next h3 =>
    rw [Bool.eq_false_iff.mpr h3]
    simp [apply_ite State.ie]

theorem abort_of_busy {s : State} {c : Running} (h : s.engine = .busy c) : abort s = finish .aborted s := by
  rw [abort, if_pos ((busy_eq_true_iff s).mpr ⟨c, h⟩)]

/-- A CTRL write with ABORT and without SOFTRST ends the running command (rules R212, R214). -/
theorem writeCtrl_abort {v : Word} {s : State} {c : Running} (hc : s.engine = .busy c) (h3 : v.getLsbD 3 = false)
    (h2 : v.getLsbD 2 = true) :
    writeCtrl v s = finish .aborted (if v.getLsbD 4 then flushFifo (setCtrlFields v s) else setCtrlFields v s) := by
  rw [writeCtrl_eq, if_neg (Bool.eq_false_iff.mp h3)]
  dsimp only
  rw [if_pos h2]
  refine abort_of_busy (c := c) ?_
  simp [apply_ite State.engine, hc]

theorem writeCmd_idle {s : State} (h : s.engine = .idle) (w : Word) : writeCmd w s = accept w s := by
  simp [writeCmd, (busy_eq_false_iff s).mpr h]

/-- Settles O19: every way to complete raises IRQ where IE is set, and every lowering event lowers it. -/
theorem completionRaisesTheInterrupt : Obligations.CompletionRaisesTheInterrupt := by
  refine ⟨fun i s t c hc h hidle => ?_, fun s c v hc h3 h2 => ?_, fun s w hidle hwf => ?_, fun s v h1 => ?_, fun s v h0 => ?_,
    fun s w hidle hwf => ?_, fun s v h3 => ?_, fun s rest hs => ?_⟩
  · rcases exec_completion_cases hc h hidle with ⟨w, -, rfl⟩ | ⟨code, -, rfl⟩ <;> simp
  · refine ⟨_, hostWrite_csr s 0x10 v (writeCtrl_abort hc h3 h2), rfl, rfl, ?_⟩
    simp [apply_ite State.ie]
  · obtain ⟨e, he⟩ := decode_error_of_not_wf hwf
    refine ⟨_, hostWrite_csr s 0x14 w ((writeCmd_idle hidle w).trans (accept_illegal he s)), rfl, rfl, ?_⟩
    simp
  · refine ⟨_, hostWrite_csr s 0x18 v (writeStatus_eq v s), ?_⟩
    simp [irq, h1]
  · refine ⟨_, hostWrite_csr s 0x10 v rfl, ?_⟩
    rw [irq, show (writeCsr 0x10 v s).ie = _ from writeCtrl_ie v s, h0, Bool.and_false, Bool.false_and]
  · obtain ⟨i, hi⟩ := (decode_ok_iff_wf w).mpr hwf
    refine ⟨_, hostWrite_csr s 0x14 w ((writeCmd_idle hidle w).trans (accept_command hi s)), ?_⟩
    simp [irq]
  · exact ⟨_, hostWrite_csr s 0x10 v (writeCtrl_softReset h3 s), irq_softReset s⟩
  · exact ⟨softReset { s with schedule := rest }, by simp [step, hs], irq_softReset _⟩

end Sys2Proof.Machine
end

section
/-! SUPPORT. Steps and host accesses by the place of the access: outside the window, refused, at a reserved offset, or at a big
register's word (O6, O7, O22, O23, O25, O26). -/

namespace Sys2Proof.Machine

open Sys2Proof.Certificates

/-! ### Steps -/

/-- A host access at the head of the schedule takes effect by itself (rule R72). -/
theorem step_host {s : State} {a : Access} {rest : List Event} (h : s.schedule = .host a :: rest) :
    step s = hostAccess a { s with schedule := rest } := by
  simp [step, h]

theorem engineTurn_idle {s : State} (h : s.engine = .idle) : engineTurn s = .next s := by
  simp [engineTurn, h]

/-- An idle engine waits for no word (rules R43, R259). -/
theorem waitsForEntropy_idle {s : State} (h : s.engine = .idle) : waitsForEntropy s = false := by
  simp [waitsForEntropy, h]

theorem engineTurn_total (s : State) : ∃ t, engineTurn s = .next t := by
  rcases engineTurn_cases s with ⟨-, heq⟩ | ⟨c, i, -, -, heq⟩ | ⟨c, e, -, -, heq⟩
  · exact ⟨_, heq⟩
  · exact heq ▸ engineStep_total (runCommand i) s
  · exact ⟨_, heq⟩

theorem hostAccess_total (a : Access) (s : State) : ∃ t, hostAccess a s = .next t := by
  rcases hostAccess_cases a s with ⟨bits, addr, heq⟩ | heq | ⟨d, heq⟩ | heq | ⟨off, heq⟩ | ⟨off, v, heq⟩ <;> exact ⟨_, heq⟩

/-- No step stops the machine (rules R64, R249). -/
theorem step_total (s : State) : ∃ t, step s = .next t := by
  rcases step_cases s with ⟨-, -, heq⟩ | ⟨-, -, heq⟩ | ⟨a, rest, -, heq⟩ | ⟨rest, -, heq⟩ | ⟨w, rest, -, heq⟩ | ⟨rest, -, heq⟩
  · exact ⟨_, heq⟩
  · exact heq ▸ engineTurn_total _
  · exact heq ▸ hostAccess_total a _
  · exact heq ▸ engineTurn_total _
  · exact ⟨_, heq⟩
  · exact ⟨_, heq⟩

/-- Settles O7: every operation a step consists of answers, and an access outside the window is the platform's. -/
theorem everyStepAnswersANextState : Obligations.EveryStepAnswersANextState := by
  refine ⟨step_total, fun s bits addr rest hs hout => ?_, fun s bits addr v rest hs hout => ?_⟩
  · have hnone := (windowOffset_eq_none s.params addr).mpr hout
    exact (step_host hs).trans (hostAccess_outside { s with schedule := rest } bits addr 0 hnone).1
  · have hnone := (windowOffset_eq_none s.params addr).mpr hout
    exact (step_host hs).trans (hostAccess_outside { s with schedule := rest } bits addr v hnone).2

/-- Settles O6: the step's branch for each event, and the idle engine's turn. -/
theorem scheduledEventsTakeEffectInOrder : Obligations.ScheduledEventsTakeEffectInOrder := by
  refine ⟨fun s a rest hs => step_host hs, fun s w rest hs => ?_, fun s rest hs hidle => ?_, fun s hs hidle => ?_⟩
  · simp [step, hs, entropyAnswer]
  · simpa [step, hs] using engineTurn_idle (s := { s with schedule := rest }) hidle
  · simpa [step, hs, waitsForEntropy_idle hidle] using engineTurn_idle hidle

/-! ### Reserved offsets (rule R62) -/

theorem readCsr_reserved {off : Nat} (h : off = 0x00C ∨ 0x038 ≤ off) (s : State) : readCsr off s = 0 := by
  unfold readCsr
  split
  case h_14 => rfl
  all_goals omega

theorem writeCsr_reserved {off : Nat} (h : off = 0x00C ∨ 0x038 ≤ off) (v : Word) (s : State) : writeCsr off v s = s := by
  unfold writeCsr
  split
  case h_9 => rfl
  all_goals omega

/-- Settles O22: a reserved offset is no register of either direction. -/
theorem reservedOffsetsReadZero : Obligations.ReservedOffsetsReadZero := by
  intro s off v h4 hoff
  have hres : off = 0x00C ∨ 0x038 ≤ off := hoff.imp_right And.left
  exact ⟨hostRead_csr s off (readCsr_reserved hres s) (by omega) h4,
    hostWrite_csr s off v (writeCsr_reserved hres v s) (by omega) h4⟩

/-! ### Refused accesses (rules R64, R70) -/

theorem definedAccess_eq_false {bits off : Nat} (h : bits ≠ 32 ∨ off % 4 ≠ 0) : definedAccess bits off = false := by
  simpa [definedAccess, imp_iff_not_or] using h

/-- Settles O26: an access that is not a defined one is refused before its offset is looked at. -/
theorem undefinedAccessesAreRefused : Obligations.UndefinedAccessesAreRefused :=
  fun s bits off v hoff h => hostAccess_undefined s bits off v hoff (definedAccess_eq_false h)

theorem unlessBusy_busy {s : State} {c : Running} (h : s.engine = .busy c) (write : State → State) :
    unlessBusy write s = refuseAccess s := by
  simp [unlessBusy, (busy_eq_true_iff s).mpr ⟨c, h⟩]

theorem readWindow_operand_busy {s : State} {c : Running} (h : s.engine = .busy c) {off : Nat} (hoff : 0x1000 ≤ off) :
    readWindow off s = (0, refuseAccess s) := by
  simp [readWindow, Nat.not_lt.mpr hoff, (busy_eq_true_iff s).mpr ⟨c, h⟩]

theorem readWindow_operand_idle {s : State} (h : s.engine = .idle) {off : Nat} (hoff : 0x1000 ≤ off) :
    readWindow off s = (readZ (offsetReg off) (offsetWord off) s, s) := by
  simp [readWindow, Nat.not_lt.mpr hoff, (busy_eq_false_iff s).mpr h]

theorem writeWindow_operand {off : Nat} (hoff : 0x1000 ≤ off) (v : Word) (s : State) :
    writeWindow off v s = unlessBusy (writeZ (offsetReg off) (offsetWord off) v) s :=
  if_neg (Nat.not_lt.mpr hoff)

/-- The configuration registers are written only while no command runs (rule R70). -/
theorem writeCsr_configuration {off : Nat} (h : off = 0x01C ∨ off = 0x020 ∨ off = 0x024 ∨ off = 0x028) (v : Word) (s : State) :
    ∃ write, writeCsr off v s = unlessBusy write s := by
  unfold writeCsr
  rcases h with rfl | rfl | rfl | rfl <;> exact ⟨_, rfl⟩

/-- Settles O25: a big register's word is refused whatever its number, a configuration register refuses the write, and the other
reads do not look at BUSY. -/
theorem operandsAreClosedWhileBusy : Obligations.OperandsAreClosedWhileBusy := by
  intro s c v hc
  refine ⟨fun off hlo hhi h4 => ⟨?_, ?_⟩, fun off hoff => ?_, fun off hoff h4 => hostRead_csr s off rfl hoff h4⟩
  · rw [hostRead, hostAccess_read s off hhi h4, readWindow_operand_busy hc hlo]
    rfl
  · rw [hostWrite, hostAccess_write s off v hhi h4, writeWindow_operand hlo, unlessBusy_busy hc]
    rfl
  · obtain ⟨write, hwrite⟩ := writeCsr_configuration hoff v s
    exact hostWrite_csr s off v (hwrite.trans (unlessBusy_busy hc write)) (by omega) (by omega)

/-! ### Words of a big register (rules R63, R66) -/

/-- The offset of word `j` of Zi (rule R63). -/
def zOffset (i : ZReg) (j : Nat) : Nat := 0x1000 + 0x100 * i.val + 4 * j

theorem offsetReg_zOffset (i : ZReg) {j : Nat} (hj : j < 64) : offsetReg (zOffset i j) = i := by
  have hi := i.isLt
  apply Fin.ext
  simp only [offsetReg, zOffset]
  omega

theorem offsetWord_zOffset (i : ZReg) {j : Nat} (hj : j < 64) : offsetWord (zOffset i j) = j := by
  simp only [offsetWord, zOffset]
  omega

theorem le_zOffset (i : ZReg) (j : Nat) : 0x1000 ≤ zOffset i j := by
  simp only [zOffset]
  omega

theorem zOffset_aligned (i : ZReg) (j : Nat) : zOffset i j % 4 = 0 := by
  simp only [zOffset]
  omega

theorem zOffset_lt (i : ZReg) {j : Nat} (hj : j < 64) : zOffset i j < 0x1800 := by
  have hi := i.isLt
  simp only [zOffset]
  omega

/-- A read of word `j` of Zi while no command runs (rule R63). -/
theorem hostRead_z {s : State} (hidle : s.engine = .idle) (i : ZReg) {j : Nat} (hj : j < 64) :
    hostRead s (zOffset i j) = .next { s with readData := some (readZ i j s) } := by
  rw [hostRead, hostAccess_read s _ (zOffset_lt i hj) (zOffset_aligned i j), readWindow_operand_idle hidle (le_zOffset i j),
    offsetReg_zOffset i hj, offsetWord_zOffset i hj]

/-- A write of word `j` of Zi while no command runs (rule R63). -/
theorem hostWrite_z {s : State} (hidle : s.engine = .idle) (i : ZReg) {j : Nat} (hj : j < 64) (v : Word) :
    hostWrite s (zOffset i j) v = .next (writeZ i j v s) := by
  rw [hostWrite, hostAccess_write s _ v (zOffset_lt i hj) (zOffset_aligned i j), writeWindow_operand (le_zOffset i j),
    unlessBusy_idle hidle, offsetReg_zOffset i hj, offsetWord_zOffset i hj]

/-- Settles O23: below MAXW the word is read and replaced, and from MAXW on there is no word. -/
theorem bigRegisterWordsReadAndWrite : Obligations.BigRegisterWordsReadAndWrite := by
  intro s i j v hidle hj
  have hread := hostRead_z hidle i hj
  have hwrite := hostWrite_z hidle i hj v
  refine ⟨fun hw => ?_, fun hw => ?_⟩
  · rw [readZ, if_pos hw] at hread
    rw [writeZ, if_pos hw] at hwrite
    exact ⟨hread, setWord s.z[i] j v, hwrite, wordOf_setWord_same _ j v, fun k hk => wordOf_setWord_other _ j k v hk⟩
  · rw [readZ, if_neg (Nat.not_lt.mpr hw)] at hread
    rw [writeZ, if_neg (Nat.not_lt.mpr hw)] at hwrite
    exact ⟨hread, hwrite⟩

/-- The first `n` words of an integer make its low `32·n` bits (rule R66). -/
theorem sum_wordOf (x n : Nat) : ∑ j : Fin n, (wordOf x j.val).toNat * 2 ^ (32 * j.val) = x % 2 ^ (32 * n) := by
  induction n with
  | zero => simp [Nat.mod_one]
  | succ n ih =>
    rw [Fin.sum_univ_castSucc]
    simp only [Fin.val_castSucc, Fin.val_last, ih]
    rw [Nat.mul_succ, Nat.pow_add, Nat.mod_mul, wordOf, BitVec.toNat_ofNat, Nat.mul_comm (2 ^ _)]

/-- Settles O24: a value below `2^(32·MAXW)` is its own low `32·MAXW` bits. -/
theorem bigRegisterIsTheSumOfItsWords : Obligations.BigRegisterIsTheSumOfItsWords :=
  fun p x hx => ((sum_wordOf x p.maxw).trans (Nat.mod_eq_of_lt hx)).symm

/-! ### Byte strings (rule R67) -/

theorem os2ip_eq_sum (s : List Byte) : os2ip s = ∑ i : Fin s.length, (s.get i).toNat * 256 ^ (s.length - 1 - i.val) := by
  induction s with
  | nil => rfl
  | cons b t ih =>
    rw [os2ip_cons, ih]
    simp [Fin.sum_univ_succ, Nat.sub_add_eq, Nat.sub_right_comm]

/-- Settles O60: OS2IP's digits, I2OSP's range, and the two round trips of the codec. -/
theorem codecFramesByteStrings : Obligations.CodecFramesByteStrings := by
  refine ⟨os2ip_eq_sum, fun x len => i2osp_eq_none, fun x len hx => ?_⟩
  refine ⟨bytesOf len x, i2osp_eq_some.mpr ⟨hx, rfl⟩, bytesOf_length len x, os2ip_bytesOf len x hx, ?_⟩
  rintro b rfl rfl
  exact (bytesOf_os2ip b).symm

end Sys2Proof.Machine
end

section
/-! SUPPORT. The decoder row by row: a word matches at most one row, and its fields and its row's opcode make the word again
(rules R95, R97, R98; O1 to O4). -/

namespace Sys2Proof

open Sys2Proof.Laws

/-! ### The fields of a word -/

theorem regField_val (w : Word) (lo : Nat) : (regField w lo).val = w.toNat / 2 ^ lo % 8 := by
  simp [regField, Nat.shiftRight_eq_div_pow]

section Fields
variable {opc : Nat} (h : opc < 256) (rd rs1 rs2 rs3 : ZReg)
include h

theorem formatC_opcode : (formatC opc rd rs1 rs2 rs3).toNat % 256 = opc := by
  rw [formatC_toNat opc h]
  omega

@[simp] theorem fieldRD_formatC : fieldRD (formatC opc rd rs1 rs2 rs3) = rd := by
  ext
  rw [fieldRD, regField_val, formatC_toNat opc h]
  omega

@[simp] theorem fieldRS1_formatC : fieldRS1 (formatC opc rd rs1 rs2 rs3) = rs1 := by
  ext
  rw [fieldRS1, regField_val, formatC_toNat opc h]
  omega

@[simp] theorem fieldRS2_formatC : fieldRS2 (formatC opc rd rs1 rs2 rs3) = rs2 := by
  ext
  rw [fieldRS2, regField_val, formatC_toNat opc h]
  omega

@[simp] theorem fieldRS3_formatC : fieldRS3 (formatC opc rd rs1 rs2 rs3) = rs3 := by
  ext
  rw [fieldRS3, regField_val, formatC_toNat opc h]
  omega

end Fields

/-- The reserved bits as digits of the word (rule R93). -/
theorem reservedClear_iff (w : Word) : CommandWord.reservedClear w = true ↔
    w.toNat / 2 ^ 11 % 2 = 0 ∧ w.toNat / 2 ^ 15 % 2 = 0 ∧ w.toNat / 2 ^ 19 % 2 = 0 ∧ w.toNat / 2 ^ 23 = 0 := by
  simp [CommandWord.reservedClear, BitVec.getLsbD, Nat.testBit_eq_decide_div_mod_eq, and_assoc]

/-- A word with clear reserved bits is its opcode and its four fields (rule R90). -/
theorem formatC_fields {w : Word} (h : CommandWord.reservedClear w = true) :
    formatC (w.toNat % 256) (fieldRD w) (fieldRS1 w) (fieldRS2 w) (fieldRS3 w) = w := by
  obtain ⟨h11, h15, h19, hhigh⟩ := (reservedClear_iff w).mp h
  apply BitVec.eq_of_toNat_eq
  rw [formatC_toNat _ (Nat.mod_lt _ (by decide))]
  simp only [fieldRD, fieldRS1, fieldRS2, fieldRS3, regField_val]
  omega

/-- A field a command uses, or 0. -/
def usedField (used : Bool) (r : ZReg) : ZReg := if used then r else 0

theorem usedField_regField {used : Bool} {w : Word} {lo : Nat} (h : (used || decide (w.toNat / 2 ^ lo % 8 = 0)) = true) :
    usedField used (regField w lo) = regField w lo := by
  cases used with
  | true => rfl
  | false =>
    have hzero : regField w lo = 0 := Fin.ext ((regField_val w lo).trans (by simpa using h))
    rw [hzero]
    rfl

/-- Where the unused fields are clear, dropping them changes nothing (rule R94). -/
theorem formatC_usedFields {w : Word} {u : FieldUse} (hu : fieldUse (w.toNat % 256) = some u)
    (hreserved : CommandWord.reservedClear w = true) (hunused : CommandWord.unusedClear w = true) :
    formatC (w.toNat % 256) (usedField u.rd (fieldRD w)) (usedField u.rs1 (fieldRS1 w)) (usedField u.rs2 (fieldRS2 w))
      (usedField u.rs3 (fieldRS3 w)) = w := by
  simp only [CommandWord.unusedClear, hu, Bool.and_eq_true] at hunused
  obtain ⟨⟨⟨hrd, h1⟩, h2⟩, h3⟩ := hunused
  rw [fieldRD, fieldRS1, fieldRS2, fieldRS3, usedField_regField hrd, usedField_regField h1, usedField_regField h2,
    usedField_regField h3]
  exact formatC_fields hreserved

/-! ### The row of a word -/

/-- The opcodes of the 14 rows differ, so a word is at most one row's command (rule R97). -/
theorem eq_of_matches {r r' : OpcodeRow} (hr : r ∈ opcodeRows) (hr' : r' ∈ opcodeRows) {w : Word} (h : r.matches w = true)
    (h' : r'.matches w = true) : r' = r := by
  have hnodup : (opcodeRows.map fun r => r.matchWord.toNat).Nodup := by decide
  obtain ⟨hopc, -⟩ := (matches_iff hr w).mp h
  obtain ⟨hopc', -⟩ := (matches_iff hr' w).mp h'
  exact List.inj_on_of_nodup_map hnodup hr' hr (hopc'.symm.trans hopc)

theorem exists_row_of_decode {w : Word} {i : Instr} (h : decode w = .ok i) :
    ∃ r ∈ opcodeRows, r.matches w = true ∧ r.build w = i := by
  unfold decode at h
  split at h
  · next r hfind => exact ⟨r, List.mem_of_find?_eq_some hfind, by simpa using List.find?_some hfind, Except.ok.inj h⟩
  · cases h

/-- A row that matches is the one the decoder takes (rules R95, R97). -/
theorem decode_of_matches {r : OpcodeRow} (hr : r ∈ opcodeRows) {w : Word} (h : r.matches w = true) :
    decode w = .ok (r.build w) := by
  obtain ⟨i, hi⟩ := (decode_ok_iff_matches w).mpr ⟨r, hr, h⟩
  obtain ⟨r', hr', h', hbuild⟩ := exists_row_of_decode hi
  rw [hi, ← hbuild, eq_of_matches hr hr' h h']

theorem decode_error_of_no_row {w : Word} (h : ∀ r ∈ opcodeRows, r.matches w = false) : ∃ e, decode w = .error e := by
  cases hd : decode w with
  | error e => exact ⟨e, rfl⟩
  | ok i =>
    obtain ⟨r, hr, hmatch, -⟩ := exists_row_of_decode hd
    exact absurd hmatch (Bool.eq_false_iff.mp (h r hr))

/-! ### Encoding and decoding (rule R98) -/

/-- A row's command is encoded with the row's opcode and the fields it uses. -/
theorem encode_build {r : OpcodeRow} (hr : r ∈ opcodeRows) : ∃ u, fieldUse r.matchWord.toNat = some u ∧ ∀ w,
    encode (r.build w) = formatC r.matchWord.toNat (usedField u.rd (fieldRD w)) (usedField u.rs1 (fieldRS1 w))
      (usedField u.rs2 (fieldRS2 w)) (usedField u.rs3 (fieldRS3 w)) := by
  simp only [opcodeRows, List.mem_cons, List.not_mem_nil, or_false] at hr
  rcases hr with rfl | rfl | rfl | rfl | rfl | rfl | rfl | rfl | rfl | rfl | rfl | rfl | rfl | rfl <;>
    exact ⟨_, rfl, fun _ => rfl⟩

/-- A word that decodes is the encoding of its command. -/
theorem encode_of_decode {w : Word} {i : Instr} (h : decode w = .ok i) : encode i = w := by
  obtain ⟨r, hr, hmatch, rfl⟩ := exists_row_of_decode h
  obtain ⟨hopc, hreserved, hunused⟩ := (matches_iff hr w).mp hmatch
  obtain ⟨u, hu, hencode⟩ := encode_build hr
  rw [← hopc] at hu hencode
  rw [hencode, formatC_usedFields hu hreserved hunused]

/-- A well-formed word of format C with the opcode of row `n` decodes by that row. -/
theorem decode_formatC (n : Nat) (hn : n < opcodeRows.length) {rd rs1 rs2 rs3 : ZReg} {i : Instr}
    (hwf : CommandWord.wf (formatC opcodeRows[n].matchWord.toNat rd rs1 rs2 rs3) = true)
    (hbuild : opcodeRows[n].build (formatC opcodeRows[n].matchWord.toNat rd rs1 rs2 rs3) = i) :
    decode (formatC opcodeRows[n].matchWord.toNat rd rs1 rs2 rs3) = .ok i := by
  have hr : opcodeRows[n] ∈ opcodeRows := List.getElem_mem hn
  simp only [CommandWord.wf, Bool.and_eq_true] at hwf
  obtain ⟨⟨-, hreserved⟩, hunused⟩ := hwf
  rw [← hbuild]
  exact decode_of_matches hr ((matches_iff hr _).mpr ⟨formatC_opcode (opcodeRows_mask _ hr).1 .., hreserved, hunused⟩)

/-- A command's word decodes to that command: the word is well formed, and its fields are the command's. -/
theorem decode_encode (i : Instr) : decode (encode i) = .ok i := by
  cases i with
  | nop => exact decode_formatC 0 (by decide) EncodeWellFormed.nop rfl
  | zeroize => exact decode_formatC 1 (by decide) EncodeWellFormed.zeroize rfl
  | montmul rd rs1 rs2 rs3 => exact decode_formatC 2 (by decide) (EncodeWellFormed.montmul rd rs1 rs2 rs3) (by simp [opcodeRows])
  | modmul rd rs1 rs2 rs3 => exact decode_formatC 3 (by decide) (EncodeWellFormed.modmul rd rs1 rs2 rs3) (by simp [opcodeRows])
  | rsq rd rs3 => exact decode_formatC 4 (by decide) (EncodeWellFormed.rsq rd rs3) (by simp [opcodeRows])
  | modexp rd rs1 rs2 rs3 => exact decode_formatC 5 (by decide) (EncodeWellFormed.modexp rd rs1 rs2 rs3) (by simp [opcodeRows])
  | gcd rd rs1 rs2 => exact decode_formatC 6 (by decide) (EncodeWellFormed.gcd rd rs1 rs2) (by simp [opcodeRows])
  | modinv rd rs1 rs3 => exact decode_formatC 7 (by decide) (EncodeWellFormed.modinv rd rs1 rs3) (by simp [opcodeRows])
  | isprime rs1 => exact decode_formatC 8 (by decide) (EncodeWellFormed.isprime rs1) (by simp [opcodeRows])
  | keygen => exact decode_formatC 9 (by decide) EncodeWellFormed.keygen rfl
  | xor rd rs1 rs2 => exact decode_formatC 10 (by decide) (EncodeWellFormed.xor rd rs1 rs2) (by simp [opcodeRows])
  | mgf1 rd rs1 => exact decode_formatC 11 (by decide) (EncodeWellFormed.mgf1 rd rs1) (by simp [opcodeRows])
  | oaepEnc rd rs1 => exact decode_formatC 12 (by decide) (EncodeWellFormed.oaepEnc rd rs1) (by simp [opcodeRows])
  | oaepDec rd rs1 => exact decode_formatC 13 (by decide) (EncodeWellFormed.oaepDec rd rs1) (by simp [opcodeRows])

/-- Settles O1: the decoder takes the row of a command's word, and a row's word is made of its opcode and the fields it uses. -/
theorem encodeAndDecodeAgree : Obligations.EncodeAndDecodeAgree :=
  ⟨decode_encode, fun _ _ => encode_of_decode⟩

/-- Settles O2: a row's mask tests the opcode, the reserved bits and the unused fields. -/
theorem decodeAcceptsExactlyWellFormedWords : Obligations.DecodeAcceptsExactlyWellFormedWords :=
  decode_ok_iff_wf

/-- Settles O3: the row a word matches is the only one, and a word without a row is rejected. -/
theorem everyWordIsOneRowOrRejected : Obligations.EveryWordIsOneRowOrRejected := by
  refine ⟨rfl, fun w => ?_⟩
  by_cases hrow : ∃ r ∈ opcodeRows, r.matches w = true
  · obtain ⟨r, hr, h⟩ := hrow
    exact .inl ⟨r, hr, h, decode_of_matches hr h, fun r' hr' h' => congrArg _ (eq_of_matches hr hr' h h')⟩
  · have hnone : ∀ r ∈ opcodeRows, r.matches w = false := fun r hr => Bool.eq_false_iff.mpr fun h => hrow ⟨r, hr, h⟩
    exact .inr ⟨hnone, decode_error_of_no_row hnone⟩

/-- Settles O4: each word is written out, so the decoder evaluates. -/
theorem exampleWordsDecode : Obligations.ExampleWordsDecode := by
  unfold Obligations.ExampleWordsDecode
  decide

end Sys2Proof
end

section
/-! SUPPORT. Montgomery arithmetic: the digit count and the radix of a modulus, the Montgomery product as the one residue whose
product with the radix is `a · b`, and the reference datapath of rule R117 (O37). -/

namespace Sys2Proof.Machine

open Sys2Proof.Certificates

/-! ### The digit count and the radix (rule R52) -/

theorem two_pow_bitlen_sub_one_le {n : Nat} (hn : n ≠ 0) : 2 ^ (bitlen n - 1) ≤ n := by
  simpa [bitlen, hn] using Nat.log2_self_le hn

theorem isDigitCount_nw (n : Nat) : isDigitCount n (nw n) := by
  refine ⟨Nat.le_max_left _ _, (lt_two_pow_bitlen n).trans_le (Nat.pow_le_pow_right two_pos (by unfold nw; omega)), ?_⟩
  by_cases hd : nw n = 1
  · exact .inl hd
  · have hbits : 32 * (nw n - 1) ≤ bitlen n - 1 ∧ bitlen n ≠ 0 := by unfold nw at *; omega
    have hn : n ≠ 0 := fun h => hbits.2 (by simp [bitlen, h])
    exact .inr ((Nat.pow_le_pow_right two_pos hbits.1).trans (two_pow_bitlen_sub_one_le hn))

theorem lt_radix (n : Nat) : n < radix n := (isDigitCount_nw n).2.1

theorem coprime_two_pow_of_odd {n : Nat} (hn : n % 2 = 1) (k : Nat) : Nat.Coprime n (2 ^ k) :=
  (Nat.coprime_two_right.mpr (Nat.odd_iff.mpr hn)).pow_right k

theorem coprime_radix {n : Nat} (hn : n % 2 = 1) : Nat.Coprime n (radix n) := coprime_two_pow_of_odd hn _

/-! ### Inverses (rule R170) -/

/-- `ModInverse` has an answer for every `a` prime to `m`. -/
theorem modInverse_of_coprime {a m : Nat} (hm : 1 ≤ m) (h : Nat.Coprime a m) :
    ∃ x, modInverse a m = some x ∧ x < m ∧ a * x ≡ 1 [MOD m] := by
  have hg : Nat.gcd (a % m) m = 1 := by rw [← Nat.gcd_rec, Nat.gcd_comm]; exact h
  obtain ⟨x, hx⟩ := Option.isSome_iff_exists.mp ((modInverse_isSome a m).trans (decide_eq_true hg))
  exact ⟨x, hx, modInverse_spec hm hx⟩

/-- Two residues with the same product by the radix are equal. -/
theorem eq_of_mul_radix_modEq {x y n : Nat} (hn : n % 2 = 1) (hx : x < n) (hy : y < n) (h : x * radix n ≡ y * radix n [MOD n]) :
    x = y :=
  (Nat.ModEq.cancel_right_of_coprime (coprime_radix hn) h).eq_of_lt_of_lt hx hy

/-- `Rinv`, the inverse of the radix by which `montMul` multiplies (rule R112). -/
def radixInv (n : Nat) : Nat := (modInverse (radix n) n).getD 0

theorem montMul_eq (a b n : Nat) : montMul a b n = a * b * radixInv n % n := rfl

theorem radixInv_spec {n : Nat} (hn : n % 2 = 1) : radixInv n < n ∧ radix n * radixInv n ≡ 1 [MOD n] := by
  obtain ⟨x, hx, hspec⟩ := modInverse_of_coprime (by omega) (coprime_radix hn).symm
  simpa [radixInv, hx] using hspec

theorem radix_mul_radixInv {n : Nat} (hn : n % 2 = 1) (h1 : 1 < n) : radix n * radixInv n % n = 1 :=
  Nat.mod_eq_of_modEq (radixInv_spec hn).2 h1

theorem one_le_radixInv {n : Nat} (hn : n % 2 = 1) (h1 : 1 < n) : 1 ≤ radixInv n :=
  Nat.pos_of_ne_zero fun h0 => by simpa [h0] using radix_mul_radixInv hn h1

theorem eq_radixInv {n x : Nat} (hn : n % 2 = 1) (hx : x < n) (h : radix n * x % n = 1) : x = radixInv n := by
  refine eq_of_mul_radix_modEq hn hx (radixInv_spec hn).1 ?_
  rw [Nat.mul_comm x, Nat.mul_comm (radixInv n)]
  exact (h ▸ (Nat.mod_modEq _ n).symm : radix n * x ≡ 1 [MOD n]).trans (radixInv_spec hn).2.symm

/-- The Montgomery product is the one residue `x` with `x · R = a · b` modulo `n` (rule R112). -/
theorem eq_montMul_of_mul_radix {x a b n : Nat} (hn : n % 2 = 1) (hx : x < n) (h : x * radix n ≡ a * b [MOD n]) :
    x = montMul a b n := by
  refine eq_of_mul_radix_modEq hn hx (Nat.mod_lt _ (by omega)) (h.trans ?_)
  symm
  calc montMul a b n * radix n ≡ a * b * radixInv n * radix n [MOD n] := (Nat.mod_modEq _ _).mul_right _
    _ = a * b * (radix n * radixInv n) := by ring
    _ ≡ a * b * 1 [MOD n] := (radixInv_spec hn).2.mul_left _
    _ = a * b := by ring

/-! ### The digit-serial product (rule R117) -/

/-- `N · N' = -1` modulo `2^32`, so `T + m · N` is a multiple of the digit base. -/
theorem nPrime_spec {n : Nat} (hn : n % 2 = 1) : n * nPrime n + 1 ≡ 0 [MOD 2 ^ 32] := by
  obtain ⟨x, hx, hlt, hinv⟩ := modInverse_of_coprime (by norm_num) (coprime_two_pow_of_odd hn 32)
  have hneg : nPrime n + x ≡ 0 [MOD 2 ^ 32] := by
    simp only [nPrime, hx, Option.getD_some, Nat.ModEq]
    omega
  calc n * nPrime n + 1 ≡ n * nPrime n + n * x [MOD 2 ^ 32] := hinv.symm.add_left _
    _ = n * (nPrime n + x) := by ring
    _ ≡ n * 0 [MOD 2 ^ 32] := hneg.mul_left _

/-- The division of one digit step is exact. -/
theorem ciosStep_exact {n : Nat} (hn : n % 2 = 1) (t : Nat) :
    (t + t % 2 ^ 32 * nPrime n % 2 ^ 32 * n) / 2 ^ 32 * 2 ^ 32 = t + t % 2 ^ 32 * nPrime n % 2 ^ 32 * n := by
  refine Nat.div_mul_cancel ((Nat.modEq_zero_iff_dvd).mp ?_)
  calc t + t % 2 ^ 32 * nPrime n % 2 ^ 32 * n ≡ t + t * nPrime n * n [MOD 2 ^ 32] :=
        (((Nat.mod_modEq _ _).trans ((Nat.mod_modEq _ _).mul_right _)).mul_right _).add_left _
    _ = t * (n * nPrime n + 1) := by ring
    _ ≡ t * 0 [MOD 2 ^ 32] := (nPrime_spec hn).mul_left _

/-- The digit loop keeps `T < N + b`, and over `k` digits divides `T + a · b` by `2^(32·k)` modulo `N`. -/
theorem ciosLoop_spec {n b : Nat} (hn : n % 2 = 1) (k a t : Nat) (ha : a < 2 ^ (32 * k)) (ht : t < n + b) :
    ciosLoop (nPrime n) n b k a t < n + b ∧ ciosLoop (nPrime n) n b k a t * 2 ^ (32 * k) ≡ t + a * b [MOD n] := by
  induction k generalizing a t with
  | zero =>
    obtain rfl : a = 0 := by simpa using ha
    simpa [ciosLoop] using ⟨ht, Nat.ModEq.refl t⟩
  | succ k ih =>
    rw [ciosLoop]
    set t1 := t + a % 2 ^ 32 * b with ht1
    set m := t1 % 2 ^ 32 * nPrime n % 2 ^ 32 with hm
    set t2 := (t1 + m * n) / 2 ^ 32
    have hexact : t2 * 2 ^ 32 = t1 + m * n := ciosStep_exact hn t1
    have hbound : t2 < n + b := by
      have hdigit : a % 2 ^ 32 * b ≤ (2 ^ 32 - 1) * b := Nat.mul_le_mul_right _ (by omega)
      have hfactor : m * n ≤ (2 ^ 32 - 1) * n := Nat.mul_le_mul_right _ (by omega)
      omega
    have hhigh : a / 2 ^ 32 < 2 ^ (32 * k) := by
      rw [Nat.div_lt_iff_lt_mul (by positivity), ← Nat.pow_add]
      exact ha
    obtain ⟨hlt, hmod⟩ := ih (a / 2 ^ 32) t2 hhigh hbound
    refine ⟨hlt, ?_⟩
    have hsplit : a / 2 ^ 32 * 2 ^ 32 + a % 2 ^ 32 = a := Nat.div_add_mod' a _
    calc ciosLoop (nPrime n) n b k (a / 2 ^ 32) t2 * 2 ^ (32 * (k + 1))
        = ciosLoop (nPrime n) n b k (a / 2 ^ 32) t2 * 2 ^ (32 * k) * 2 ^ 32 := by rw [Nat.mul_succ, Nat.pow_add, Nat.mul_assoc]
      _ ≡ (t2 + a / 2 ^ 32 * b) * 2 ^ 32 [MOD n] := hmod.mul_right _
      _ = t2 * 2 ^ 32 + a / 2 ^ 32 * 2 ^ 32 * b := by ring
      _ = t + (a / 2 ^ 32 * 2 ^ 32 + a % 2 ^ 32) * b + m * n := by rw [hexact, ht1]; ring
      _ ≡ t + a * b [MOD n] := by rw [hsplit]; simp [Nat.ModEq]

/-- The reference datapath's product is a residue, and `a · b` divided by the radix. -/
theorem montMulCios_spec {a b n : Nat} (hn : n % 2 = 1) (ha : a < n) (hb : b < n) :
    montMulCios a b n < n ∧ montMulCios a b n * radix n ≡ a * b [MOD n] := by
  obtain ⟨hlt, hmod⟩ := ciosLoop_spec hn (nw n) a 0 (ha.trans (lt_radix n)) (show 0 < n + b by omega)
  simp only [Nat.zero_add] at hmod
  simp only [montMulCios]
  split
  · next hge =>
    -- the final subtraction takes one modulus away
    refine ⟨by omega, Nat.ModEq.trans (Nat.ModEq.mul_right _ ?_) hmod⟩
    exact (Nat.modEq_iff_dvd' (Nat.sub_le _ _)).mpr (by rw [Nat.sub_sub_self hge])
  · next hlow => exact ⟨by omega, hmod⟩

theorem montMulCios_eq_montMul {a b n : Nat} (hn : n % 2 = 1) (ha : a < n) (hb : b < n) : montMulCios a b n = montMul a b n :=
  have hspec := montMulCios_spec hn ha hb
  eq_montMul_of_mul_radix hn hspec.1 hspec.2

/-! ### Montgomery form (rule R117) -/

/-- The residue `x` stands for `v` in Montgomery form. -/
def MontForm (n x v : Nat) : Prop := x < n ∧ x ≡ v * radix n [MOD n]

/-- A Montgomery product of two values in Montgomery form is their product in Montgomery form. -/
theorem MontForm.mul {n x y u v : Nat} (hn : n % 2 = 1) (hx : MontForm n x u) (hy : MontForm n y v) :
    MontForm n (montMulCios x y n) (u * v) := by
  obtain ⟨hlt, hmod⟩ := montMulCios_spec hn hx.1 hy.1
  refine ⟨hlt, Nat.ModEq.cancel_right_of_coprime (coprime_radix hn) ?_⟩
  calc montMulCios x y n * radix n ≡ x * y [MOD n] := hmod
    _ ≡ u * radix n * (v * radix n) [MOD n] := hx.2.mul hy.2
    _ = u * v * radix n * radix n := by ring

/-- Conversion into Montgomery form (rules R113, R115). -/
theorem montForm_of_residue {n x : Nat} (hn : n % 2 = 1) (hx : x < n) : MontForm n (montMulCios x (radix n ^ 2 % n) n) x := by
  obtain ⟨hlt, hmod⟩ := montMulCios_spec hn hx (Nat.mod_lt (radix n ^ 2) (by omega))
  refine ⟨hlt, Nat.ModEq.cancel_right_of_coprime (coprime_radix hn) ?_⟩
  calc montMulCios x (radix n ^ 2 % n) n * radix n ≡ x * (radix n ^ 2 % n) [MOD n] := hmod
    _ ≡ x * radix n ^ 2 [MOD n] := (Nat.mod_modEq _ _).mul_left _
    _ = x * radix n * radix n := by ring

/-- Conversion out of Montgomery form (rule R113). -/
theorem MontForm.out {n x v : Nat} (hn : n % 2 = 1) (h1 : 1 < n) (hx : MontForm n x v) : montMulCios x 1 n = v % n := by
  obtain ⟨hlt, hmod⟩ := montMulCios_spec hn hx.1 h1
  rw [Nat.mul_one] at hmod
  exact (Nat.mod_eq_of_modEq (Nat.ModEq.cancel_right_of_coprime (coprime_radix hn) (hmod.trans hx.2)).symm hlt).symm

theorem modMulMont_eq {a b n : Nat} (hn : n % 2 = 1) (ha : a < n) (hb : b < n) : modMulMont a b n = a * b % n := by
  obtain ⟨hlt, hmod⟩ := montMulCios_spec hn ha hb
  obtain ⟨hlt', hmod'⟩ := montForm_of_residue hn hlt
  exact (Nat.mod_eq_of_modEq (hmod'.trans hmod).symm hlt').symm

/-- Square and multiply: `x` stands for the power by the exponent's bits already read, and each step reads one bit more. -/
theorem montPowLoop_spec {n b bm e : Nat} (hn : n % 2 = 1) (hbm : MontForm n bm b) (bits x : Nat)
    (hx : MontForm n x (b ^ (e / 2 ^ bits))) : MontForm n (montPowLoop n bm e bits x) (b ^ e) := by
  induction bits generalizing x with
  | zero => simpa [montPowLoop] using hx
  | succ k ih =>
    have hhalf : e / 2 ^ (k + 1) = e / 2 ^ k / 2 := by rw [Nat.pow_succ, Nat.div_div_eq_div_mul]
    have hsq := hx.mul hn hx
    rw [← Nat.pow_add, hhalf] at hsq
    rw [montPowLoop]
    refine ih _ ?_
    simp only [Nat.testBit_eq_decide_div_mod_eq, decide_eq_true_eq]
    split
    · next hbit =>
      have hmul := hsq.mul hn hbm
      rwa [← Nat.pow_succ, show (e / 2 ^ k / 2 + e / 2 ^ k / 2).succ = e / 2 ^ k by omega] at hmul
    · next hbit => rwa [show e / 2 ^ k / 2 + e / 2 ^ k / 2 = e / 2 ^ k by omega] at hsq

theorem powModMont_eq {b n : Nat} (hn : n % 2 = 1) (h1 : 1 < n) (hb : b < n) (e : Nat) : powModMont b e n = b ^ e % n := by
  have hone : MontForm n (montMulCios 1 (radix n ^ 2 % n) n) (b ^ (e / 2 ^ bitlen e)) := by
    rw [Nat.div_eq_of_lt (lt_two_pow_bitlen e), Nat.pow_zero]
    exact montForm_of_residue hn h1
  exact (montPowLoop_spec hn (montForm_of_residue hn hb) _ _ hone).out hn h1

/-- Settles O37: the digit loop's product is the Montgomery product, which carries products and powers through Montgomery form. -/
theorem referenceDatapathAgrees : Obligations.ReferenceDatapathAgrees :=
  fun _ _ _ hn h3 ha hb => ⟨montMulCios_eq_montMul hn ha hb, modMulMont_eq hn ha hb, powModMont_eq hn (by omega) hb⟩

end Sys2Proof.Machine
end

section
/-! SUPPORT. The commands with a modulus (MONTMUL, MODMUL, RSQ, MODEXP) from their shared checks (O31 to O34), and the RSA round
trip of MODEXP (O38). -/

namespace Sys2Proof.Machine

open Sys2Proof.Certificates

/-! ### The shared checks (rules R110, R111) -/

theorem modValid_iff {n : Nat} : modValid n = true ↔ n % 2 = 1 ∧ 3 ≤ n := by simp [modValid]

section WithModulus

variable {i : Instr} {s : State} {c : Running} {n v : Nat} {residues : List Nat} {rd : ZReg} (hc : s.engine = .busy c)
  (hr : runCommand i s.params c.snap c.drawn = withModulus n residues rd v)

include hc hr

theorem exec_withModulus_residue (hn : n % 2 = 1) (h3 : 3 ≤ n) (hres : ∀ x ∈ residues, x < n) :
    exec i s = .next (succeeded s (s.z.set rd v)) := by
  have hany : residues.any (fun x => decide (x ≥ n)) = false := by simpa using hres
  exact exec_of_success (w := { z := [(rd, v)] }) hc (by simp [hr, withModulus, modValid_iff.mpr ⟨hn, h3⟩, hany])

theorem exec_withModulus_invalid (hn : ¬(n % 2 = 1 ∧ 3 ≤ n)) : exec i s = .next (failed s .modulusInvalid) := by
  have hinv : modValid n = false := Bool.eq_false_iff.mpr (mt modValid_iff.mp hn)
  exact exec_of_error hc (by simp [hr, withModulus, hinv])

theorem exec_withModulus_tooLarge (hn : n % 2 = 1) (h3 : 3 ≤ n) (hres : ∃ x ∈ residues, n ≤ x) :
    exec i s = .next (failed s .blockTooLarge) := by
  have hany : residues.any (fun x => decide (x ≥ n)) = true := by simpa using hres
  exact exec_of_error hc (by simp [hr, withModulus, modValid_iff.mpr ⟨hn, h3⟩, hany])

end WithModulus

/-! ### The commands -/

/-- Settles O31: `radixInv` is the inverse of the radix, and the inverse is unique because the radix is prime to an odd modulus. -/
theorem montmulComputesTheMontgomeryProduct : Obligations.MontmulComputesTheMontgomeryProduct := by
  intro rd rs1 rs2 rs3 s c hc
  refine ⟨fun hn h3 ha hb => ?_, exec_withModulus_invalid hc rfl,
    fun hn h3 hab => exec_withModulus_tooLarge hc rfl hn h3 (by simpa [Snapshot.read] using hab)⟩
  exact ⟨nw _, radixInv _, isDigitCount_nw _, one_le_radixInv hn (by omega), Nat.le_sub_one_of_lt (radixInv_spec hn).1,
    radix_mul_radixInv hn (by omega), fun x h1 hx hinv => eq_radixInv hn (by omega) hinv,
    exec_withModulus_residue hc rfl hn h3 (by simpa [Snapshot.read] using ⟨ha, hb⟩)⟩

/-- Settles O32: the value MODMUL writes is the product modulo N, so only the checks are to be shown. -/
theorem modmulComputesTheProductModN : Obligations.ModmulComputesTheProductModN := fun _ _ _ _ _ _ hc =>
  ⟨fun hn h3 ha hb => exec_withModulus_residue hc rfl hn h3 (by simpa [Snapshot.read] using ⟨ha, hb⟩),
    exec_withModulus_invalid hc rfl,
    fun hn h3 hab => exec_withModulus_tooLarge hc rfl hn h3 (by simpa [Snapshot.read] using hab)⟩

/-- Settles O33: `nw` is the digit count, and RSQ has no residue to check. -/
theorem rsqComputesTheConversionConstant : Obligations.RsqComputesTheConversionConstant := fun _ _ _ _ hc =>
  ⟨fun hn h3 => ⟨_, isDigitCount_nw _, exec_withModulus_residue hc rfl hn h3 (by simp)⟩, exec_withModulus_invalid hc rfl⟩

/-- MODEXP writes the power when the modulus is valid and the base is a residue (rule R116). -/
theorem exec_modexp {rd rs1 rs2 rs3 : ZReg} {s : State} {c : Running} (hc : s.engine = .busy c) (hn : c.snap.z[rs3] % 2 = 1)
    (h3 : 3 ≤ c.snap.z[rs3]) (hb : c.snap.z[rs1] < c.snap.z[rs3]) :
    exec (.modexp rd rs1 rs2 rs3) s = .next (succeeded s (s.z.set rd (c.snap.z[rs1] ^ c.snap.z[rs2] % c.snap.z[rs3]))) := by
  rw [← powMod_eq _ _ _ (by omega)]
  exact exec_withModulus_residue hc rfl hn h3 (by simpa [Snapshot.read] using hb)

/-- Settles O34: square and multiply computes the power, and the exponent is not checked. -/
theorem modexpComputesThePower : Obligations.ModexpComputesThePower := fun _ _ _ _ _ _ hc =>
  ⟨exec_modexp hc, exec_withModulus_invalid hc rfl,
    fun hn h3 hb => exec_withModulus_tooLarge hc rfl hn h3 (by simpa [Snapshot.read] using hb)⟩

/-! ### The RSA round trip (rule R119) -/

/-- An exponent that is 1 modulo `p - 1` leaves every value alone modulo the prime `p`, the multiples of `p` included. -/
theorem pow_modEq_self_of_prime {p : Nat} (hp : p.Prime) (m k : Nat) : m ^ ((p - 1) * k + 1) ≡ m [MOD p] := by
  by_cases hm : p ∣ m
  · exact (Nat.modEq_zero_iff_dvd.mpr (dvd_pow hm (Nat.succ_ne_zero _))).trans (Nat.modEq_zero_iff_dvd.mpr hm).symm
  · have hfermat : m ^ (p - 1) ≡ 1 [MOD p] := by
      rw [← Nat.totient_prime hp]
      exact Nat.ModEq.pow_totient ((Nat.Prime.coprime_iff_not_dvd hp).mpr hm).symm
    calc m ^ ((p - 1) * k + 1) = (m ^ (p - 1)) ^ k * m := by rw [Nat.pow_succ, Nat.pow_mul]
      _ ≡ 1 ^ k * m [MOD p] := (hfermat.pow k).mul_right _
      _ = m := by simp

/-- Encrypting with `e` and decrypting with `d` gives the starting value, by Fermat's theorem for each prime (rule R119). -/
theorem rsa_roundtrip {p q e d m : Nat} (hp : p.Prime) (hq : q.Prime) (hpq : p ≠ q) (hde : d * e % ((p - 1) * (q - 1)) = 1)
    (hm : m < p * q) : (m ^ e % (p * q)) ^ d % (p * q) = m := by
  have hk : (p - 1) * (q - 1) * (d * e / ((p - 1) * (q - 1))) + 1 = d * e := by
    simpa only [hde] using Nat.div_add_mod (d * e) ((p - 1) * (q - 1))
  have hmodp : m ^ (d * e) ≡ m [MOD p] := by
    rw [← hk, Nat.mul_assoc]
    exact pow_modEq_self_of_prime hp m _
  have hmodq : m ^ (d * e) ≡ m [MOD q] := by
    rw [← hk, Nat.mul_comm (p - 1), Nat.mul_assoc]
    exact pow_modEq_self_of_prime hq m _
  have hmod : m ^ (d * e) ≡ m [MOD p * q] :=
    (Nat.modEq_and_modEq_iff_modEq_mul ((Nat.coprime_primes hp hq).mpr hpq)).mp ⟨hmodp, hmodq⟩
  refine Nat.mod_eq_of_modEq ?_ hm
  calc (m ^ e % (p * q)) ^ d ≡ (m ^ e) ^ d [MOD p * q] := (Nat.mod_modEq _ _).pow d
    _ = m ^ (d * e) := by rw [← Nat.pow_mul, Nat.mul_comm]
    _ ≡ m [MOD p * q] := hmod

/-- Settles O38: both MODEXPs meet their checks, and the exponents undo each other. -/
theorem rsaDecryptsWhatItEncrypts : Obligations.RsaDecryptsWhatItEncrypts := by
  intro p q e d m hp hq hpq hp2 hq2 hde hm rd rs1 rs2 rs3 s c hc hz1 hz2 hz3
  have hn : p * q % 2 = 1 := Nat.odd_iff.mp ((Nat.odd_iff.mpr hp2).mul (Nat.odd_iff.mpr hq2))
  have h3 : 3 ≤ p * q := by
    have hp3 := hp.two_le
    exact le_trans (by omega : 3 ≤ p) (Nat.le_mul_of_pos_right p hq.pos)
  have hrun : exec (.modexp rd rs1 rs2 rs3) s = .next (succeeded s (s.z.set rd (m ^ e % (p * q)))) := by
    subst hz1 hz2
    rw [← hz3] at hn h3 hm ⊢
    exact exec_modexp hc hn h3 hm
  refine ⟨_, hrun, rfl, fun rd' rs1' rs2' rs3' s' c' hc' hz1' hz2' hz3' => ?_⟩
  have hcipher : c'.snap.z[rs1'] = m ^ e % (p * q) := by simpa [succeeded] using hz1'
  have hrun' := exec_modexp (rd := rd') (rs1 := rs1') (rs2 := rs2') (rs3 := rs3') hc'
  rw [hcipher, hz2', hz3', rsa_roundtrip hp hq hpq hde hm] at hrun'
  exact hrun' hn h3 (Nat.mod_lt _ (by omega))

end Sys2Proof.Machine
end

section
/-! SUPPORT. The Miller-Rabin test: what one round and all rounds decide (rules R141 to R145), when ISPRIME answers without a draw
(rule R148), and the completion of ISPRIME from the answer of `IsPrime` (O39 to O42). -/

namespace Sys2Proof.Machine

open Sys2Proof.Certificates

/-! ### The bit length and the decomposition (rules R9, R142) -/

/-- The bit length is the one exponent that brackets the value (rule R9). -/
theorem bitlen_eq {n bits : Nat} (hb : 1 ≤ bits) (hlo : 2 ^ (bits - 1) ≤ n) (hhi : n < 2 ^ bits) : bitlen n = bits := by
  have hn : n ≠ 0 := (Nat.two_pow_pos _).trans_le hlo |>.ne'
  have hlog : n.log2 = bits - 1 := (Nat.log2_eq_iff hn).mpr ⟨hlo, by rwa [Nat.sub_add_cancel hb]⟩
  rw [bitlen, if_neg hn, hlog, Nat.sub_add_cancel hb]

/-- The power of 2 and the odd factor of a number are unique (rule R142). -/
theorem two_pow_mul_odd_inj {t t' s s' : Nat} (hs : s % 2 = 1) (hs' : s' % 2 = 1) (h : 2 ^ t * s = 2 ^ t' * s') :
    t = t' ∧ s = s' := by
  induction t generalizing t' with
  | zero =>
    cases t' with
    | zero => exact ⟨rfl, by simpa using h⟩
    | succ k => rw [Nat.pow_succ', Nat.mul_assoc] at h; omega
  | succ t ih =>
    cases t' with
    | zero => rw [Nat.pow_succ', Nat.mul_assoc] at h; omega
    | succ k =>
      rw [Nat.pow_succ', Nat.pow_succ', Nat.mul_assoc, Nat.mul_assoc] at h
      obtain ⟨rfl, rfl⟩ := ih (Nat.eq_of_mul_eq_mul_left two_pos h)
      exact ⟨rfl, rfl⟩

theorem decompose_eq {n t s : Nat} (hn : 2 ≤ n) (hts : n - 1 = 2 ^ t * s) (hs : s % 2 = 1) : decompose n = (t, s) := by
  obtain ⟨hdec, hodd⟩ := decompose_spec n hn
  obtain ⟨ht, hs'⟩ := two_pow_mul_odd_inj hodd hs (hdec.symm.trans hts)
  exact Prod.ext ht hs'

/-! ### One round (rule R144) -/

theorem reachesMinusOne_iff {n k v : Nat} (hv : v < n) : reachesMinusOne n k v = true ↔ ∃ j < k, v ^ 2 ^ j % n = n - 1 := by
  induction k generalizing v with
  | zero => simp [reachesMinusOne]
  | succ k ih =>
    have hsquare (j : Nat) : (v ^ 2 % n) ^ 2 ^ j % n = v ^ 2 ^ (j + 1) % n := by
      rw [← Nat.pow_mod, ← Nat.pow_mul, Nat.pow_succ']
    rw [Nat.exists_lt_succ_left]
    simp [reachesMinusOne, ih (Nat.mod_lt _ (by omega : 0 < n)), hsquare, Nat.mod_eq_of_lt hv]

theorem witnessPasses_iff {n : Nat} (hn : 0 < n) (a t s : Nat) : witnessPasses n a t s = true ↔ notWitness n a t s := by
  have hpow (j : Nat) : (a ^ s % n) ^ 2 ^ j % n = a ^ (2 ^ j * s) % n := by
    rw [← Nat.pow_mod, ← Nat.pow_mul, Nat.mul_comm]
  simp [witnessPasses, notWitness, powMod_eq _ _ _ hn, reachesMinusOne_iff (Nat.mod_lt _ hn), hpow]

/-- In a domain, where the only square roots of 1 are 1 and -1: when repeated squaring of `x` leads to 1, `x` is 1 or the squaring
passes -1. -/
theorem eq_one_or_exists_two_pow_eq_neg_one {R : Type} [CommRing R] [NoZeroDivisors R] {x : R} {t : Nat} (h : x ^ 2 ^ t = 1) :
    x = 1 ∨ ∃ j < t, x ^ 2 ^ j = -1 := by
  induction t with
  | zero => exact .inl (by simpa using h)
  | succ t ih =>
    rw [Nat.pow_succ, pow_mul] at h
    rcases sq_eq_one_iff.mp h with h | h
    · exact (ih h).imp_right fun ⟨j, hj, hx⟩ => ⟨j, hj.trans (Nat.lt_succ_self t), hx⟩
    · exact .inr ⟨t, Nat.lt_succ_self t, h⟩

/-- No base is a witness against a prime (rule R147): Fermat's theorem, and 1 has no square roots but 1 and -1 modulo a prime. -/
theorem notWitness_of_prime {p a t s : Nat} (hp : p.Prime) (ha : ¬p ∣ a) (hts : p - 1 = 2 ^ t * s) : notWitness p a t s := by
  have := Fact.mk hp
  have hfermat : ((a : ZMod p) ^ s) ^ 2 ^ t = 1 := by
    rw [← pow_mul, Nat.mul_comm, ← hts, ZMod.pow_card_sub_one_eq_one (by rwa [Ne, ZMod.natCast_eq_zero_iff])]
  rcases eq_one_or_exists_two_pow_eq_neg_one hfermat with h | ⟨j, hj, h⟩
  · exact .inl (Nat.mod_eq_of_modEq ((ZMod.natCast_eq_natCast_iff _ _ p).mp (by simpa using h)) hp.one_lt)
  · refine .inr ⟨j, hj, Nat.mod_eq_of_modEq ((ZMod.natCast_eq_natCast_iff _ _ p).mp ?_) (by have := hp.pos; omega)⟩
    rw [Nat.cast_sub hp.one_le, Nat.mul_comm, pow_mul]
    simpa [← pow_mul] using h

/-! ### The draws (rules R216, R217) -/

/-- The words of one draw make their sum and leave the words after them (rule R216). -/
theorem randWords_append (ch ws : List Word) :
    randWords ch.length (ch ++ ws) = some (∑ i : Fin ch.length, (ch.get i).toNat * 2 ^ (32 * i.val), ws) := by
  induction ch with
  | nil => rfl
  | cons w ch ih =>
    have hshift (i : Fin ch.length) :
        2 ^ 32 * ((ch.get i).toNat * 2 ^ (32 * i.val)) = (ch.get i).toNat * 2 ^ (32 * (i.val + 1)) := by ring
    simp only [List.length_cons, List.cons_append, randWords, ih, Fin.sum_univ_succ, Finset.mul_sum, hshift]
    simp

theorem randWords_eq_none {k : Nat} {ws : List Word} (h : ws.length < k) : randWords k ws = none := by
  induction k generalizing ws with
  | zero => simp at h
  | succ k ih =>
    cases ws with
    | nil => rfl
    | cons w ws => simp [randWords, ih (Nat.lt_of_succ_lt_succ h)]

theorem randBits_append {b : Nat} {ch : List Word} (hch : ch.length = (b + 31) / 32) (ws : List Word) :
    randBits b (ch ++ ws) = some (wordsValue b ch, ws) := by
  rw [randBits, ← hch, randWords_append]
  rfl

theorem randBits_eq_none {b : Nat} {ws : List Word} (h : ws.length < (b + 31) / 32) : randBits b ws = none := by
  rw [randBits, randWords_eq_none h]

theorem drawUntil_eq_none {b : Nat} (hb : 1 ≤ b) (accept : Nat → Bool) {ws : List Word} (h : ws.length < (b + 31) / 32) :
    drawUntil b accept ws = none := by
  rw [drawUntil_eq b hb, randBits_eq_none h]

theorem drawUntil_append {b : Nat} (hb : 1 ≤ b) (accept : Nat → Bool) {ch : List Word} (hch : ch.length = (b + 31) / 32)
    (ws : List Word) :
    drawUntil b accept (ch ++ ws) = if accept (wordsValue b ch) then some (wordsValue b ch, ws) else drawUntil b accept ws := by
  rw [drawUntil_eq b hb, randBits_append hch]

/-! ### The rounds (rules R141, R145) -/

theorem baseInRange_eq (n a : Nat) : baseInRange n a = decide (2 ≤ a ∧ a ≤ n - 2) := (Bool.decide_and _ _).symm

/-- The bases among whole draws (rule R143): the values in `[2, n - 2]`. -/
def basesOf (n : Nat) (draws : List (List Word)) : List Nat := (draws.map (wordsValue (bitlen n))).filter (baseInRange n)

theorem basesOf_cons (n : Nat) (ch : List Word) (draws : List (List Word)) :
    basesOf n (ch :: draws) =
      if baseInRange n (wordsValue (bitlen n) ch) then wordsValue (bitlen n) ch :: basesOf n draws else basesOf n draws :=
  List.filter_cons

/-- On whole draws and a last one that is not complete, the rounds go through the bases in order: the first witness ends them, and
without one they pass when there is a base for each. -/
theorem witnessRounds_draws {n : Nat} (hn : 1 ≤ bitlen n) (t s rounds : Nat) {draws : List (List Word)} {part : List Word}
    (hdraws : ∀ ch ∈ draws, ch.length = (bitlen n + 31) / 32) (hpart : part.length < (bitlen n + 31) / 32) :
    (witnessRounds n t s rounds (draws.flatten ++ part)).map Prod.fst =
      if ((basesOf n draws).take rounds).all (witnessPasses n · t s) then
        if rounds ≤ (basesOf n draws).length then some true else none
      else some false := by
  induction draws generalizing rounds with
  | nil =>
    cases rounds with
    | zero => simp [witnessRounds]
    | succ r => simp [witnessRounds, basesOf, drawUntil_eq_none hn _ hpart]
  | cons ch draws ih =>
    obtain ⟨hch, hrest⟩ := List.forall_mem_cons.mp hdraws
    cases rounds with
    | zero => simp [witnessRounds]
    | succ r =>
      rw [List.flatten_cons, List.append_assoc, witnessRounds, drawUntil_append hn _ hch, basesOf_cons]
      by_cases hrange : baseInRange n (wordsValue (bitlen n) ch) = true
      · simp only [if_pos hrange, List.take_succ_cons, List.all_cons, List.length_cons, Nat.add_le_add_iff_right]
        by_cases hpass : witnessPasses n (wordsValue (bitlen n) ch) t s = true
        · simp only [hpass, if_true, Bool.true_and, ih r hrest]
        · simp [hpass]
      · simp only [if_neg hrange, ← ih (r + 1) hrest, witnessRounds]

/-- What the rounds answer for a prime (rule R147). -/
theorem witnessRounds_of_prime {p t s rounds : Nat} {r : Bool} {ws rest : List Word} (hp : p.Prime) (hts : p - 1 = 2 ^ t * s)
    (h : witnessRounds p t s rounds ws = some (r, rest)) : r = true := by
  induction rounds generalizing ws with
  | zero =>
    rw [witnessRounds] at h
    cases h
    rfl
  | succ k ih =>
    rw [witnessRounds] at h
    split at h
    · cases h
    · next a rest' hdraw =>
      have hrange : 2 ≤ a ∧ a ≤ p - 2 := by simpa [baseInRange] using (drawUntil_accepts hdraw).1
      have ha : ¬p ∣ a := Nat.not_dvd_of_pos_of_lt (by omega) (by omega)
      rw [if_pos ((witnessPasses_iff hp.pos a t s).mpr (notWitness_of_prime hp ha hts))] at h
      exact ih h

/-! ### The small primes (rules R140, R148) -/

theorem mem_smallPrimes_iff {p : Nat} : p ∈ smallPrimes ↔ p.Prime ∧ p < 100 := by
  constructor
  · intro h
    fin_cases h <;> norm_num
  · rintro ⟨hp, hlt⟩
    revert hp
    interval_cases p <;> norm_num [smallPrimes]

theorem any_smallPrimes_dvd {n : Nat} :
    (smallPrimes.any fun p => decide (n % p = 0)) = true ↔ ∃ p, p.Prime ∧ p < 100 ∧ p ∣ n := by
  simp [mem_smallPrimes_iff, Nat.dvd_iff_mod_eq_zero, and_assoc]

theorem isPrime_of_lt_two {n : Nat} (hn : n < 2) (rounds : Nat) (ws : List Word) : isPrime n rounds ws = some (false, ws) := by
  rw [isPrime, if_pos hn]

theorem isPrime_of_small_prime {n : Nat} (hn : n.Prime) (hlt : n < 100) (rounds : Nat) (ws : List Word) :
    isPrime n rounds ws = some (true, ws) := by
  rw [isPrime, if_neg (by have := hn.two_le; omega), if_pos (by simpa using mem_smallPrimes_iff.mpr ⟨hn, hlt⟩)]

theorem isPrime_of_small_factor {n p : Nat} (hn : ¬n.Prime) (hp : p.Prime) (hlt : p < 100) (hdvd : p ∣ n) (rounds : Nat)
    (ws : List Word) : isPrime n rounds ws = some (false, ws) := by
  have hmem : ¬smallPrimes.contains n = true := fun h => hn (mem_smallPrimes_iff.mp (by simpa using h)).1
  rw [isPrime, if_neg hmem, if_pos (any_smallPrimes_dvd.mpr ⟨p, hp, hlt, hdvd⟩), ite_self]

/-- `IsPrime` comes to its rounds for every value without a small factor (rule R141). -/
theorem isPrime_of_no_small_factor {n : Nat} (h2 : 2 ≤ n) (hn : ∀ p, p.Prime → p < 100 → ¬p ∣ n) (rounds : Nat)
    (ws : List Word) : isPrime n rounds ws = witnessRounds n (decompose n).1 (decompose n).2 rounds ws := by
  have hmem : ¬smallPrimes.contains n = true := fun h => by
    obtain ⟨hp, hlt⟩ := mem_smallPrimes_iff.mp (by simpa using h)
    exact hn n hp hlt dvd_rfl
  have hany : ¬(smallPrimes.any fun p => decide (n % p = 0)) = true := fun h => by
    obtain ⟨p, hp, hlt, hdvd⟩ := any_smallPrimes_dvd.mp h
    exact hn p hp hlt hdvd
  rw [isPrime, if_neg (by omega), if_neg hmem, if_neg hany]

/-- Up to 100 `IsPrime` decides primality without a draw (rule R148). -/
theorem isPrime_of_le_hundred {n : Nat} (hn : n ≤ 100) (rounds : Nat) (ws : List Word) :
    isPrime n rounds ws = some (decide n.Prime, ws) := by
  by_cases hp : n.Prime
  · have h100 : n ≠ 100 := by rintro rfl; norm_num at hp
    rw [isPrime_of_small_prime hp (by omega), decide_eq_true hp]
  · rw [decide_eq_false hp]
    by_cases h2 : n < 2
    · exact isPrime_of_lt_two h2 rounds ws
    · have hfac : n.minFac < n := (Nat.not_prime_iff_minFac_lt (by omega)).mp hp
      exact isPrime_of_small_factor hp (Nat.minFac_prime (by omega)) (hfac.trans_le hn) (Nat.minFac_dvd n) rounds ws

/-- `IsPrime` declares no prime composite, whatever words are drawn (rule R147). -/
theorem isPrime_of_prime {n rounds : Nat} {r : Bool} {ws rest : List Word} (hn : n.Prime)
    (h : isPrime n rounds ws = some (r, rest)) : r = true := by
  by_cases hlt : n < 100
  · rw [isPrime_of_small_prime hn hlt] at h
    cases h
    rfl
  · have hfac : ∀ p, p.Prime → p < 100 → ¬p ∣ n := by
      rintro p hp hp100 hdvd
      obtain rfl := (Nat.prime_dvd_prime_iff_eq hp hn).mp hdvd
      exact hlt hp100
    rw [isPrime_of_no_small_factor hn.two_le hfac] at h
    exact witnessRounds_of_prime hn (decompose_spec n hn.two_le).1 h

/-! ### The command (rule R146) -/

section Isprime

variable {rs1 : ZReg} {s : State} {c : Running} (hc : s.engine = .busy c)

include hc

/-- ISPRIME writes the answer of `IsPrime` to RESULT and nothing else. -/
theorem exec_isprime_of_answer {r : Bool} (h : (isPrime c.snap.z[rs1] c.snap.mrRounds.toNat c.drawn).map Prod.fst = some r) :
    exec (.isprime rs1) s = .next { succeeded s s.z with result := r } := by
  obtain ⟨⟨r, rest⟩, hr, rfl⟩ := Option.map_eq_some_iff.mp h
  exact exec_of_success (w := { result := some r }) hc (by simp only [runCommand, runIsprime, Snapshot.read, hr])

/-- ISPRIME keeps running while `IsPrime` needs a word. -/
theorem exec_isprime_of_needWord (h : (isPrime c.snap.z[rs1] c.snap.mrRounds.toNat c.drawn).map Prod.fst = none) :
    exec (.isprime rs1) s = .next (drawStep c s) := by
  have hr := Option.map_eq_none_iff.mp h
  rw [exec_eq_engineStep, engineStep_needWord hc (by simp only [runCommand, runIsprime, Snapshot.read, hr])]

end Isprime

/-- Settles O39: the table decides every value up to 100, and every value with a factor in it. -/
theorem isprimeDecidesSmallValuesWithoutDraws : Obligations.IsprimeDecidesSmallValuesWithoutDraws := by
  intro rs1 s c hc
  refine ⟨fun hle => exec_isprime_of_answer hc (by rw [isPrime_of_le_hundred hle]; rfl), fun p hp hlt hdvd hgt => ?_⟩
  have hcomposite : ¬(c.snap.z[rs1]).Prime := fun hn => by
    have := (Nat.prime_dvd_prime_iff_eq hp hn).mp hdvd
    omega
  exact exec_isprime_of_answer hc (by rw [isPrime_of_small_factor hcomposite hp hlt hdvd]; rfl)

/-- Settles O40: `IsPrime` comes to its rounds, and these go through the bases in order. -/
theorem isprimeRunsEveryRound : Obligations.IsprimeRunsEveryRound := by
  intro rs1 s c draws part bits t odd hc n rounds bases h2 hfac hts hodd hb hlo hhi hdraws hpart hdrawn
  obtain rfl : bitlen n = bits := bitlen_eq hb hlo hhi
  have hbases : basesOf n draws = bases := List.filter_congr fun a _ => baseInRange_eq n a
  have hrounds := isPrime_of_no_small_factor h2 hfac rounds c.drawn
  rw [decompose_eq h2 hts hodd] at hrounds
  have hanswer := witnessRounds_draws hb t odd rounds hdraws hpart
  rw [← hdrawn, hbases, ← hrounds] at hanswer
  have hpass (a : Nat) : witnessPasses n a t odd = true ↔ notWitness n a t odd := witnessPasses_iff (by omega) a t odd
  refine ⟨fun hle hall => exec_isprime_of_answer hc (hanswer.trans ?_),
    fun ⟨a, ha, hw⟩ => exec_isprime_of_answer hc (hanswer.trans ?_),
    fun hlt hall => ⟨_, exec_isprime_of_needWord hc (hanswer.trans ?_), drawStep_busy hc⟩⟩
  · rw [if_pos (List.all_eq_true.mpr fun a ha => (hpass a).mpr (hall a ha)), if_pos hle]
  · exact if_neg fun h => hw ((hpass a).mp (List.all_eq_true.mp h a ha))
  · rw [if_pos (List.all_eq_true.mpr fun a ha => (hpass a).mpr (hall a (List.mem_of_mem_take ha))), if_neg hlt.not_ge]

/-- Settles O41: no base is a witness against a prime, so no round fails. -/
theorem isprimeNeverRejectsAPrime : Obligations.IsprimeNeverRejectsAPrime := by
  intro rs1 s t c hc hexec hidle hn
  rcases hr : isPrime c.snap.z[rs1] c.snap.mrRounds.toNat c.drawn with _ | ⟨r, rest⟩
  · rw [exec_isprime_of_needWord hc (by rw [hr]; rfl)] at hexec
    cases hexec
    exact absurd hidle (drawStep_busy hc)
  · rw [exec_isprime_of_answer hc (by rw [hr]; rfl)] at hexec
    cases hexec
    exact ⟨rfl, isPrime_of_prime hn hr⟩

/-- ISPRIME of 25326001 = 2251 · 11251 after five draws, each a base to which it is a strong pseudoprime (vector P-7). -/
def liarRun : Running where
  cmd := encode (.isprime 0)
  snap := { State.reset.snapshot with z := State.reset.z.set 0 25326001 }
  drawn := [2, 3, 5, 2, 3]

/-- The state in which it runs. -/
def liarState : State :=
  { State.reset with z := liarRun.snap.z, cmd := liarRun.cmd, rngCount := 5, engine := .busy liarRun }

theorem isPrime_liarRun :
    (isPrime liarRun.snap.z[(0 : ZReg)] liarRun.snap.mrRounds.toNat liarRun.drawn).map Prod.fst = some true := by decide +kernel

/-- Settles O42: five rounds on the bases 2, 3, 5, 2, 3 find no witness against the composite 25326001. -/
theorem isprimeMayAcceptAComposite : Obligations.IsprimeMayAcceptAComposite := by
  have hcomposite : ¬Nat.Prime 25326001 := by norm_num
  exact ⟨liarState, _, liarRun, rfl, rfl, rfl, hcomposite, exec_isprime_of_answer rfl isPrime_liarRun, rfl, rfl, rfl⟩

end Sys2Proof.Machine
end

section
/-! SUPPORT. GCD and MODINV (rules R169, R170; O35, O36). -/

namespace Sys2Proof.Machine

open Sys2Proof.Certificates

/-- A value with a residue prime to `m` has at most one inverse below `m` (rule R170). -/
theorem inverse_unique {a m x y : Nat} (h : Nat.gcd (a % m) m = 1) (hx : x < m) (hy : y < m) (hax : a % m * x % m = 1 % m)
    (hay : a % m * y % m = 1 % m) : y = x :=
  (Nat.ModEq.cancel_left_of_coprime (Nat.gcd_comm .. ▸ h) (hay.trans hax.symm : a % m * y ≡ a % m * x [MOD m])).eq_of_lt_of_lt hy hx

section Modinv

variable {rd rs1 rs3 : ZReg} {s : State} {c : Running} (hc : s.engine = .busy c)

include hc

/-- MODINV writes what `ModInverse` answers (rule R170). -/
theorem exec_modinv_of_inverse {x : Nat} (hm : 1 ≤ c.snap.read rs3) (hx : modInverse (c.snap.read rs1) (c.snap.read rs3) = some x) :
    exec (.modinv rd rs1 rs3) s = .next (succeeded s (s.z.set rd x)) :=
  exec_of_success (w := { z := [(rd, x)] }) hc (by simp [runCommand, runModinv, Nat.one_le_iff_ne_zero.mp hm, hx])

theorem exec_modinv_of_modulus_zero (hm : c.snap.read rs3 = 0) : exec (.modinv rd rs1 rs3) s = .next (failed s .modulusInvalid) :=
  exec_of_error hc (by simp [runCommand, runModinv, hm])

theorem exec_modinv_of_no_inverse (hm : 1 ≤ c.snap.read rs3) (hx : modInverse (c.snap.read rs1) (c.snap.read rs3) = none) :
    exec (.modinv rd rs1 rs3) s = .next (failed s .noInverse) :=
  exec_of_error hc (by simp [runCommand, runModinv, Nat.one_le_iff_ne_zero.mp hm, hx])

end Modinv

/-- Settles O36: `ModInverse` answers an inverse whenever there is one, and the residue, prime to `m`, cancels. -/
theorem modinvComputesTheInverse : Obligations.ModinvComputesTheInverse := by
  intro rd rs1 rs3 s c hc
  refine ⟨fun hm hg => ?_, exec_modinv_of_modulus_zero hc, fun hm hg => exec_modinv_of_no_inverse hc hm (if_neg hg)⟩
  obtain ⟨x, hx, hlt, hinv⟩ := modInverse_of_coprime (a := c.snap.z[rs1]) hm (by
    rwa [← Nat.gcd_rec, Nat.gcd_comm] at hg)
  have hmod : c.snap.z[rs1] % c.snap.z[rs3] * x % c.snap.z[rs3] = 1 % c.snap.z[rs3] := ((Nat.mod_modEq _ _).mul_right x).trans hinv
  exact ⟨x, hlt, hmod, fun _ hy hay => inverse_unique hg hlt hy hmod hay, exec_modinv_of_inverse hc hm hx⟩

/-- Settles O35: GCD writes the greatest common divisor, which every common divisor divides. -/
theorem gcdComputesTheGreatestCommonDivisor : Obligations.GcdComputesTheGreatestCommonDivisor := fun rd rs1 rs2 _ c hc =>
  ⟨Nat.gcd c.snap.z[rs1] c.snap.z[rs2],
    exec_of_success (i := .gcd rd rs1 rs2) (w := { z := [(rd, Nat.gcd c.snap.z[rs1] c.snap.z[rs2])] }) hc rfl,
    Nat.gcd_dvd_left _ _, Nat.gcd_dvd_right _ _, fun _ => Nat.dvd_gcd⟩

end Sys2Proof.Machine
end

section
/-! SUPPORT. The prime loops of KEYGEN as sequences of tries, each on the words the one before left (rules R161 to R163). -/

namespace Sys2Proof.Machine

open Sys2Proof.Certificates

/-! ### Loops over the drawn words -/

/-- The words `ws` before the first try, then the words of `later`. -/
def wordsFrom (ws : List Word) (later : Nat → List Word) : Nat → List Word
  | 0 => ws
  | j + 1 => later j

/-- A loop that ends with `done` or goes on after `retry`, which uses words, answers what a sequence of retries ends with. -/
theorem loop_eq_some_iff {α : Type} {loop : List Word → Option α} {done : List Word → α → Prop}
    {retry : List Word → List Word → Prop} (hretry : ∀ {ws ws'}, retry ws ws' → ws'.length < ws.length)
    (hloop : ∀ ws a, loop ws = some a ↔ done ws a ∨ ∃ ws', retry ws ws' ∧ loop ws' = some a) (ws : List Word) (a : α) :
    loop ws = some a ↔
      ∃ (at_ : Nat → List Word) (m : Nat), at_ 0 = ws ∧ (∀ j, j < m → retry (at_ j) (at_ (j + 1))) ∧ done (at_ m) a := by
  constructor
  · intro h
    induction hn : ws.length using Nat.strong_induction_on generalizing ws with
    | _ n ih =>
      rcases (hloop ws a).mp h with hdone | ⟨ws', htry, hrest⟩
      · exact ⟨fun _ => ws, 0, rfl, by simp, hdone⟩
      · obtain ⟨at_, m, rfl, hall, hdone⟩ := ih _ (hn ▸ hretry htry) ws' hrest rfl
        exact ⟨wordsFrom ws at_, m + 1, rfl, Nat.forall_lt_succ_left.mpr ⟨htry, hall⟩, hdone⟩
  · rintro ⟨at_, m, rfl, hall, hdone⟩
    induction m generalizing at_ with
    | zero => exact (hloop _ a).mpr (.inl hdone)
    | succ m ih =>
      obtain ⟨htry, hall⟩ := Nat.forall_lt_succ_left.mp hall
      exact (hloop _ a).mpr (.inr ⟨_, htry, ih (fun j => at_ (j + 1)) hall hdone⟩)

/-! ### Candidates (rule R161) -/

/-- A candidate takes its words from the front, and there is none without them. -/
theorem candidate_eq (ks : Nat) (ws : List Word) :
    candidate ks ws = if (ks + 31) / 32 ≤ ws.length then some (candidateOf ks ws, ws.drop ((ks + 31) / 32)) else none := by
  split
  · next hw =>
    have hr := randBits_append (b := ks) (List.length_take_of_le hw) (ws.drop ((ks + 31) / 32))
    rw [List.take_append_drop] at hr
    rw [candidate, hr]
    rfl
  · next hw => rw [candidate, randBits_eq_none (Nat.lt_of_not_le hw)]

/-- A candidate of at least two bits is odd, its highest bit is set, and it has no bit above that (rule R161). -/
theorem candidateOf_spec {ks : Nat} (hk : 2 ≤ ks) (ws : List Word) :
    2 ^ (ks - 1) < candidateOf ks ws ∧ candidateOf ks ws < 2 ^ ks ∧ candidateOf ks ws % 2 = 1 := by
  have htop : 2 ^ (ks - 1) ≤ candidateOf ks ws := Nat.right_le_or.trans Nat.left_le_or
  have hodd : candidateOf ks ws % 2 = 1 := by
    have hbit : (candidateOf ks ws).testBit 0 = true := by simp [candidateOf]
    simpa using hbit
  have heven : 2 ^ (ks - 1) % 2 = 0 := Nat.mod_eq_zero_of_dvd (dvd_pow_self 2 (by omega))
  have hhigh : candidateOf ks ws < 2 ^ ks :=
    Nat.or_lt_two_pow (Nat.or_lt_two_pow (Nat.mod_lt _ (by positivity)) (Nat.pow_lt_pow_right (by decide) (by omega)))
      (Nat.one_lt_two_pow (by omega))
  exact ⟨by omega, hhigh, hodd⟩

/-! ### The first prime (rule R162) -/

/-- On `ws` there is a whole candidate, and `IsPrime` answers `r` for it and leaves `rest`. -/
def CandidateTest (ks rounds : Nat) (ws : List Word) (r : Bool) (rest : List Word) : Prop :=
  (ks + 31) / 32 ≤ ws.length ∧ isPrime (candidateOf ks ws) rounds (ws.drop ((ks + 31) / 32)) = some (r, rest)

theorem CandidateTest.rest_length {ks rounds : Nat} {ws rest : List Word} {r : Bool} (hk : 1 ≤ ks)
    (h : CandidateTest ks rounds ws r rest) : rest.length < ws.length := by
  obtain ⟨hw, hr⟩ := h
  have hlen := isPrime_rest_length hr
  rw [List.length_drop] at hlen
  omega

/-- One turn of the loop for a prime: the candidate is accepted, or the loop goes on after it. -/
theorem drawPrime_turn {ks : Nat} (hk : 1 ≤ ks) (rounds : Nat) (ws : List Word) (a : Nat × List Word) :
    drawPrime ks rounds ws = some a ↔
      (CandidateTest ks rounds ws true a.2 ∧ a.1 = candidateOf ks ws) ∨
      ∃ ws', CandidateTest ks rounds ws false ws' ∧ drawPrime ks rounds ws' = some a := by
  obtain ⟨p, rest⟩ := a
  rw [drawPrime_eq ks rounds hk, candidate_eq]
  by_cases hw : (ks + 31) / 32 ≤ ws.length
  · rcases ht : isPrime (candidateOf ks ws) rounds (ws.drop ((ks + 31) / 32)) with _ | ⟨_ | _, rest'⟩
    · simp [CandidateTest, hw, ht]
    · simp [CandidateTest, hw, ht]
    · simp [CandidateTest, hw, ht, and_comm, eq_comm]
  · simp [CandidateTest, hw]

/-- The first prime is the first candidate that `IsPrime` accepts (rule R162). -/
theorem drawPrime_eq_some_iff {ks : Nat} (hk : 1 ≤ ks) (rounds : Nat) (ws rest : List Word) (p : Nat) :
    drawPrime ks rounds ws = some (p, rest) ↔
      ∃ (at_ : Nat → List Word) (m : Nat), at_ 0 = ws ∧
        (∀ j, j < m → CandidateTest ks rounds (at_ j) false (at_ (j + 1))) ∧
        CandidateTest ks rounds (at_ m) true rest ∧ p = candidateOf ks (at_ m) :=
  loop_eq_some_iff (done := fun ws a => CandidateTest ks rounds ws true a.2 ∧ a.1 = candidateOf ks ws)
    (CandidateTest.rest_length hk) (drawPrime_turn hk rounds) ws (p, rest)

theorem exists_candidateOf_of_drawPrime {ks rounds p : Nat} {ws rest : List Word} (hk : 1 ≤ ks)
    (h : drawPrime ks rounds ws = some (p, rest)) : ∃ ws', p = candidateOf ks ws' := by
  obtain ⟨at_, m, -, -, -, hp⟩ := (drawPrime_eq_some_iff hk rounds ws rest p).mp h
  exact ⟨at_ m, hp⟩

/-! ### The second prime (rule R163) -/

/-- One turn of the loop for the second prime: it differs from `p`, or the loop goes on after `p`. -/
theorem drawOtherPrime_turn {ks : Nat} (hk : 1 ≤ ks) (rounds p : Nat) (ws : List Word) (a : Nat × List Word) :
    drawOtherPrime ks rounds p ws = some a ↔
      (drawPrime ks rounds ws = some a ∧ a.1 ≠ p) ∨
      ∃ ws', drawPrime ks rounds ws = some (p, ws') ∧ drawOtherPrime ks rounds p ws' = some a := by
  rw [drawOtherPrime_eq ks rounds p hk]
  rcases drawPrime ks rounds ws with _ | ⟨q, rest⟩
  · simp
  · by_cases hq : q = p
    · subst hq
      simp +contextual [eq_comm]
    · have hne : (q, rest) = a → a.1 ≠ p := by
        rintro rfl
        exact hq
      simpa [hq] using hne

/-- The second prime is the first one drawn that differs from `p` (rule R163). -/
theorem drawOtherPrime_eq_some_iff {ks : Nat} (hk : 1 ≤ ks) (rounds p : Nat) (ws rest : List Word) (q : Nat) :
    drawOtherPrime ks rounds p ws = some (q, rest) ↔
      ∃ (at_ : Nat → List Word) (m : Nat), at_ 0 = ws ∧ (∀ j, j < m → drawPrime ks rounds (at_ j) = some (p, at_ (j + 1))) ∧
        drawPrime ks rounds (at_ m) = some (q, rest) ∧ q ≠ p :=
  loop_eq_some_iff (done := fun ws a => drawPrime ks rounds ws = some a ∧ a.1 ≠ p)
    (retry := fun ws ws' => drawPrime ks rounds ws = some (p, ws'))
    (drawPrimeFuel_rest_length hk) (drawOtherPrime_turn hk rounds p) ws (q, rest)

end Sys2Proof.Machine
end

section
/-! SUPPORT. A drawing function uses exactly the words it needs: it leaves every word after them, and with fewer it needs another
(rules R216, R217, R232). -/

namespace Sys2Proof.Machine

open Sys2Proof.Certificates

/-- On the words `used` the drawing function answers `x` and leaves whatever comes after them; on fewer of them it has no answer. -/
def UsesExactly {α : Type} (draw : List Word → Option (α × List Word)) (used : List Word) (x : α) : Prop :=
  (∀ tail, draw (used ++ tail) = some (x, tail)) ∧ ∀ k, k < used.length → draw (used.take k) = none

/-- A function that answers without a word uses none. -/
theorem usesExactly_nil {α : Type} {draw : List Word → Option (α × List Word)} {x : α} (h : ∀ ws, draw ws = some (x, ws)) :
    UsesExactly draw [] x :=
  ⟨h, by simp⟩

/-- A draw, and an answer from its value without another word. -/
theorem UsesExactly.answer {α β : Type} {first : List Word → Option (α × List Word)} {both : List Word → Option (β × List Word)}
    {used : List Word} {x : α} {y : β} (h : UsesExactly first used x)
    (hsome : ∀ ws rest, first ws = some (x, rest) → both ws = some (y, rest)) (hnone : ∀ ws, first ws = none → both ws = none) :
    UsesExactly both used y :=
  ⟨fun tail => hsome _ _ (h.1 tail), fun k hk => hnone _ (h.2 k hk)⟩

/-- A draw, and a second one on the words it left. -/
theorem UsesExactly.append {α β : Type} {first : List Word → Option (α × List Word)}
    {second both : List Word → Option (β × List Word)} {used used' : List Word} {x : α} {y : β} (h : UsesExactly first used x) (h' : UsesExactly second used' y)
    (hsome : ∀ ws rest, first ws = some (x, rest) → both ws = second rest) (hnone : ∀ ws, first ws = none → both ws = none) :
    UsesExactly both (used ++ used') y := by
  obtain ⟨hfirst, hless⟩ := h
  obtain ⟨hsecond, hless'⟩ := h'
  refine ⟨fun tail => ?_, fun k hk => ?_⟩
  · rw [List.append_assoc, hsome _ _ (hfirst _), hsecond]
  · rw [List.length_append] at hk
    by_cases hlt : k < used.length
    · rw [List.take_append_of_le_length hlt.le, hnone _ (hless k hlt)]
    · rw [List.take_append, List.take_of_length_le (Nat.le_of_not_lt hlt), hsome _ _ (hfirst _), hless' _ (by omega)]

/-- `RandBits(b)` uses its `ceil(b/32)` words (rule R216). -/
theorem randBits_usesExactly {b : Nat} {ch : List Word} (hch : ch.length = (b + 31) / 32) :
    UsesExactly (randBits b) ch (wordsValue b ch) :=
  ⟨randBits_append hch, fun k hk => randBits_eq_none (by rw [List.length_take]; omega)⟩

theorem exists_usesExactly_of_randBits {b x : Nat} {ws rest : List Word} (h : randBits b ws = some (x, rest)) :
    ∃ used, ws = used ++ rest ∧ UsesExactly (randBits b) used x := by
  have hlen := randBits_rest_length h
  have huses := randBits_usesExactly (b := b) (ch := ws.take ((b + 31) / 32)) (by rw [List.length_take]; omega)
  have hval := huses.1 (ws.drop ((b + 31) / 32))
  rw [List.take_append_drop, h] at hval
  cases hval
  exact ⟨_, (List.take_append_drop _ ws).symm, huses⟩

/-- `DrawUntil(b, P)` uses the words of its trials (rule R217). -/
theorem exists_usesExactly_of_drawUntil {b : Nat} (hb : 1 ≤ b) {accept : Nat → Bool} {x : Nat} {ws rest : List Word}
    (h : drawUntil b accept ws = some (x, rest)) : ∃ used, ws = used ++ rest ∧ UsesExactly (drawUntil b accept) used x := by
  induction hn : ws.length using Nat.strong_induction_on generalizing ws with
  | _ n ih =>
    have hnone : ∀ ws, randBits b ws = none → drawUntil b accept ws = none := fun ws hr => by rw [drawUntil_eq b hb, hr]
    rw [drawUntil_eq b hb] at h
    rcases hr : randBits b ws with _ | ⟨y, mid⟩
    · simp [hr] at h
    · obtain ⟨used, rfl, huses⟩ := exists_usesExactly_of_randBits hr
      by_cases hy : accept y = true
      · simp only [hr, if_pos hy, Option.some.injEq, Prod.mk.injEq] at h
        obtain ⟨rfl, rfl⟩ := h
        refine ⟨used, rfl, huses.answer ?_ hnone⟩
        intro ws rest hws
        rw [drawUntil_eq b hb, hws]
        exact if_pos hy
      · simp only [hr, if_neg hy] at h
        have hlen := randBits_rest_length hr
        obtain ⟨used', rfl, huses'⟩ := ih _ (by omega) h rfl
        refine ⟨used ++ used', (List.append_assoc ..).symm, huses.append huses' ?_ hnone⟩
        intro ws rest hws
        rw [drawUntil_eq b hb, hws]
        exact if_neg hy

/-- The rounds use the words of their bases (rules R141, R143). -/
theorem exists_usesExactly_of_witnessRounds {n : Nat} (hn : 1 ≤ bitlen n) {t s rounds : Nat} {r : Bool} {ws rest : List Word}
    (h : witnessRounds n t s rounds ws = some (r, rest)) :
    ∃ used, ws = used ++ rest ∧ UsesExactly (witnessRounds n t s rounds) used r := by
  induction rounds generalizing ws with
  | zero =>
    cases h
    exact ⟨[], rfl, usesExactly_nil fun _ => rfl⟩
  | succ k ih =>
    have hnone : ∀ ws, drawUntil (bitlen n) (baseInRange n) ws = none → witnessRounds n t s (k + 1) ws = none :=
      fun ws hd => by rw [witnessRounds, hd]
    rw [witnessRounds] at h
    rcases hd : drawUntil (bitlen n) (baseInRange n) ws with _ | ⟨a, mid⟩
    · simp [hd] at h
    · obtain ⟨used, rfl, huses⟩ := exists_usesExactly_of_drawUntil hn hd
      by_cases hpass : witnessPasses n a t s = true
      · simp only [hd, if_pos hpass] at h
        obtain ⟨used', rfl, huses'⟩ := ih h
        refine ⟨used ++ used', (List.append_assoc ..).symm, huses.append huses' ?_ hnone⟩
        intro ws rest hws
        rw [witnessRounds, hws]
        exact if_pos hpass
      · simp only [hd, if_neg hpass, Option.some.injEq, Prod.mk.injEq] at h
        obtain ⟨rfl, rfl⟩ := h
        refine ⟨used, rfl, huses.answer ?_ hnone⟩
        intro ws rest hws
        rw [witnessRounds, hws]
        exact if_neg hpass

/-- `IsPrime` uses exactly the words of its rounds (rule R141). -/
theorem exists_usesExactly_of_isPrime {n rounds : Nat} {r : Bool} {ws rest : List Word}
    (h : isPrime n rounds ws = some (r, rest)) : ∃ used, ws = used ++ rest ∧ UsesExactly (isPrime n rounds) used r := by
  have hno_draw {b : Bool} (hb : ∀ ws, isPrime n rounds ws = some (b, ws)) :
      ∃ used, ws = used ++ rest ∧ UsesExactly (isPrime n rounds) used r := by
    rw [hb] at h
    cases h
    exact ⟨[], rfl, usesExactly_nil hb⟩
  by_cases h2 : n < 2
  · exact hno_draw (isPrime_of_lt_two h2 rounds)
  · by_cases hfac : ∃ p, p.Prime ∧ p < 100 ∧ p ∣ n
    · obtain ⟨p, hp, hlt, hdvd⟩ := hfac
      by_cases hn : n.Prime
      · obtain rfl := (Nat.prime_dvd_prime_iff_eq hp hn).mp hdvd
        exact hno_draw (isPrime_of_small_prime hn hlt rounds)
      · exact hno_draw (isPrime_of_small_factor hn hp hlt hdvd rounds)
    · have hrounds := isPrime_of_no_small_factor (by omega : 2 ≤ n) (by simpa using hfac) rounds
      rw [hrounds] at h
      rw [show isPrime n rounds = _ from funext hrounds]
      exact exists_usesExactly_of_witnessRounds (by unfold bitlen; split <;> omega) h

end Sys2Proof.Machine
end

section
/-! SUPPORT. KEYGEN (rules R160 to R171): what its rule answers from the answers of its three loops (O45 to O47). -/

namespace Sys2Proof.Machine

open Sys2Proof.Certificates

/-! ### The rule from its loops -/

/-- The loops for `p`, `q` and `e` have accepted these values on the words `ws` (rules R162, R163, R165). -/
def KeyDrawn (ks rounds : Nat) (ws : List Word) (p q e : Nat) : Prop :=
  ∃ ws₁ ws₂ rest, drawPrime ks rounds ws = some (p, ws₁) ∧ drawOtherPrime ks rounds p ws₁ = some (q, ws₂) ∧
    drawUntil (bitlen ((p - 1) * (q - 1))) (exponentOk ((p - 1) * (q - 1))) ws₂ = some (e, rest)

theorem runKeygen_of_illegal {pr : Params} {c : Snapshot} (h : ¬legalKeySize pr c.keysize.toNat) (ws : List Word) :
    runKeygen pr c ws = .error .configError := by
  have hks : ksLegal pr c.keysize.toNat = false := Bool.eq_false_iff.mpr (mt ksLegal_iff.mp h)
  simp [runKeygen, hks]

theorem runKeygen_of_keyDrawn {pr : Params} {c : Snapshot} {ws : List Word} {p q e : Nat} (h : legalKeySize pr c.keysize.toNat)
    (hkey : KeyDrawn c.keysize.toNat c.mrRounds.toNat ws p q e) : runKeygen pr c ws = keyPair p q e := by
  obtain ⟨ws₁, ws₂, rest, hp, hq, he⟩ := hkey
  simp [runKeygen, ksLegal_iff.mpr h, hp, hq, he]

/-- Everything KEYGEN's rule can answer. -/
theorem runKeygen_cases (pr : Params) (c : Snapshot) (ws : List Word) :
    runKeygen pr c ws = .error .configError ∨ runKeygen pr c ws = .needWord ∨
    legalKeySize pr c.keysize.toNat ∧ ∃ p q e, KeyDrawn c.keysize.toNat c.mrRounds.toNat ws p q e := by
  by_cases hks : ksLegal pr c.keysize.toNat = true
  · rcases hp : drawPrime c.keysize.toNat c.mrRounds.toNat ws with _ | ⟨p, ws₁⟩
    · exact .inr (.inl (by simp [runKeygen, hks, hp]))
    · rcases hq : drawOtherPrime c.keysize.toNat c.mrRounds.toNat p ws₁ with _ | ⟨q, ws₂⟩
      · exact .inr (.inl (by simp [runKeygen, hks, hp, hq]))
      · rcases he : drawUntil (bitlen ((p - 1) * (q - 1))) (exponentOk ((p - 1) * (q - 1))) ws₂ with _ | ⟨e, rest⟩
        · exact .inr (.inl (by simp [runKeygen, hks, hp, hq, he]))
        · exact .inr (.inr ⟨ksLegal_iff.mp hks, p, q, e, ws₁, ws₂, rest, hp, hq, he⟩)
  · exact .inl (runKeygen_of_illegal (mt ksLegal_iff.mpr hks) ws)

theorem KeyDrawn.exponentOk {ks rounds p q e : Nat} {ws : List Word} (h : KeyDrawn ks rounds ws p q e) :
    exponentOk ((p - 1) * (q - 1)) e = true := by
  obtain ⟨ws₁, ws₂, rest, -, -, he⟩ := h
  exact (drawUntil_accepts he).1

/-- The two primes differ, and each is a candidate (rules R161 to R163). -/
theorem KeyDrawn.primes {ks rounds p q e : Nat} {ws : List Word} (hk : 1 ≤ ks) (h : KeyDrawn ks rounds ws p q e) :
    p ≠ q ∧ (∃ ws', p = candidateOf ks ws') ∧ ∃ ws', q = candidateOf ks ws' := by
  obtain ⟨ws₁, ws₂, rest, hp, hq, -⟩ := h
  obtain ⟨at_, m, -, -, hdrawn, hne⟩ := (drawOtherPrime_eq_some_iff hk rounds p ws₁ ws₂ q).mp hq
  exact ⟨hne.symm, exists_candidateOf_of_drawPrime hk hp, exists_candidateOf_of_drawPrime hk hdrawn⟩

/-- With an exponent that passed its test, the inverse `d` exists and KEYGEN's six writes follow (rules R166, R167). -/
theorem keyPair_commits {p q e : Nat} (h : exponentOk ((p - 1) * (q - 1)) e = true) :
    ∃ d, d < (p - 1) * (q - 1) ∧ d * e % ((p - 1) * (q - 1)) = 1 ∧
      keyPair p q e = .success { z := [(0, p * q), (1, e), (2, d), (3, p), (4, q), (5, (p - 1) * (q - 1))] } := by
  obtain ⟨h2, hle, -⟩ := exponentOk_iff.mp h
  obtain ⟨d, hd, hlt, hpair⟩ := keyPair_success h
  have hinv := (modInverse_spec (by omega) hd).2
  rw [Nat.mul_comm e] at hinv
  exact ⟨d, hlt, Nat.mod_eq_of_modEq hinv (by omega), hpair⟩

/-- Once its loops have accepted, KEYGEN commits the key pair (rules R166 to R168). -/
theorem exec_keygen_of_keyDrawn {s : State} {c : Running} {p q e : Nat} (hc : s.engine = .busy c)
    (hks : legalKeySize s.params c.snap.keysize.toNat)
    (hkey : KeyDrawn c.snap.keysize.toNat c.snap.mrRounds.toNat c.drawn p q e) :
    ∃ d, d < (p - 1) * (q - 1) ∧ d * e % ((p - 1) * (q - 1)) = 1 ∧
      exec .keygen s = .next (succeeded s (keyPairWritten s.z p q e d)) := by
  obtain ⟨d, hlt, hinv, hpair⟩ := keyPair_commits hkey.exponentOk
  exact ⟨d, hlt, hinv, exec_of_success (i := .keygen) hc ((runKeygen_of_keyDrawn hks hkey).trans hpair)⟩

/-- Settles O45: the key size is judged before any loop draws. -/
theorem keygenRefusesAnIllegalKeySize : Obligations.KeygenRefusesAnIllegalKeySize :=
  fun _ c hc hks => exec_of_error hc (runKeygen_of_illegal hks c.drawn)

/-! ### Key size 4 (vector K1) -/

/-- The value of one drawn word. -/
theorem wordsValue_singleton (b : Nat) (w : Word) : wordsValue b [w] = w.toNat % 2 ^ b := by simp [wordsValue]

/-- A candidate of 4 bits takes one word (rule R161). -/
theorem candidateOf_four (w : Word) (ws : List Word) : candidateOf 4 (w :: ws) = w.toNat % 16 ||| 9 := by
  rw [candidateOf, Nat.or_assoc]
  exact congrArg (· ||| 9) (wordsValue_singleton 4 w)

/-- A candidate of 4 bits that is a prime ends the loop after its one word (rule R162). -/
theorem drawPrime_four {w : Word} {p : Nat} (hw : w.toNat % 16 ||| 9 = p) (hp : p.Prime) (hlt : p < 100) (rounds : Nat)
    (ws : List Word) : drawPrime 4 rounds (w :: ws) = some (p, ws) := by
  refine (drawPrime_turn (by decide) rounds _ _).mpr (.inl ⟨⟨by simp, ?_⟩, ?_⟩)
  · rw [candidateOf_four, hw]
    exact isPrime_of_small_prime hp hlt rounds ws
  · rw [candidateOf_four, hw]

/-- The loops on three words that give the candidates 11 and 13 and an exponent (vector K1). -/
theorem keyDrawn_four {w₀ w₁ w₂ : Word} (h₀ : w₀.toNat % 16 ||| 9 = 11) (h₁ : w₁.toNat % 16 ||| 9 = 13)
    (h₂ : exponentOk 120 (w₂.toNat % 128) = true) (rounds : Nat) :
    KeyDrawn 4 rounds [w₀, w₁, w₂] 11 13 (w₂.toNat % 128) := by
  have hq := drawPrime_four h₁ (by norm_num) (by decide) rounds [w₂]
  refine ⟨[w₁, w₂], [w₂], [], drawPrime_four h₀ (by norm_num) (by decide) rounds _,
    (drawOtherPrime_turn (by decide) rounds 11 _ _).mpr (.inl ⟨hq, show 13 ≠ 11 by decide⟩), ?_⟩
  have he := drawUntil_append (b := 7) (by decide) (exponentOk 120) (ch := [w₂]) rfl []
  rw [wordsValue_singleton] at he
  exact he.trans (if_pos h₂)

theorem legalKeySize_four {pr : Params} (h : pr.wf = true) : legalKeySize pr 4 := by
  simp only [Params.wf, Bool.and_eq_true, decide_eq_true_eq] at h
  exact ⟨by decide, by decide, by omega⟩

/-! ### The statements -/

/-- Settles O46: the loops as sequences of tries, the words `IsPrime` uses, and the completion from the loops' answers. -/
theorem keygenCommitsItsKeyPair : Obligations.KeygenCommitsItsKeyPair := by
  refine ⟨fun ks rounds ws rest p hk => (drawPrime_eq_some_iff hk rounds ws rest p).trans ⟨?_, ?_⟩,
    fun ks rounds ws rest p q hk => drawOtherPrime_eq_some_iff hk rounds p ws rest q, fun n rounds ws rest r h => ?_,
    fun s c p q e bits ws₁ ws₂ rest hc hks hp hq => ?_,
    fun s c w₀ w₁ w₂ hc hwf hks hdrawn h₀ h₁ h2 hle hg => ?_⟩
  · rintro ⟨at_, m, hstart, hall, ⟨hw, htest⟩, hp⟩
    refine ⟨at_, m, hstart, fun j hj => ?_, fun j hj => (hall j hj).2, htest, hp⟩
    rcases hj.lt_or_eq with hlt | rfl
    · exact (hall j hlt).1
    · exact hw
  · rintro ⟨at_, m, hstart, hw, hall, htest, hp⟩
    exact ⟨at_, m, hstart, fun j hj => ⟨hw j hj.le, hall j hj⟩, ⟨hw m le_rfl, htest⟩, hp⟩
  · obtain ⟨used, hws, huses, hless⟩ := exists_usesExactly_of_isPrime h
    exact ⟨used, hws, by simpa using huses [], hless⟩
  · intro phi hb hlo hhi he
    have hok : exponentOk phi = fun x => decide (2 ≤ x ∧ x ≤ phi - 1 ∧ Nat.gcd x phi = 1) :=
      funext fun x => Bool.eq_iff_iff.mpr (exponentOk_iff.trans (by simp))
    obtain rfl := bitlen_eq hb hlo hhi
    exact exec_keygen_of_keyDrawn hc hks ⟨ws₁, ws₂, rest, hp, hq, hok ▸ he⟩
  · have hfour : c.snap.keysize.toNat = 4 := by rw [hks]; rfl
    refine exec_keygen_of_keyDrawn (p := 11) (q := 13) hc (hfour ▸ legalKeySize_four hwf) ?_
    rw [hfour, hdrawn]
    exact keyDrawn_four h₀ h₁ (exponentOk_iff.mpr ⟨h2, hle, hg⟩) _

/-- Settles O47: a success comes from the loops, whose primes are distinct candidates and whose exponent passed its test. -/
theorem keygenResultsMeetTheKeyInvariants : Obligations.KeygenResultsMeetTheKeyInvariants := by
  intro s t c hc hexec hidle hok ks
  have hcompleted := exec_completion_cases hc hexec hidle
  rcases runKeygen_cases s.params c.snap c.drawn with hr | hr | ⟨hks, p, q, e, hkey⟩
  · rw [exec_of_error (i := .keygen) hc hr] at hexec
    cases hexec
    cases hok
  · simp [runCommand, hr] at hcompleted
  · obtain ⟨d, hd, hinv, hrun⟩ := exec_keygen_of_keyDrawn hc hks hkey
    obtain ⟨-, h4, -⟩ := hks
    obtain ⟨hne, ⟨wp, hp⟩, ⟨wq, hq⟩⟩ := hkey.primes (by omega)
    obtain ⟨hplo, hphi, hpodd⟩ := hp ▸ candidateOf_spec (by omega) wp
    obtain ⟨hqlo, hqhi, hqodd⟩ := hq ▸ candidateOf_spec (by omega) wq
    obtain ⟨he2, hele, heg⟩ := exponentOk_iff.mp hkey.exponentOk
    rw [hexec] at hrun
    cases hrun
    have hlow : 2 ^ (2 * ks - 2) < p * q := by
      rw [show 2 * ks - 2 = (ks - 1) + (ks - 1) by omega, Nat.pow_add]
      exact Nat.mul_lt_mul'' hplo hqlo
    have hhigh : p * q < 2 ^ (2 * ks) := by
      rw [Nat.two_mul, Nat.pow_add]
      exact Nat.mul_lt_mul'' hphi hqhi
    exact ⟨p, q, e, d, rfl, hne, hplo, hphi, hpodd, hqlo, hqhi, hqodd, hlow, hhigh, he2, hele, heg, hd, hinv⟩

end Sys2Proof.Machine
end

section
/-! SUPPORT. XOR, the hash's check values, and MGF1: every byte of the mask, and the command (rules R180 to R184; O49 to O52). -/

namespace Sys2Proof.Machine

/-- Settles O49: bit `k` of the exclusive or is the exclusive or of the bits `k`. -/
theorem xorIsBitwise : Obligations.XorIsBitwise := fun rd rs1 rs2 _ c hc =>
  ⟨c.snap.z[rs1] ^^^ c.snap.z[rs2],
    exec_of_success (i := .xor rd rs1 rs2) (w := { z := [(rd, c.snap.z[rs1] ^^^ c.snap.z[rs2])] }) hc rfl,
    fun _ => Nat.testBit_xor ..⟩

/-- Settles O50: five words of four bytes each, and the hash evaluated on the two strings. -/
theorem hashMeetsItsCheckValues : Obligations.HashMeetsItsCheckValues :=
  ⟨sha1_length, rfl, by decide +kernel, by decide +kernel⟩

/-! ### The mask (rule R182) -/

/-- Pieces of `m` elements each, one after another: element `i` is in piece `i / m`, at place `i % m`. -/
theorem getElem?_flatMap_range {α : Type} {f : Nat → List α} {m : Nat} (hf : ∀ c, (f c).length = m) {n i : Nat} (hi : i < n * m) :
    ((List.range n).flatMap f)[i]? = (f (i / m))[i % m]? := by
  induction n with
  | zero => simp at hi
  | succ n ih =>
    have hlen : ((List.range n).flatMap f).length = n * m := by simp [List.length_flatMap, hf]
    rw [List.range_succ, List.flatMap_append, List.flatMap_singleton]
    rcases Nat.lt_or_ge i (n * m) with hlt | hge
    · rw [List.getElem?_append_left (hlen ▸ hlt), ih hlt]
    · have hdiv : i / m = n := Nat.div_eq_of_lt_le hge hi
      rw [List.getElem?_append_right (hlen ▸ hge), hlen, Nat.mod_eq_sub, hdiv, Nat.mul_comm m]

theorem mgf1_getElem? (seed : List Byte) {len i : Nat} (hi : i < len) :
    (mgf1 seed len)[i]? = (sha1 (seed ++ be32 (i / 20)))[i % 20]? := by
  rw [mgf1, List.getElem?_take_of_lt hi]
  exact getElem?_flatMap_range (fun c => sha1_length _) (show i < (len + 19) / 20 * 20 by omega)

/-- Settles O51: the loop lays hashes of 20 bytes side by side, one for each counter, and cuts them at the length. -/
theorem mgf1MaskBytes : Obligations.Mgf1MaskBytes := fun seed len => ⟨mgf1_length seed len, fun _ => mgf1_getElem? seed⟩

/-! ### The command (rule R183) -/

/-- A string that stands for `x` is what `I2OSP` answers at its length (rule R67). -/
theorem i2osp_of_os2ip {s : List Byte} {x len : Nat} (hlen : s.length = len) (hx : os2ip s = x) : i2osp x len = some s := by
  subst hlen hx
  exact i2osp_os2ip s

theorem runMgf1_success {p : Params} {c : Snapshot} {rd rs1 : ZReg} {seed : List Byte} (hla : c.lena.toNat ≤ cap p)
    (hlb : c.lenb.toNat ≤ cap p) (hseed : i2osp (c.read rs1) c.lena.toNat = some seed) (ws : List Word) :
    runMgf1 rd rs1 p c ws = .success { z := [(rd, os2ip (mgf1 seed c.lenb.toNat))] } := by
  simp [runMgf1, Nat.not_lt.mpr hla, Nat.not_lt.mpr hlb, hseed]

/-- Each of the three checks of MGF1 fails with the same code. -/
theorem runMgf1_error {p : Params} {c : Snapshot} {rd rs1 : ZReg}
    (h : cap p < c.lena.toNat ∨ cap p < c.lenb.toNat ∨ 256 ^ c.lena.toNat ≤ c.read rs1) (ws : List Word) :
    runMgf1 rd rs1 p c ws = .error .encodingError := by
  rcases h with hla | hlb | hx
  · simp [runMgf1, hla]
  · simp [runMgf1, hlb]
  · simp [runMgf1, i2osp_eq_none.mpr hx]

/-- Settles O52: within both limits the seed is the one string of LENA bytes; each failed check gives EncodingError. -/
theorem mgf1CommandWritesTheMask : Obligations.Mgf1CommandWritesTheMask := fun rd rs1 _ c hc =>
  ⟨fun _ hla hlb hlen hx =>
    exec_of_success (i := .mgf1 rd rs1) hc (runMgf1_success hla hlb (i2osp_of_os2ip hlen hx) c.drawn),
    fun h => exec_of_error (i := .mgf1 rd rs1) hc (runMgf1_error h c.drawn)⟩

end Sys2Proof.Machine
end

section
/-! SUPPORT. The OAEP codec on byte strings: masking a data block and unmasking it undo each other, and decoding succeeds exactly on
encoded blocks (rules R185, R188). -/

namespace Sys2Proof.Machine

open Sys2Proof.Certificates

/-! ### Masking and unmasking -/

/-- The data block of a message for a block of `k` bytes (steps 3 and 4 of rule R185). -/
def dataBlock (msg : List Byte) (k : Nat) : List Byte := lHash ++ List.replicate (k - msg.length - 42) 0x00 ++ [0x01] ++ msg

/-- A data block masked with the seed (step 6 of rule R185). -/
def maskedDb (db seed : List Byte) (k : Nat) : List Byte := xorBytes db (mgf1 seed (k - 21))

/-- A data block and a seed as a block of `k` bytes (steps 6 to 8 of rule R185). -/
def maskedBlock (db seed : List Byte) (k : Nat) : List Byte :=
  [0x00] ++ xorBytes seed (mgf1 (maskedDb db seed k) 20) ++ maskedDb db seed k

theorem oaepEncode_eq (msg : List Byte) (k : Nat) (seed : List Byte) :
    oaepEncode msg k seed = maskedBlock (dataBlock msg k) seed k := by
  simp only [oaepEncode, maskedBlock, maskedDb, dataBlock, hLen, Nat.sub_sub]

theorem dataBlock_length {msg : List Byte} {k : Nat} (h : msg.length + 42 ≤ k) : (dataBlock msg k).length = k - 21 := by
  simp only [dataBlock, List.length_append, lHash_length, hLen, List.length_replicate, List.length_singleton]
  omega

section Masking

variable {db seed : List Byte} {k : Nat} (hseed : seed.length = 20) (hdb : db.length = k - 21)

include hseed

theorem maskedBlock_drop : (maskedBlock db seed k).drop 21 = maskedDb db seed k := by
  simp [maskedBlock, hseed]

/-- Unmasking recovers the seed, because its mask is computed from the masked data block alone (step 2 of rule R188). -/
theorem unmaskedSeed_maskedBlock : unmaskedSeed (maskedBlock db seed k) = seed := by
  have hmasked : ((maskedBlock db seed k).drop 1).take 20 = xorBytes seed (mgf1 (maskedDb db seed k) 20) := by
    simp [maskedBlock, hseed]
  rw [unmaskedSeed, hmasked, maskedBlock_drop hseed]
  exact xorBytes_cancel _ _ (by simp [hseed])

include hdb

/-- And then the data block (step 2 of rule R188). -/
theorem unmaskedDb_maskedBlock : unmaskedDb (maskedBlock db seed k) k = db := by
  rw [unmaskedDb, unmaskedSeed_maskedBlock hseed, maskedBlock_drop hseed]
  exact xorBytes_cancel _ _ (by simp [hdb])

end Masking

section Unmasking

variable {em : List Byte} {k : Nat} (hlen : em.length = k)

include hlen

/-- Masking again what was unmasked gives the block back, if its leading byte is 0. -/
theorem maskedBlock_unmasked (h0 : em.take 1 = [0x00]) : maskedBlock (unmaskedDb em k) (unmaskedSeed em) k = em := by
  have hdb : maskedDb (unmaskedDb em k) (unmaskedSeed em) k = em.drop 21 := xorBytes_cancel _ _ (by simp [hlen])
  have hseed : xorBytes (unmaskedSeed em) (mgf1 (em.drop 21) 20) = (em.drop 1).take 20 := xorBytes_cancel _ _ (by simp)
  have htail : em.drop 21 = (em.drop 1).drop 20 := by rw [List.drop_drop]
  rw [maskedBlock, hdb, hseed, htail, ← h0, List.append_assoc, List.take_append_drop, List.take_append_drop]

variable (hk : 42 ≤ k)

include hk

theorem unmaskedSeed_length : (unmaskedSeed em).length = 20 := by
  simp only [unmaskedSeed, xorBytes_length, List.length_take, List.length_drop, mgf1_length]
  omega

theorem unmaskedDb_length : (unmaskedDb em k).length = k - 21 := by
  simp only [unmaskedDb, xorBytes_length, List.length_drop, mgf1_length]
  omega

end Unmasking

/-! ### The separator (steps 4 and 5 of rule R188) -/

/-- Zero bytes are passed over. -/
theorem afterSeparator_replicate_append (z : Nat) (s : List Byte) :
    afterSeparator (List.replicate z 0x00 ++ s) = afterSeparator s := by
  induction z with
  | zero => rfl
  | succ z ih => simpa [List.replicate_succ, afterSeparator] using ih

theorem afterSeparator_eq_ok_iff {s msg : List Byte} :
    afterSeparator s = .ok msg ↔ ∃ z, s = List.replicate z 0x00 ++ 0x01 :: msg := by
  constructor
  · intro h
    induction s with
    | nil => simp [afterSeparator] at h
    | cons b rest ih =>
      rw [afterSeparator] at h
      split at h
      · next hb =>
        obtain ⟨z, rfl⟩ := ih h
        exact ⟨z + 1, by simp [hb, List.replicate_succ]⟩
      · split at h
        · next hb => exact ⟨0, by simpa [hb] using h⟩
        · cases h
  · rintro ⟨z, rfl⟩
    rw [afterSeparator_replicate_append]
    rfl

theorem afterSeparator_of_zeros {s : List Byte} (h : ∀ b ∈ s, b = 0x00) : afterSeparator s = .error .paddingError := by
  rw [List.eq_replicate_of_mem h, ← List.append_nil (List.replicate _ _), afterSeparator_replicate_append]
  rfl

/-- A first non-zero byte that is no separator. -/
theorem afterSeparator_of_other {b : Byte} (h0 : b ≠ 0x00) (h1 : b ≠ 0x01) (z : Nat) (rest : List Byte) :
    afterSeparator (List.replicate z 0x00 ++ b :: rest) = .error .paddingError := by
  rw [afterSeparator_replicate_append, afterSeparator, if_neg h0, if_neg h1]

/-! ### Decoding (rule R188) -/

/-- Decoding as its checks on the unmasked data block, in their order. -/
theorem oaepDecode_eq (em : List Byte) (k : Nat) :
    oaepDecode em k =
      if (unmaskedDb em k).take 20 ≠ lHash then .error .integrityError
      else if em.take 1 ≠ [0x00] then .error .paddingError
      else afterSeparator ((unmaskedDb em k).drop 20) := by
  have hdb : xorBytes (em.drop (1 + hLen)) (mgf1 (unmaskedSeed em) (k - hLen - 1)) = unmaskedDb em k := by
    rw [unmaskedDb, Nat.sub_sub]
    rfl
  rw [← hdb]
  rfl

theorem oaepDecode_of_labelHash {em : List Byte} {k : Nat} (h : (unmaskedDb em k).take 20 = lHash) :
    oaepDecode em k =
      if em.take 1 ≠ [0x00] then .error .paddingError else afterSeparator ((unmaskedDb em k).drop 20) := by
  rw [oaepDecode_eq, if_neg (not_not.mpr h)]

theorem oaepDecode_of_other_labelHash {em : List Byte} {k : Nat} (h : (unmaskedDb em k).take 20 ≠ lHash) :
    oaepDecode em k = .error .integrityError := by
  rw [oaepDecode_eq, if_pos h]

/-- With the right label hash, a fault of the padding alone gives PaddingError whatever the leading byte is. -/
theorem oaepDecode_of_padding {em : List Byte} {k : Nat} (h : (unmaskedDb em k).take 20 = lHash)
    (hpad : em.take 1 ≠ [0x00] ∨ afterSeparator ((unmaskedDb em k).drop 20) = .error .paddingError) :
    oaepDecode em k = .error .paddingError := by
  rw [oaepDecode_of_labelHash h]
  split
  · rfl
  · next h0 => exact hpad.resolve_left h0

theorem oaepDecode_oaepEncode {msg seed : List Byte} {k : Nat} (hseed : seed.length = 20) (hk : msg.length + 42 ≤ k) :
    oaepDecode (oaepEncode msg k seed) k = .ok msg := by
  have hdb : unmaskedDb (oaepEncode msg k seed) k = dataBlock msg k := unmaskedDb_maskedBlock hseed (dataBlock_length hk)
  rw [oaepDecode_of_labelHash (by simp [hdb, dataBlock, hLen]), hdb, if_neg (by simp [oaepEncode])]
  exact afterSeparator_eq_ok_iff.mpr ⟨k - msg.length - 42, by simp [dataBlock, hLen]⟩

/-- A data block that passes both checks is the data block of its message. -/
theorem eq_dataBlock {db msg : List Byte} {k : Nat} (hk : 42 ≤ k) (hlen : db.length = k - 21) (hlabel : db.take 20 = lHash)
    (hmsg : afterSeparator (db.drop 20) = .ok msg) : msg.length + 42 ≤ k ∧ db = dataBlock msg k := by
  obtain ⟨z, hz⟩ := afterSeparator_eq_ok_iff.mp hmsg
  have hzlen : db.length - 20 = z + (msg.length + 1) := by simpa using congrArg List.length hz
  obtain rfl : z = k - msg.length - 42 := by omega
  refine ⟨by omega, ?_⟩
  rw [← List.take_append_drop 20 db, hlabel, hz]
  simp [dataBlock]

/-- Decoding answers a message on no other block than an encoding of it. -/
theorem eq_oaepEncode_of_oaepDecode {em msg : List Byte} {k : Nat} (hk : 42 ≤ k) (hlen : em.length = k)
    (h : oaepDecode em k = .ok msg) : msg.length + 42 ≤ k ∧ em = oaepEncode msg k (unmaskedSeed em) := by
  by_cases hlabel : (unmaskedDb em k).take 20 = lHash
  · rw [oaepDecode_of_labelHash hlabel] at h
    split at h
    · cases h
    · next h0 =>
      obtain ⟨hfit, hdb⟩ := eq_dataBlock hk (unmaskedDb_length hlen hk) hlabel h
      exact ⟨hfit, by rw [oaepEncode_eq, ← hdb, maskedBlock_unmasked hlen (not_not.mp h0)]⟩
  · rw [oaepDecode_of_other_labelHash hlabel] at h
    cases h

end Sys2Proof.Machine
end

section
/-! SUPPORT. OAEP_ENC and OAEP_DEC from the codec (rules R186, R187, R189; O53 to O56), and the round trip through RSA (rule R191;
O57). -/

namespace Sys2Proof.Machine

open Sys2Proof.Certificates

/-! ### The seed (rule R186) -/

theorem os2ip_injective {s t : List Byte} (hlen : s.length = t.length) (h : os2ip s = os2ip t) : s = t := by
  rw [← bytesOf_os2ip s, ← bytesOf_os2ip t, hlen, h]

@[simp] theorem os2ip_be32 (w : Word) : os2ip (be32 w.toNat) = w.toNat := os2ip_bytesOf 4 _ w.isLt

/-- The seed is drawn once five words are (rule R186). -/
theorem oaepSeed_eq_none_iff {ws : List Word} : oaepSeed ws = none ↔ ws.length < 5 := by
  unfold oaepSeed
  split
  · simp
  · next h =>
    refine iff_of_true rfl (Nat.not_le.mp fun hlen => ?_)
    match ws, hlen with
    | w₀ :: w₁ :: w₂ :: w₃ :: w₄ :: rest, _ => exact h w₀ w₁ w₂ w₃ w₄ rest rfl

/-- The seed is the 20 bytes of the five words read as one number, the first word most significant (rule R186). -/
theorem oaepSeed_five {w₀ w₁ w₂ w₃ w₄ : Word} {seed : List Byte} (hlen : seed.length = 20)
    (h : os2ip seed = w₀.toNat * 2 ^ 128 + w₁.toNat * 2 ^ 96 + w₂.toNat * 2 ^ 64 + w₃.toNat * 2 ^ 32 + w₄.toNat) :
    oaepSeed [w₀, w₁, w₂, w₃, w₄] = some seed := by
  refine congrArg some (os2ip_injective (by simp [hlen]) ?_)
  simp only [os2ip_append, os2ip_be32, be32_length, h]
  omega

/-! ### OAEP_ENC (rule R187) -/

/-- The bound on the message, compared as signed integers, is the one on naturals without subtraction. -/
theorem messageTooLong_iff (mLen k : Nat) : (mLen : Int) > (k : Int) - 2 * hLen - 2 ↔ k < mLen + 42 := by
  simp only [hLen]
  omega

section OaepEnc

variable {p : Params} {c : Snapshot} {rd rs1 : ZReg}

theorem runOaepEnc_of_illegal (h : ¬legalKeySize p c.keysize.toNat) (ws : List Word) :
    runOaepEnc rd rs1 p c ws = .error .configError := by
  simp [runOaepEnc, mt ksLegal_iff.mp h]

variable (hks : legalKeySize p c.keysize.toNat)

include hks

theorem runOaepEnc_of_long (h : c.keysize.toNat / 4 < c.lena.toNat + 42) (ws : List Word) :
    runOaepEnc rd rs1 p c ws = .error .messageTooLong := by
  simp only [runOaepEnc, ksLegal_iff.mpr hks, modulusBytes, messageTooLong_iff, h]
  rfl

variable (hlen : c.lena.toNat + 42 ≤ c.keysize.toNat / 4)

include hlen

theorem runOaepEnc_of_unfit (h : 256 ^ c.lena.toNat ≤ c.read rs1) (ws : List Word) :
    runOaepEnc rd rs1 p c ws = .error .encodingError := by
  simp only [runOaepEnc, ksLegal_iff.mpr hks, modulusBytes, messageTooLong_iff, Nat.not_lt.mpr hlen, i2osp_eq_none.mpr h]
  rfl

variable {msg : List Byte} (hmsg : i2osp (c.read rs1) c.lena.toNat = some msg) {ws : List Word}

include hmsg

theorem runOaepEnc_needWord (h : oaepSeed ws = none) : runOaepEnc rd rs1 p c ws = .needWord := by
  simp only [runOaepEnc, ksLegal_iff.mpr hks, modulusBytes, messageTooLong_iff, Nat.not_lt.mpr hlen, hmsg, h]
  rfl

theorem runOaepEnc_success {seed : List Byte} (h : oaepSeed ws = some seed) :
    runOaepEnc rd rs1 p c ws = .success { z := [(rd, os2ip (oaepEncode msg (c.keysize.toNat / 4) seed))] } := by
  simp only [runOaepEnc, ksLegal_iff.mpr hks, modulusBytes, messageTooLong_iff, Nat.not_lt.mpr hlen, hmsg, h]
  rfl

end OaepEnc

/-- OAEP_ENC writes the encoded block once its seed is drawn (rule R187). -/
theorem exec_oaepEnc {rd rs1 : ZReg} {s : State} {c : Running} {msg seed : List Byte} (hc : s.engine = .busy c)
    (hks : legalKeySize s.params c.snap.keysize.toNat) (hlen : msg.length + 42 ≤ c.snap.keysize.toNat / 4)
    (hlena : c.snap.lena.toNat = msg.length) (hx : c.snap.z[rs1] = os2ip msg) (hseed : oaepSeed c.drawn = some seed) :
    exec (.oaepEnc rd rs1) s =
      .next (succeeded s (s.z.set rd (os2ip (oaepEncode msg (c.snap.keysize.toNat / 4) seed)))) :=
  exec_of_success (i := .oaepEnc rd rs1) hc
    (runOaepEnc_success hks (hlena ▸ hlen) (i2osp_of_os2ip hlena.symm hx.symm) hseed)

/-- Settles O53: each check, the wait, and the seed as the one string of 20 bytes that the five words make. -/
theorem oaepEncWritesTheBlock : Obligations.OaepEncWritesTheBlock := by
  intro rd rs1 s c hc ks k mLen x
  refine ⟨fun hks => exec_of_error (i := .oaepEnc rd rs1) hc (runOaepEnc_of_illegal hks c.drawn),
    fun hks hlong => exec_of_error (i := .oaepEnc rd rs1) hc (runOaepEnc_of_long hks hlong c.drawn),
    fun hks hlen hx => exec_of_error (i := .oaepEnc rd rs1) hc (runOaepEnc_of_unfit hks hlen hx c.drawn),
    fun hks hlen hx hfew => ?_, fun msg seed w₀ w₁ w₂ w₃ w₄ hks hlen hmsg hx hdrawn hseedLen hseed => ?_⟩
  · have hneed : runOaepEnc rd rs1 s.params c.snap c.drawn = .needWord :=
      runOaepEnc_needWord hks hlen (i2osp_eq_some.mpr ⟨hx, rfl⟩) (oaepSeed_eq_none_iff.mpr hfew)
    exact ⟨drawStep c s, (exec_eq_engineStep _ s).trans (engineStep_needWord hc hneed), drawStep_busy hc⟩
  · intro db maskedDb block
    have hfit : msg.length + 42 ≤ k := hmsg ▸ hlen
    have hdb : dataBlock msg k = db := by rw [dataBlock, hmsg]
    have hblock : oaepEncode msg k seed = block := by
      rw [oaepEncode_eq, hdb]
      rfl
    rw [← hblock]
    exact ⟨oaepEncode_length msg seed k hseedLen hfit,
      exec_oaepEnc hc hks hfit hmsg.symm hx.symm (hdrawn ▸ oaepSeed_five hseedLen hseed)⟩

/-! ### OAEP_DEC (rule R189) -/

section OaepDec

variable {rd rs1 : ZReg} {p : Params} {c : Snapshot}

theorem runOaepDec_of_illegal (h : ¬(legalKeySize p c.keysize.toNat ∧ 42 ≤ c.keysize.toNat / 4)) (ws : List Word) :
    runOaepDec rd rs1 p c ws = .error .configError := by
  by_cases hks : legalKeySize p c.keysize.toNat
  · have hk : c.keysize.toNat / 4 < 42 := by simpa [hks] using h
    simp [runOaepDec, modulusBytes, hLen, hk]
  · simp [runOaepDec, mt ksLegal_iff.mp hks]

variable (hks : legalKeySize p c.keysize.toNat) (hk : 42 ≤ c.keysize.toNat / 4)

include hks hk

theorem runOaepDec_of_unfit (h : 256 ^ (c.keysize.toNat / 4) ≤ c.read rs1) (ws : List Word) :
    runOaepDec rd rs1 p c ws = .error .encodingError := by
  simp [runOaepDec, ksLegal_iff.mpr hks, modulusBytes, hLen, Nat.not_lt.mpr hk, i2osp_eq_none.mpr h]

variable {em : List Byte} (hem : i2osp (c.read rs1) (c.keysize.toNat / 4) = some em)

include hem

theorem runOaepDec_of_error {code : ErrCode} (h : oaepDecode em (c.keysize.toNat / 4) = .error code) (ws : List Word) :
    runOaepDec rd rs1 p c ws = .error code := by
  simp [runOaepDec, ksLegal_iff.mpr hks, modulusBytes, hLen, Nat.not_lt.mpr hk, hem, h]

theorem runOaepDec_of_ok {msg : List Byte} (h : oaepDecode em (c.keysize.toNat / 4) = .ok msg) (ws : List Word) :
    runOaepDec rd rs1 p c ws = .success { z := [(rd, os2ip msg)], lenb := some (BitVec.ofNat 16 msg.length) } := by
  simp [runOaepDec, ksLegal_iff.mpr hks, modulusBytes, hLen, Nat.not_lt.mpr hk, hem, h]

end OaepDec

/-- Everything OAEP_DEC's rule can answer: an error, or the message that decoding answers. -/
theorem runOaepDec_cases (rd rs1 : ZReg) (p : Params) (c : Snapshot) (ws : List Word) :
    (∃ code, code ≠ .ok ∧ runOaepDec rd rs1 p c ws = .error code) ∨
    (42 ≤ c.keysize.toNat / 4 ∧ ∃ em msg, i2osp (c.read rs1) (c.keysize.toNat / 4) = some em ∧
      oaepDecode em (c.keysize.toNat / 4) = .ok msg ∧
      runOaepDec rd rs1 p c ws = .success { z := [(rd, os2ip msg)], lenb := some (BitVec.ofNat 16 msg.length) }) := by
  by_cases hlegal : legalKeySize p c.keysize.toNat ∧ 42 ≤ c.keysize.toNat / 4
  · obtain ⟨hks, hk⟩ := hlegal
    rcases hem : i2osp (c.read rs1) (c.keysize.toNat / 4) with _ | em
    · exact .inl ⟨_, by simp, runOaepDec_of_unfit hks hk (i2osp_eq_none.mp hem) ws⟩
    · rcases hdec : oaepDecode em (c.keysize.toNat / 4) with code | msg
      · refine .inl ⟨code, ?_, runOaepDec_of_error hks hk hem hdec ws⟩
        rcases oaepDecode_error hdec with rfl | rfl <;> simp
      · exact .inr ⟨hk, em, msg, rfl, hdec, runOaepDec_of_ok hks hk hem hdec ws⟩
  · exact .inl ⟨_, by simp, runOaepDec_of_illegal hlegal ws⟩

/-- LENB holds the length of every recovered message, because a key size has 16 bits. -/
theorem toNat_ofNat_length {msg : List Byte} {ks : BitVec 16} (h : msg.length + 42 ≤ ks.toNat / 4) :
    (BitVec.ofNat 16 msg.length).toNat = msg.length := by
  have := ks.isLt
  rw [BitVec.toNat_ofNat]
  omega

/-- Settles O54: the block is the string that `I2OSP` gives, and decoding undoes encoding. -/
theorem oaepDecRecoversTheMessage : Obligations.OaepDecRecoversTheMessage := by
  intro rd rs1 s c msg seed hc hks hlen hseed hx
  have hem : i2osp (c.snap.read rs1) (c.snap.keysize.toNat / 4) = some (oaepEncode msg (c.snap.keysize.toNat / 4) seed) :=
    i2osp_of_os2ip (oaepEncode_length msg seed _ hseed hlen) hx.symm
  exact exec_of_success (i := .oaepDec rd rs1) hc
    (runOaepDec_of_ok hks (by omega) hem (oaepDecode_oaepEncode hseed hlen) c.drawn)

/-- Settles O55: a success comes from a decoded message, whose block is its encoding under the seed unmasked from it. -/
theorem oaepDecAcceptsOnlyEncodedBlocks : Obligations.OaepDecAcceptsOnlyEncodedBlocks := by
  intro rd rs1 s t c hc hexec _ hok
  rcases runOaepDec_cases rd rs1 s.params c.snap c.drawn with ⟨code, hcode, hrun⟩ | ⟨hk, em, msg, hem, hdec, hrun⟩
  · rw [exec_of_error (i := .oaepDec rd rs1) hc hrun] at hexec
    cases hexec
    exact absurd hok hcode
  · rw [exec_of_success (i := .oaepDec rd rs1) hc hrun] at hexec
    cases hexec
    obtain ⟨hx, hbytes⟩ := i2osp_eq_some.mp hem
    have hlen : em.length = c.snap.keysize.toNat / 4 := by rw [hbytes, bytesOf_length]
    obtain ⟨hfit, henc⟩ := eq_oaepEncode_of_oaepDecode hk hlen hdec
    refine ⟨msg, unmaskedSeed em, hfit, unmaskedSeed_length hlen hk, ?_, by simp [applyZ], toNat_ofNat_length hfit⟩
    rw [← henc, hbytes, os2ip_bytesOf _ _ hx]
    rfl

/-- Settles O56: each check in turn; a fault of the padding is the same code as a leading byte that is not 0. -/
theorem oaepDecErrorsInOrder : Obligations.OaepDecErrorsInOrder := by
  intro rd rs1 s c hc ks k x
  refine ⟨fun h => exec_of_error (i := .oaepDec rd rs1) hc (runOaepDec_of_illegal h c.drawn),
    fun hks hk hx => exec_of_error (i := .oaepDec rd rs1) hc (runOaepDec_of_unfit hks hk hx c.drawn),
    fun y em hks hk hlen hx => ?_⟩
  have hfail : ∀ code, oaepDecode (y :: em) k = .error code → exec (.oaepDec rd rs1) s = .next (failed s code) :=
    fun code hdec => exec_of_error (i := .oaepDec rd rs1) hc (runOaepDec_of_error hks hk (i2osp_of_os2ip hlen hx) hdec c.drawn)
  refine ⟨fun hlabel => hfail _ (oaepDecode_of_other_labelHash hlabel),
    fun hlabel hy => hfail _ (oaepDecode_of_padding hlabel (.inl (by simpa using hy))),
    fun hlabel hzeros => hfail _ (oaepDecode_of_padding hlabel (.inr (afterSeparator_of_zeros hzeros))),
    fun z b rest hlabel hdb h0 h1 => hfail _ (oaepDecode_of_padding hlabel (.inr ?_))⟩
  rw [show (unmaskedDb (y :: em) k).drop 20 = _ from hdb]
  exact afterSeparator_of_other h0 h1 z rest

/-! ### The round trip through RSA (rule R191) -/

/-- The leading byte of a block is 0, so its integer has one byte less (rule R187). -/
theorem os2ip_oaepEncode_lt {msg seed : List Byte} {k : Nat} (hseed : seed.length = 20) (hk : msg.length + 42 ≤ k) :
    os2ip (oaepEncode msg k seed) < 256 ^ (k - 1) := by
  obtain ⟨tail, htail⟩ : ∃ tail, oaepEncode msg k seed = 0x00 :: tail := ⟨_, rfl⟩
  have hlen : tail.length + 1 = k := by rw [← oaepEncode_length msg seed k hseed hk, htail, List.length_cons]
  rw [htail, os2ip_cons, ← hlen, Nat.add_sub_cancel]
  simpa using os2ip_lt tail

/-- A block is below every modulus of two primes of KEYSIZE bits (rule R191). -/
theorem oaepBlock_lt_modulus {p q ks : Nat} (hks : ks % 4 = 0) (h4 : 4 ≤ ks) (hp : 2 ^ (ks - 1) < p) (hq : 2 ^ (ks - 1) < q) :
    256 ^ (ks / 4 - 1) < p * q := by
  calc 256 ^ (ks / 4 - 1) = 2 ^ (8 * (ks / 4 - 1)) := by rw [Nat.pow_mul]
    _ ≤ 2 ^ ((ks - 1) + (ks - 1)) := Nat.pow_le_pow_right (by decide) (by omega)
    _ = 2 ^ (ks - 1) * 2 ^ (ks - 1) := Nat.pow_add ..
    _ < p * q := Nat.mul_lt_mul'' hp hq

/-- Settles O57: the block is below the modulus, so the two exponentiations give it back (O38) and decoding recovers the message
(O54). -/
theorem oaepRoundTripThroughRsa : Obligations.OaepRoundTripThroughRsa := by
  intro p q e d msg rd₁ rs₁ s₁ c₁ hc₁ ks hp hq hpq hp2 hq2 hplo _ hqlo _ hde hks hfit hlena hx hdrawn
  obtain ⟨seed, hseed⟩ : ∃ seed, oaepSeed c₁.drawn = some seed :=
    Option.ne_none_iff_exists'.mp (mt oaepSeed_eq_none_iff.mp (by omega))
  have hseedLen := oaepSeed_length hseed
  have hblock : os2ip (oaepEncode msg (ks / 4) seed) < p * q :=
    (os2ip_oaepEncode_lt hseedLen hfit).trans (oaepBlock_lt_modulus hks.1 hks.2.1 hplo hqlo)
  refine ⟨_, exec_oaepEnc hc₁ hks hfit hlena hx hseed, rfl, fun rd₂ a₂ e₂ n₂ s₂ c₂ hc₂ ha₂ he₂ hn₂ => ?_⟩
  obtain ⟨t₂, hexec₂, hok₂, hback⟩ := rsaDecryptsWhatItEncrypts p q e d _ hp hq hpq hp2 hq2 hde hblock rd₂ a₂ e₂ n₂ s₂ c₂ hc₂
    (by simpa [succeeded] using ha₂) he₂ hn₂
  refine ⟨t₂, hexec₂, hok₂, fun rd₃ a₃ d₃ n₃ s₃ c₃ hc₃ ha₃ hd₃ hn₃ =>
    ⟨_, hback rd₃ a₃ d₃ n₃ s₃ c₃ hc₃ ha₃ hd₃ hn₃, rfl, fun rd₄ a₄ s₄ c₄ hc₄ hparams hkey ha₄ => ?_⟩⟩
  have hdec := oaepDecRecoversTheMessage rd₄ a₄ s₄ c₄ msg seed hc₄ (hparams ▸ hkey ▸ hks) (hkey ▸ hfit) hseedLen
    (by simpa [succeeded, hkey] using ha₄)
  exact ⟨_, hdec, rfl, by simp [succeeded], toNat_ofNat_length hfit⟩

end Sys2Proof.Machine
end

section
/-! SUPPORT. The control family (44_control.md): a CTRL write in the order of rule R214 (O18), random integers and the loop on them
as functions of the words (rules R216, R217; O43, O44), NOP and ZEROIZE (rules R210, R211; O29, O30). -/

namespace Sys2Proof.Machine

open Sys2Proof.Certificates

/-! ### NOP and ZEROIZE -/

/-- Settles O29: NOP succeeds with no writes. -/
theorem nopCompletes : Obligations.NopCompletes := fun _ _ hc => exec_of_success (i := .nop) (w := {}) hc rfl

/-- The writes of ZEROIZE reach every register, so that what they leave does not depend on what stood there. -/
theorem applyZ_zeroize (z : Vector Nat 8) : applyZ z ((List.finRange 8).map fun r => (r, 0)) = Vector.replicate 8 0 := by
  have hzero : applyZ (Vector.replicate 8 0) ((List.finRange 8).map fun r => (r, 0)) = Vector.replicate 8 0 := by decide
  ext r hr
  exact (applyZ_of_written (r := ⟨r, hr⟩) (by simp) z (Vector.replicate 8 0)).trans (congrArg (·[r]) hzero)

/-- Settles O30: ZEROIZE succeeds with its eight writes. -/
theorem zeroizeClearsEveryBigRegister : Obligations.ZeroizeClearsEveryBigRegister := fun s _ hc => by
  rw [exec_of_success (i := .zeroize) (w := { z := (List.finRange 8).map fun r => (r, 0) }) hc rfl, succeeded, ← applyZ_zeroize s.z]
  rfl

/-! ### A CTRL write (rules R212 to R214) -/

theorem setCtrlFields_of_idle {s : State} (h : s.engine = .idle) (v : Word) :
    setCtrlFields v s = { s with ie := v.getLsbD 0, rngsrc := rngSourceOf v } := by
  simp [setCtrlFields, (busy_eq_false_iff s).mpr h]

theorem setCtrlFields_of_busy {s : State} {c : Running} (hc : s.engine = .busy c) (v : Word) :
    setCtrlFields v s =
      { s with ie := v.getLsbD 0, accerr := s.accerr || decide (rngSourceOf v ≠ s.rngsrc) } := by
  rw [setCtrlFields, if_neg (by simp [(busy_eq_true_iff s).mpr ⟨c, hc⟩])]
  by_cases hsrc : rngSourceOf v = s.rngsrc <;> simp [hsrc, refuseAccess]

theorem flushFifo_if (b : Bool) (s : State) :
    (if b then flushFifo s else s) = { s with fifo := if b then [] else s.fifo } := by
  cases b <;> rfl

theorem abort_of_idle {s : State} (h : s.engine = .idle) : abort s = s := by
  simp [abort, (busy_eq_false_iff s).mpr h]

theorem abort_if_of_idle {s : State} (h : s.engine = .idle) (b : Bool) : (if b then abort s else s) = s := by
  rw [abort_of_idle h, ite_self]

theorem abort_if_of_busy {s : State} {c : Running} (hc : s.engine = .busy c) (b : Bool) :
    (if b then abort s else s) =
      { s with
        engine := if b then .idle else s.engine
        done := s.done || b
        errcode := if b then .aborted else s.errcode } := by
  rw [abort_of_busy hc]
  cases b
  · simp
  · simp [finish]

/-- A CTRL write without SOFTRST: the fields, then the FIFO, then the running command (rule R214). -/
theorem writeCtrl_of_not_softReset {v : Word} (h : v.getLsbD 3 = false) {s s' : State} (hfields : setCtrlFields v s = s') :
    writeCtrl v s =
      if v.getLsbD 2 then abort { s' with fifo := if v.getLsbD 4 then [] else s'.fifo }
      else { s' with fifo := if v.getLsbD 4 then [] else s'.fifo } := by
  rw [writeCtrl_eq, if_neg (Bool.eq_false_iff.mp h), hfields, flushFifo_if]

/-- Settles O18: with SOFTRST the reset alone; else the actions in order, whose last one meets the engine as the write found it. -/
theorem ctrlWriteActsInOrder : Obligations.CtrlWriteActsInOrder := by
  intro s v
  refine ⟨fun h3 => hostWrite_csr s 0x10 v (writeCtrl_softReset h3 s), fun h3 hidle => hostWrite_csr s 0x10 v ?_,
    fun c h3 hc => hostWrite_csr s 0x10 v ?_⟩
  · refine (writeCtrl_of_not_softReset h3 (setCtrlFields_of_idle hidle v)).trans (abort_if_of_idle ?_ _)
    exact hidle
  · refine (writeCtrl_of_not_softReset h3 (setCtrlFields_of_busy hc v)).trans (abort_if_of_busy (c := c) ?_ _)
    exact hc

/-! ### Random integers (rule R216) -/

/-- `RandBits(b)` takes its words from the front, and has no answer without them. -/
theorem randBits_eq (b : Nat) (ws : List Word) :
    randBits b ws =
      if (b + 31) / 32 ≤ ws.length then some (wordsValue b (ws.take ((b + 31) / 32)), ws.drop ((b + 31) / 32)) else none := by
  split
  · next hw =>
    have hr := randBits_append (b := b) (List.length_take_of_le hw) (ws.drop ((b + 31) / 32))
    rwa [List.take_append_drop] at hr
  · next hw => exact randBits_eq_none (Nat.lt_of_not_le hw)

/-- Settles O43: the two cases of the number of words. -/
theorem randBitsAssemblesItsWords : Obligations.RandBitsAssemblesItsWords := fun b ws _ =>
  ⟨fun hw => (randBits_eq b ws).trans (if_pos hw), randBits_eq_none⟩

/-! ### Draws until one is accepted (rule R217) -/

/-- On `ws` there is a whole draw, the predicate answers `r` for it, and `rest` are the words after it. -/
def DrawTest (b : Nat) (accepts : Nat → Bool) (ws : List Word) (r : Bool) (rest : List Word) : Prop :=
  (b + 31) / 32 ≤ ws.length ∧ accepts (wordsValue b (ws.take ((b + 31) / 32))) = r ∧ rest = ws.drop ((b + 31) / 32)

theorem DrawTest.rest_length {b : Nat} {accepts : Nat → Bool} {ws rest : List Word} {r : Bool} (hb : 1 ≤ b)
    (h : DrawTest b accepts ws r rest) : rest.length < ws.length := by
  obtain ⟨hw, -, rfl⟩ := h
  rw [List.length_drop]
  omega

/-- One turn of the loop: the draw is accepted, or the loop goes on after it. -/
theorem drawUntil_turn {b : Nat} (hb : 1 ≤ b) (accepts : Nat → Bool) (ws : List Word) (a : Nat × List Word) :
    drawUntil b accepts ws = some a ↔
      (DrawTest b accepts ws true a.2 ∧ a.1 = wordsValue b (ws.take ((b + 31) / 32))) ∨
      ∃ ws', DrawTest b accepts ws false ws' ∧ drawUntil b accepts ws' = some a := by
  obtain ⟨x, rest⟩ := a
  rw [drawUntil_eq b hb, randBits_eq]
  by_cases hw : (b + 31) / 32 ≤ ws.length
  · by_cases hx : accepts (wordsValue b (ws.take ((b + 31) / 32))) = true
    · simp [DrawTest, hw, hx, and_comm, eq_comm]
    · simp [DrawTest, hw, hx]
  · simp [DrawTest, hw]

/-- The words left by `m` rejected draws, each on the words the one before left, are those after the first `m` draws. -/
theorem eq_drop_of_drawTests {b : Nat} {accepts : Nat → Bool} {at_ : Nat → List Word} {m : Nat}
    (h : ∀ j, j < m → DrawTest b accepts (at_ j) false (at_ (j + 1))) :
    ∀ j, j ≤ m → at_ j = (at_ 0).drop (j * ((b + 31) / 32)) := by
  intro j hj
  induction j with
  | zero => simp
  | succ j ih =>
    obtain ⟨-, -, hrest⟩ := h j hj
    rw [hrest, ih (Nat.le_of_succ_le hj), List.drop_drop, Nat.succ_mul]

/-- `DrawUntil(b, P)` as its draws, each on the words the one before left (rule R217). -/
theorem drawUntil_eq_some_iff {b : Nat} (hb : 1 ≤ b) (accepts : Nat → Bool) (ws rest : List Word) (x : Nat) :
    drawUntil b accepts ws = some (x, rest) ↔
      ∃ m, (∀ j, j < m → DrawTest b accepts (ws.drop (j * ((b + 31) / 32))) false (ws.drop ((j + 1) * ((b + 31) / 32)))) ∧
        DrawTest b accepts (ws.drop (m * ((b + 31) / 32))) true rest ∧
        x = wordsValue b ((ws.drop (m * ((b + 31) / 32))).take ((b + 31) / 32)) := by
  refine (loop_eq_some_iff
    (done := fun ws a => DrawTest b accepts ws true a.2 ∧ a.1 = wordsValue b (ws.take ((b + 31) / 32)))
    (DrawTest.rest_length hb) (drawUntil_turn hb accepts) ws (x, rest)).trans ⟨?_, ?_⟩
  · rintro ⟨at_, m, rfl, htry, hdone⟩
    have hat := eq_drop_of_drawTests htry
    refine ⟨m, fun j hj => ?_, hat m le_rfl ▸ hdone⟩
    rw [← hat j hj.le, ← hat (j + 1) hj]
    exact htry j hj
  · rintro ⟨m, htry, hdone⟩
    exact ⟨fun j => ws.drop (j * ((b + 31) / 32)), m, by simp, htry, hdone⟩

/-- The draw with number `m` is whole, and what follows it, in terms of all the words. -/
theorem drawTest_drop_iff {b : Nat} (hb : 1 ≤ b) {accepts : Nat → Bool} {ws rest : List Word} {m : Nat} {r : Bool} :
    DrawTest b accepts (ws.drop (m * ((b + 31) / 32))) r rest ↔
      (m + 1) * ((b + 31) / 32) ≤ ws.length ∧
      accepts (wordsValue b ((ws.drop (m * ((b + 31) / 32))).take ((b + 31) / 32))) = r ∧
      rest = ws.drop ((m + 1) * ((b + 31) / 32)) := by
  have hwhole : (b + 31) / 32 ≤ ws.length - m * ((b + 31) / 32) ↔ (m + 1) * ((b + 31) / 32) ≤ ws.length := by
    rw [Nat.succ_mul]
    omega
  rw [DrawTest, List.length_drop, hwhole, List.drop_drop, Nat.succ_mul]

/-- Settles O44: the draws before the accepted one are whole because it is. -/
theorem drawUntilTakesTheFirstAccepted : Obligations.DrawUntilTakesTheFirstAccepted := by
  intro b accepts ws rest x hb
  dsimp only
  rw [drawUntil_eq_some_iff hb]
  refine exists_congr fun m => ⟨?_, ?_⟩
  · rintro ⟨htry, hdone, hx⟩
    obtain ⟨hw, ha, hrest⟩ := (drawTest_drop_iff hb).mp hdone
    exact ⟨hw, hx, ha, fun j hj => ((drawTest_drop_iff hb).mp (htry j hj)).2.1, hrest⟩
  · rintro ⟨hw, hx, ha, hbefore, hrest⟩
    refine ⟨fun j hj => (drawTest_drop_iff hb).mpr ⟨?_, hbefore j hj, rfl⟩, (drawTest_drop_iff hb).mpr ⟨hw, ha, hrest⟩, hx⟩
    exact (Nat.mul_le_mul_right _ (Nat.succ_le_succ hj.le)).trans hw

end Sys2Proof.Machine
end

section
/-! SUPPORT. The command lifecycle (60_exceptions.md): a CMD write (O10), the engine's turn (O5), and what one engine step of a
running command does (O11, O12). -/

namespace Sys2Proof.Machine

open Sys2Proof.Certificates

/-! ### A CMD write (rules R230, R231) -/

theorem writeCmd_busy {s : State} {c : Running} (hc : s.engine = .busy c) (w : Word) :
    writeCmd w s = { s with overrun := true } := by
  rw [writeCmd, if_pos ((busy_eq_true_iff s).mpr ⟨c, hc⟩)]

/-- Settles O10: the write reaches `writeCmd`, which accepts the word, rejects it in the same step, or drops it. -/
theorem cmdWriteAcceptsRejectsOrIsDropped : Obligations.CmdWriteAcceptsRejectsOrIsDropped := by
  refine fun s w => ⟨fun hidle hwf => ?_, fun hidle hwf => ?_, fun c hc => hostWrite_csr s 0x14 w (writeCmd_busy hc w)⟩
  · obtain ⟨i, hi⟩ := (decode_ok_iff_wf w).mpr hwf
    exact hostWrite_csr s 0x14 w ((writeCmd_idle hidle w).trans (accept_command hi s))
  · obtain ⟨e, he⟩ := decode_error_of_not_wf hwf
    refine hostWrite_csr s 0x14 w (((writeCmd_idle hidle w).trans (accept_illegal he s)).trans ?_)
    simp [finish, hidle]

/-! ### The engine's turn (rules R48, R232) -/

theorem engineTurn_of_decode {s : State} {c : Running} {i : Instr} (hc : s.engine = .busy c) (hi : decode c.cmd = .ok i) :
    engineTurn s = exec i s := by
  simp [engineTurn, hc, hi]

/-- The engine waits for the entropy source while the running rule needs a word of that source and none is queued (rule R48). -/
theorem waitsForEntropy_iff {s : State} {c : Running} {i : Instr} (hc : s.engine = .busy c) (hi : decode c.cmd = .ok i) :
    waitsForEntropy s = true ↔
      runCommand i s.params c.snap c.drawn = .needWord ∧ c.snap.rngsrc = .entropy ∧ s.entropy = [] := by
  cases hsrc : c.snap.rngsrc <;> simp [waitsForEntropy, rngWait, runningNeedsWord, available, hc, hi, hsrc]

/-- Settles O5: the step's branch for an engine event, and with nothing scheduled the two answers of `waitsForEntropy`. -/
theorem engineTurnRunsTheDecodedCommand : Obligations.EngineTurnRunsTheDecodedCommand := by
  refine fun s c i hc hi => ⟨fun rest hs => ?_, fun hs hnot => ?_, fun hs hneed hsrc hempty => ?_⟩
  · simpa [step, hs] using engineTurn_of_decode (s := { s with schedule := rest }) hc hi
  · simpa [step, hs, mt (waitsForEntropy_iff hc hi).mp hnot] using engineTurn_of_decode hc hi
  · simp [step, hs, (waitsForEntropy_iff hc hi).mpr ⟨hneed, hsrc, hempty⟩, entropyAnswerFree, entropyAnswer, hempty]

/-! ### One engine step of a running command (rules R232, R233) -/

theorem exec_of_needWord {i : Instr} {s : State} {c : Running} (hc : s.engine = .busy c)
    (hr : runCommand i s.params c.snap c.drawn = .needWord) : exec i s = .next (drawStep c s) := by
  rw [exec_eq_engineStep, engineStep_needWord hc hr]

/-- With no word in the selected source a draw step waits. -/
theorem drawStep_of_empty {c : Running} {s : State} (h : available c s = []) : drawStep c s = s := by
  simp [drawStep, h]

/-- With a word in the selected source a draw step takes the oldest. -/
theorem drawStep_of_word {c : Running} {s : State} {w : Word} {ws : List Word} (h : available c s = w :: ws) :
    drawStep c s = { dropOldest c s with
      engine := .busy { c with drawn := c.drawn ++ [w] }
      rngCount := countUp s.rngCount } := by
  simp [drawStep, h]

theorem countUp_eq (n : Word) : countUp n = if n = 0xFFFFFFFF then 0xFFFFFFFF else n + 1 := by
  unfold countUp
  split
  · assumption
  · rfl

/-- The scheduled writes are a fold over their list (rule R233). -/
theorem applyZ_eq_foldl (ws : List (ZReg × Nat)) (z : Vector Nat 8) : applyZ z ws = ws.foldl (fun z p => z.set p.1 p.2) z := by
  induction ws generalizing z with
  | nil => rfl
  | cons x ws ih => exact ih _

/-- Settles O11: the draw step of either source, empty or not, and the two commit steps. -/
theorem engineStepDrawsWaitsOrCommits : Obligations.EngineStepDrawsWaitsOrCommits := by
  intro i s c hc count
  refine ⟨fun hneed => ?_, fun w hok => ?_, fun code herr => exec_of_error hc herr⟩
  · rw [exec_of_needWord hc hneed]
    refine ⟨fun hsrc hempty => ?_, fun hsrc hempty => ?_, fun w ws hsrc hword => ?_, fun w ws hsrc hword => ?_⟩
    · rw [drawStep_of_empty (by simp [available, hsrc, hempty])]
    · rw [drawStep_of_empty (by simp [available, hsrc, hempty])]
    · rw [drawStep_of_word (w := w) (ws := ws) (by simp [available, hsrc, hword]), countUp_eq]
      simp [dropOldest, hsrc, hword, count]
    · rw [drawStep_of_word (w := w) (ws := ws) (by simp [available, hsrc, hword]), countUp_eq]
      simp [dropOldest, hsrc, hword, count]
  · rw [exec_of_success hc hok, ← applyZ_eq_foldl]
    rfl

/-- Settles O12: a completion with a code other than OK is an error, which makes no scheduled write. -/
theorem failedCommandsArePrecise : Obligations.FailedCommandsArePrecise := by
  intro i s t c hc hexec hidle hcode
  rcases exec_completion_cases hc hexec hidle with ⟨w, -, rfl⟩ | ⟨code, -, rfl⟩
  · exact absurd rfl hcode
  · rfl

end Sys2Proof.Machine
end

section
/-! SUPPORT. How a command's answer depends on the words drawn: an error does not (rule R248; O15), and a finish ignores the words
after those it used (rule R232; O16). -/

namespace Sys2Proof.Machine

open Sys2Proof.Certificates

/-! ### Further words after those a drawing function used -/

theorem drawUntil_append_more {b x : Nat} (hb : 1 ≤ b) {accepts : Nat → Bool} {ws rest : List Word}
    (h : drawUntil b accepts ws = some (x, rest)) (more : List Word) :
    drawUntil b accepts (ws ++ more) = some (x, rest ++ more) := by
  obtain ⟨used, rfl, huses, -⟩ := exists_usesExactly_of_drawUntil hb h
  rw [List.append_assoc, huses]

theorem isPrime_append_more {n rounds : Nat} {r : Bool} {ws rest : List Word} (h : isPrime n rounds ws = some (r, rest))
    (more : List Word) : isPrime n rounds (ws ++ more) = some (r, rest ++ more) := by
  obtain ⟨used, rfl, huses, -⟩ := exists_usesExactly_of_isPrime h
  rw [List.append_assoc, huses]

theorem candidateOf_append_more {ks : Nat} {ws : List Word} (h : (ks + 31) / 32 ≤ ws.length) (more : List Word) :
    candidateOf ks (ws ++ more) = candidateOf ks ws := by
  rw [candidateOf, candidateOf, List.take_append_of_le_length h]

theorem CandidateTest.append_more {ks rounds : Nat} {ws rest : List Word} {r : Bool} (h : CandidateTest ks rounds ws r rest)
    (more : List Word) : CandidateTest ks rounds (ws ++ more) r (rest ++ more) := by
  obtain ⟨hw, hr⟩ := h
  refine ⟨by rw [List.length_append]; omega, ?_⟩
  rw [candidateOf_append_more hw, List.drop_append_of_le_length hw]
  exact isPrime_append_more hr more

/-- The candidates tried before the prime stay the same (rule R162). -/
theorem drawPrime_append_more {ks rounds p : Nat} (hk : 1 ≤ ks) {ws rest : List Word}
    (h : drawPrime ks rounds ws = some (p, rest)) (more : List Word) :
    drawPrime ks rounds (ws ++ more) = some (p, rest ++ more) := by
  obtain ⟨at_, m, rfl, htry, hdone, rfl⟩ := (drawPrime_eq_some_iff hk rounds ws rest p).mp h
  exact (drawPrime_eq_some_iff hk ..).mpr ⟨fun j => at_ j ++ more, m, rfl, fun j hj => (htry j hj).append_more more,
    hdone.append_more more, (candidateOf_append_more hdone.1 more).symm⟩

/-- And so do the primes redrawn because they equal `p` (rule R163). -/
theorem drawOtherPrime_append_more {ks rounds p q : Nat} (hk : 1 ≤ ks) {ws rest : List Word}
    (h : drawOtherPrime ks rounds p ws = some (q, rest)) (more : List Word) :
    drawOtherPrime ks rounds p (ws ++ more) = some (q, rest ++ more) := by
  obtain ⟨at_, m, rfl, htry, hdone, hne⟩ := (drawOtherPrime_eq_some_iff hk rounds p ws rest q).mp h
  exact (drawOtherPrime_eq_some_iff hk ..).mpr ⟨fun j => at_ j ++ more, m, rfl,
    fun j hj => drawPrime_append_more hk (htry j hj) more, drawPrime_append_more hk hdone more, hne⟩

theorem KeyDrawn.append_more {ks rounds p q e : Nat} (hk : 1 ≤ ks) {ws : List Word} (h : KeyDrawn ks rounds ws p q e)
    (more : List Word) : KeyDrawn ks rounds (ws ++ more) p q e := by
  obtain ⟨h2, hle, -⟩ := exponentOk_iff.mp h.exponentOk
  obtain ⟨ws₁, ws₂, rest, hp, hq, he⟩ := h
  have hbits : 1 ≤ bitlen ((p - 1) * (q - 1)) := by
    unfold bitlen
    split <;> omega
  exact ⟨_, _, _, drawPrime_append_more hk hp more, drawOtherPrime_append_more hk hq more, drawUntil_append_more hbits he more⟩

/-- Words after the five of the seed are ignored (rule R186, log 15). -/
theorem oaepSeed_append_more {ws : List Word} {seed : List Byte} (h : oaepSeed ws = some seed) (more : List Word) :
    oaepSeed (ws ++ more) = some seed := by
  match ws, h with
  | _ :: _ :: _ :: _ :: _ :: _, h => exact h

/-! ### The commands by whether they draw -/

theorem drawsWords_cases {i : Instr} (h : drawsWords i = true) :
    (∃ rs1, i = .isprime rs1) ∨ i = .keygen ∨ ∃ rd rs1, i = .oaepEnc rd rs1 := by
  cases i with
  | isprime rs1 => exact .inl ⟨rs1, rfl⟩
  | keygen => exact .inr (.inl rfl)
  | oaepEnc rd rs1 => exact .inr (.inr ⟨rd, rs1, rfl⟩)
  | _ => cases h

/-- The rule of a command that does not draw has no use for the words. -/
theorem runCommand_ignores_words {i : Instr} (h : drawsWords i = false) (p : Params) (c : Snapshot) (ws ws' : List Word) :
    runCommand i p c ws = runCommand i p c ws' := by
  cases i with
  | isprime | keygen | oaepEnc => cases h
  | _ => rfl

theorem runIsprime_ne_error (rs1 : ZReg) (p : Params) (c : Snapshot) (ws : List Word) (code : ErrCode) :
    runIsprime rs1 p c ws ≠ .error code := by
  unfold runIsprime
  split <;> simp

/-- With a legal key size KEYGEN never fails: its defensive check finds an exponent that passed its test (rule R236). -/
theorem runKeygen_ne_error {p : Params} {c : Snapshot} (hks : legalKeySize p c.keysize.toNat) (ws : List Word) (code : ErrCode) :
    runKeygen p c ws ≠ .error code := by
  simp only [runKeygen, ksLegal_iff.mpr hks, Bool.not_true, Bool.false_eq_true, if_false]
  split
  · simp
  · split
    · simp
    · split
      · simp
      · next e rest he =>
        obtain ⟨d, -, -, hpair⟩ := keyPair_commits (drawUntil_accepts he).1
        simp [hpair]

/-- OAEP_ENC's checks (rule R187) read no word, and past them its answer is the seed's. -/
theorem runOaepEnc_cases (rd rs1 : ZReg) (p : Params) (c : Snapshot) :
    (∃ code, ∀ ws, runOaepEnc rd rs1 p c ws = .error code) ∨
    ∃ block : List Byte → Nat, ∀ ws, runOaepEnc rd rs1 p c ws =
      (oaepSeed ws).elim .needWord fun seed => .success { z := [(rd, block seed)] } := by
  by_cases hks : legalKeySize p c.keysize.toNat
  · by_cases hlen : c.lena.toNat + 42 ≤ c.keysize.toNat / 4
    · rcases hmsg : i2osp (c.read rs1) c.lena.toNat with _ | msg
      · exact .inl ⟨_, runOaepEnc_of_unfit hks hlen (i2osp_eq_none.mp hmsg)⟩
      · refine .inr ⟨fun seed => os2ip (oaepEncode msg (c.keysize.toNat / 4) seed), fun ws => ?_⟩
        rcases hseed : oaepSeed ws with _ | seed
        · exact runOaepEnc_needWord hks hlen hmsg hseed
        · exact runOaepEnc_success hks hlen hmsg hseed
    · exact .inl ⟨_, runOaepEnc_of_long hks (Nat.lt_of_not_le hlen)⟩
  · exact .inl ⟨_, runOaepEnc_of_illegal hks⟩

/-! ### Errors (rule R248) -/

/-- A command fails on all words with one code, or on none. -/
theorem runCommand_error_cases (i : Instr) (p : Params) (c : Snapshot) :
    (∃ code, ∀ ws, runCommand i p c ws = .error code) ∨ ∀ ws code, runCommand i p c ws ≠ .error code := by
  cases hd : drawsWords i with
  | false =>
    have hsame := fun ws => runCommand_ignores_words hd p c ws []
    rcases hr : runCommand i p c [] with _ | w | code
    · exact .inr fun ws code => by simp [hsame ws, hr]
    · exact .inr fun ws code => by simp [hsame ws, hr]
    · exact .inl ⟨code, fun ws => (hsame ws).trans hr⟩
  | true =>
    rcases drawsWords_cases hd with ⟨rs1, rfl⟩ | rfl | ⟨rd, rs1, rfl⟩
    · exact .inr (runIsprime_ne_error rs1 p c)
    · by_cases hks : legalKeySize p c.keysize.toNat
      · exact .inr (runKeygen_ne_error hks)
      · exact .inl ⟨_, runKeygen_of_illegal hks⟩
    · rcases runOaepEnc_cases rd rs1 p c with herr | ⟨block, hblock⟩
      · exact .inl herr
      · refine .inr fun ws code => ?_
        rw [show runCommand (.oaepEnc rd rs1) p c ws = _ from hblock ws]
        cases oaepSeed ws <;> simp

/-- Settles O15: a command that fails on some words fails with that code on all of them. -/
theorem checksComeBeforeDraws : Obligations.ChecksComeBeforeDraws := by
  intro i p c ws code herr ws'
  rcases runCommand_error_cases i p c with ⟨code', hall⟩ | hnone
  · rw [hall ws', ← hall ws, herr]
  · exact absurd herr (hnone ws code)

/-! ### Finishes (rule R232) -/

theorem runIsprime_append_more {rs1 : ZReg} {p : Params} {c : Snapshot} {ws : List Word}
    (h : runIsprime rs1 p c ws ≠ .needWord) (more : List Word) : runIsprime rs1 p c (ws ++ more) = runIsprime rs1 p c ws := by
  rcases hp : isPrime (c.read rs1) c.mrRounds.toNat ws with _ | ⟨r, rest⟩
  · simp [runIsprime, hp] at h
  · simp [runIsprime, hp, isPrime_append_more hp more]

theorem runKeygen_append_more {p : Params} {c : Snapshot} {ws : List Word} (h : runKeygen p c ws ≠ .needWord)
    (more : List Word) : runKeygen p c (ws ++ more) = runKeygen p c ws := by
  rcases runKeygen_cases p c ws with herr | hneed | ⟨hks, p', q, e, hkey⟩
  · rw [herr]
    exact checksComeBeforeDraws .keygen p c ws _ herr _
  · exact absurd hneed h
  · have hk : 1 ≤ c.keysize.toNat := by
      obtain ⟨-, h4, -⟩ := hks
      omega
    rw [runKeygen_of_keyDrawn hks hkey, runKeygen_of_keyDrawn hks (hkey.append_more hk more)]

theorem runOaepEnc_append_more {rd rs1 : ZReg} {p : Params} {c : Snapshot} {ws : List Word}
    (h : runOaepEnc rd rs1 p c ws ≠ .needWord) (more : List Word) :
    runOaepEnc rd rs1 p c (ws ++ more) = runOaepEnc rd rs1 p c ws := by
  rcases runOaepEnc_cases rd rs1 p c with ⟨code, herr⟩ | ⟨block, hblock⟩
  · rw [herr, herr]
  · rcases hseed : oaepSeed ws with _ | seed
    · simp [hblock, hseed] at h
    · rw [hblock, hblock, hseed, oaepSeed_append_more hseed]

/-- Settles O16: the words a finished command used are at the front, and nothing reads those after them. -/
theorem aFinishNeedsNoFurtherWord : Obligations.AFinishNeedsNoFurtherWord := by
  intro i p c ws more h
  cases hd : drawsWords i with
  | false => exact runCommand_ignores_words hd p c _ _
  | true =>
    rcases drawsWords_cases hd with ⟨rs1, rfl⟩ | rfl | ⟨rd, rs1, rfl⟩
    · exact runIsprime_append_more (p := p) h more
    · exact runKeygen_append_more h more
    · exact runOaepEnc_append_more h more

end Sys2Proof.Machine
end

section
/-! SUPPORT. The two completion codes no step brings into ERRCODE (rules R236, R241; O17): each operation of the machine leaves
ERRCODE alone or writes another code. -/

namespace Sys2Proof.Machine

/-- A code other than the defensive one and the reserved one (rules R236, R241). -/
def ErrCode.Raisable (code : ErrCode) : Prop := code ≠ .keyGenError ∧ code ≠ .keyRecordParseError

theorem ErrCode.raisable_ok : ErrCode.ok.Raisable := ⟨by decide, by decide⟩

theorem ErrCode.raisable_aborted : ErrCode.aborted.Raisable := ⟨by decide, by decide⟩

theorem ErrCode.raisable_illegalCommand : ErrCode.illegalCommand.Raisable := ⟨by decide, by decide⟩

section Raisable

variable {s t : State} (h : s.errcode.Raisable)

include h

/-! ### Host accesses -/

theorem abort_errcode_raisable : (abort s).errcode.Raisable := by
  unfold abort
  split
  · exact ErrCode.raisable_aborted
  · exact h

theorem setCtrlFields_errcode_raisable (v : Word) : (setCtrlFields v s).errcode.Raisable := by
  unfold setCtrlFields
  split
  · exact h
  · split <;> exact h

theorem writeCtrl_errcode_raisable (v : Word) : (writeCtrl v s).errcode.Raisable := by
  have hfields := setCtrlFields_errcode_raisable h v
  rw [writeCtrl_eq]
  split
  · exact ErrCode.raisable_ok
  · have hflush : (if v.getLsbD 4 then flushFifo (setCtrlFields v s) else setCtrlFields v s).errcode.Raisable := by
      split <;> exact hfields
    dsimp only
    split
    · exact abort_errcode_raisable hflush
    · exact hflush

theorem writeCmd_errcode_raisable (w : Word) : (writeCmd w s).errcode.Raisable := by
  unfold writeCmd
  split
  · exact h
  · rcases hd : decode w with e | i
    · rw [accept_illegal hd]
      exact ErrCode.raisable_illegalCommand
    · rw [accept_command hd]
      exact ErrCode.raisable_ok

theorem unlessBusy_errcode_raisable {write : State → State} (hw : (write s).errcode = s.errcode) :
    (unlessBusy write s).errcode.Raisable := by
  unfold unlessBusy
  split
  · exact h
  · rwa [hw]

theorem writeCsr_errcode_raisable (off : Nat) (v : Word) : (writeCsr off v s).errcode.Raisable := by
  unfold writeCsr
  split
  · exact writeCtrl_errcode_raisable h v
  · exact writeCmd_errcode_raisable h v
  · rwa [writeStatus_eq]
  · exact unlessBusy_errcode_raisable h rfl
  · exact unlessBusy_errcode_raisable h rfl
  · exact unlessBusy_errcode_raisable h rfl
  · exact unlessBusy_errcode_raisable h rfl
  · unfold writeRngData
    split <;> exact h
  · exact h

theorem writeWindow_errcode_raisable (off : Nat) (v : Word) : (writeWindow off v s).errcode.Raisable := by
  unfold writeWindow
  split
  · exact writeCsr_errcode_raisable h off v
  · refine unlessBusy_errcode_raisable h ?_
    unfold writeZ
    split <;> rfl

theorem hostAccess_errcode_raisable {a : Access} (ht : hostAccess a s = .next t) : t.errcode.Raisable := by
  rcases hostAccess_cases a s with ⟨bits, addr, heq⟩ | heq | ⟨d, heq⟩ | heq | ⟨off, heq⟩ | ⟨off, v, heq⟩ <;>
    rw [heq] at ht <;> cases ht
  · exact h
  · exact h
  · exact h
  · exact h
  · rcases readWindow_state off s with hr | hr <;> rw [hr] <;> exact h
  · exact writeWindow_errcode_raisable h off v

/-! ### Engine steps and the step -/

theorem engineStep_errcode_raisable {i : Instr} (ht : engineStep (runCommand i) s = .next t) : t.errcode.Raisable := by
  rcases engineStep_cases ht with ⟨-, rfl⟩ | ⟨c, -, ⟨-, rfl⟩ | ⟨w, -, rfl⟩ | ⟨code, herr, rfl⟩⟩
  · exact h
  · rwa [drawStep_errcode]
  · exact ErrCode.raisable_ok
  · exact code_reachable_of_error herr

theorem engineTurn_errcode_raisable (ht : engineTurn s = .next t) : t.errcode.Raisable := by
  rcases engineTurn_cases s with ⟨-, heq⟩ | ⟨c, i, -, -, heq⟩ | ⟨c, e, -, -, heq⟩ <;> rw [heq] at ht
  · cases ht
    exact h
  · exact engineStep_errcode_raisable h ht
  · cases ht
    exact ErrCode.raisable_illegalCommand

theorem step_errcode_raisable (ht : step s = .next t) : t.errcode.Raisable := by
  rcases step_cases s with ⟨-, -, heq⟩ | ⟨-, -, heq⟩ | ⟨a, rest, -, heq⟩ | ⟨rest, -, heq⟩ | ⟨w, rest, -, heq⟩ | ⟨rest, -, heq⟩ <;>
    rw [heq] at ht
  · cases ht
    exact h
  · exact engineTurn_errcode_raisable h ht
  · exact hostAccess_errcode_raisable (s := { s with schedule := rest }) h ht
  · exact engineTurn_errcode_raisable (s := { s with schedule := rest }) h ht
  · cases ht
    exact h
  · cases ht
    exact ErrCode.raisable_ok

end Raisable

/-- Settles O17: the step keeps ERRCODE at a code that commands may raise. -/
theorem unreachableCodesAreNeverRaised : Obligations.UnreachableCodesAreNeverRaised :=
  fun _ _ ht hk hk' => step_errcode_raisable ⟨hk, hk'⟩ ht

end Sys2Proof.Machine
end

section
/-! SUPPORT. A stream on which KEYGEN never finishes (rules R260, R279, vector K7; O48): the word 2 over and over, whose candidate of
4 bits is the prime 11. -/

namespace Sys2Proof.Machine

open Sys2Proof.Certificates

/-- The loop for a prime needs a word. -/
theorem drawPrime_nil {ks : Nat} (hk : 1 ≤ ks) (rounds : Nat) : drawPrime ks rounds [] = none := by
  have hfew : ¬(ks + 31) / 32 ≤ 0 := by omega
  simp [drawPrime_eq ks rounds hk, candidate_eq, hfew]

/-- Every prime drawn from words equal to 2 is 11 (rule R162). -/
theorem drawPrime_twos (rounds k : Nat) : drawPrime 4 rounds (List.replicate (k + 1) 2) = some (11, List.replicate k 2) :=
  drawPrime_four (p := 11) rfl (by norm_num) (by decide) rounds _

/-- So the loop for a second prime other than 11 uses up all of them (rule R163). -/
theorem drawOtherPrime_twos (rounds k : Nat) : drawOtherPrime 4 rounds 11 (List.replicate k 2) = none := by
  induction k with
  | zero => rw [drawOtherPrime_eq 4 rounds 11 (by decide), List.replicate_zero, drawPrime_nil (by decide)]
  | succ k ih =>
    rw [drawOtherPrime_eq 4 rounds 11 (by decide), drawPrime_twos]
    exact ih

theorem not_keyDrawn_twos (rounds k p q e : Nat) : ¬KeyDrawn 4 rounds (List.replicate k 2) p q e := by
  rintro ⟨ws₁, ws₂, rest, hp, hq, -⟩
  cases k with
  | zero => simp [drawPrime_nil] at hp
  | succ k =>
    rw [drawPrime_twos] at hp
    cases hp
    rw [drawOtherPrime_twos] at hq
    cases hq

/-- Settles O48: KEYGEN neither fails nor has its key pair, so its step draws or waits. -/
theorem keygenMayRunForEver : Obligations.KeygenMayRunForEver := by
  intro s c k hc hwf hks hdrawn
  have hfour : c.snap.keysize.toNat = 4 := by rw [hks]; rfl
  have hlegal : legalKeySize s.params c.snap.keysize.toNat := hfour ▸ legalKeySize_four hwf
  rcases runKeygen_cases s.params c.snap c.drawn with herr | hneed | ⟨-, p, q, e, hkey⟩
  · exact absurd herr (runKeygen_ne_error hlegal _ _)
  · exact ⟨drawStep c s, exec_of_needWord (i := .keygen) hc hneed, drawStep_busy hc⟩
  · rw [hfour, hdrawn] at hkey
    exact absurd hkey (not_keyDrawn_twos _ k p q e)

end Sys2Proof.Machine
end

section
/-! SUPPORT. Reset (70_reset_and_hazards.md): what its registers read as (O8), the two ways into it (O9), and the invariant
in it (O59). -/

namespace Sys2Proof.Machine

open Sys2Proof.Certificates

/-! ### The reset state in every configuration (rule R271) -/

/-- The state after reset is its own soft reset, so the facts about `softReset` are facts about it. -/
theorem softReset_resetOf (p : Params) : softReset (State.resetOf p) = State.resetOf p := rfl

theorem ctrlWord_softReset (s : State) : ctrlWord (softReset s) = 0 := by simp [ctrlWord, flagBit]

/-- No command runs, so neither BUSY nor RNGWAIT is set, and the other fields are 0 (rules R38 to R46). -/
theorem statusWord_softReset (s : State) : statusWord (softReset s) = 0 := by
  have hbusy : (softReset s).busy = false := (busy_eq_false_iff _).mpr rfl
  have hwait : rngWait (softReset s) = false := by simp [rngWait]
  simp [statusWord, hbusy, hwait, flagBit, ErrCode.toByte]

theorem rngLevelWord_softReset (s : State) : rngLevelWord (softReset s) = 0 := rfl

/-- Settles O8: the reset state is a soft reset, whose fields and words are known, and PARAM is evaluated in the reference
configuration. -/
theorem resetValues : Obligations.ResetValues := by
  unfold Obligations.ResetValues State.reset
  rw [← softReset_resetOf]
  refine ⟨fun r => ?_, ctrlWord_softReset _, rfl, statusWord_softReset _, rfl, rfl, rfl, rfl, rfl, rngLevelWord_softReset _, rfl,
    rfl, irq_softReset _, rfl, rfl, ?_⟩
  · simp
  · decide

/-- Every legal configuration meets the invariant right after reset (rules R6, R271). -/
theorem inv_resetOf {p : Params} (hp : p.wf = true) : Inv (State.resetOf p) := by
  rw [← softReset_resetOf]
  constructor
  case params => exact hp
  all_goals simp

/-- Settles O59: the reference configuration is legal. -/
theorem resetMeetsTheInvariant : Obligations.ResetMeetsTheInvariant := inv_resetOf (by decide)

/-! ### The two ways into reset (rules R270, R272) -/

theorem step_resetInput {s : State} {rest : List Event} (hs : s.schedule = .resetInput :: rest) :
    step s = .next (softReset { s with schedule := rest }) := by
  simp [step, hs]

/-- Settles O9: SOFTRST is acted on before the other bits of the write, so both events are `softReset`. -/
theorem resetPutsEveryRegisterAtItsValue : Obligations.ResetPutsEveryRegisterAtItsValue :=
  fun s => ⟨fun v h3 => hostWrite_csr s 0x10 v (writeCtrl_softReset h3 s), fun _ hs => step_resetInput hs⟩

end Sys2Proof.Machine
end
